-- ==== Sys2Proof/Word.lean ====
section
/-! DEFINITION. The words of the block: bytes, symbols, node indices and operands, at the widths of 00_scope.md
rule R7. -/

namespace Sys2Proof

/-- One byte of a stream (R9, R60). -/
abbrev Byte := BitVec 8

/-- One symbol, `SYMW` = 21 bits (R7). -/
abbrev Sym := BitVec 21

/-- A node index, a length or a position, `IDXW` = 32 bits (R7). -/
abbrev Idx := BitVec 32

/-- The operand register's width, `XW` = 64 bits (R7): a code word or a symbol count. -/
abbrev Operand := BitVec 64

/-- `NONE`, the node index that means "no node" (R7). -/
def Idx.none : Idx := 0xFFFFFFFF#32

end Sys2Proof
end

