-- ==== Sys2Proof/Config.lean ====
section
/-! DEFINITION. What an implementation of DHB-1 fixes (the four capacities of 00_scope.md rule R7) and the free
values, which the spec leaves unspecified. -/

namespace Sys2Proof

/-- The capacities of rule R7. A 32-bit field keeps each at or below 0xFFFFFFFF, as R7 asks. -/
structure Config where
  /-- `NN`: records in the node memory. -/
  nn    : BitVec 32
  /-- `TS_CAP`: bytes in the tree-stream buffer. -/
  tsCap : BitVec 32
  /-- `PL_CAP`: bytes in the payload buffer. -/
  plCap : BitVec 32
  /-- `SY_CAP`: entries in the symbol buffer. -/
  syCap : BitVec 32
  deriving DecidableEq, Repr

/-- The defaults of rule R7. -/
def Config.dhb1 : Config := { nn := 4096#32, tsCap := 16384#32, plCap := 65536#32, syCap := 65536#32 }

/-- The constraints of rule R7: every capacity is at least 1 (the upper bound is the field's width). -/
def Config.wf (c : Config) : Bool := c.nn ≠ 0#32 && c.tsCap ≠ 0#32 && c.plCap ≠ 0#32 && c.syCap ≠ 0#32

/-- The free value number `n` (log 4): what an undefined memory entry reads as (R44, U1), and what a register
holds after a fault (R47, U3). It has no body: nothing constrains it. -/
opaque Config.freeValue : Nat → BitVec 128

end Sys2Proof
end

