-- ==== Sys2Proof/Machine/State.lean ====
section
/-! DEFINITION. The state of the block as plain data: the registers and memories of 10_state.md, the scratch values
that tokens and payload bits act on, and the model's own fields (capacities, free-value counter, the host's accesses
and what they answered). -/

namespace Sys2Proof.Machine

/-- A memory of the block: its defined entries (R44) by index, in rising order. -/
abbrev Memory (α : Type) := List (Nat × α)

/-- `kind` of a node record (R40, R116). -/
inductive NodeKind where
  | leaf
  | internal
  deriving DecidableEq, Repr

/-- A node record (R40, R116). -/
structure NodeRec where
  kind  : NodeKind
  sym   : Sym
  left  : Idx
  right : Idx
  deriving DecidableEq, Repr

/-- The four memories (R60). -/
inductive Space where
  | nm
  | tsb
  | plb
  | syb
  deriving DecidableEq, Repr

/-- The twelve causes of a fault (R281). -/
inductive Cause where
  | cmdIllegal
  | codeInvalid
  | bufOverflow
  | treeNoTerm
  | utf8Malformed
  | nodeOverflow
  | treeShort
  | treeTrailing
  | treeMalformed
  | payloadTrunc
  | symReserved
  | symInvalid
  deriving DecidableEq, Repr

/-- The scratch state of a command that reads a stream of tokens or bits (R45). Between commands there is none. -/
inductive Activity where
  /-- No such command is in flight. -/
  | idle
  /-- TDES phase 1 (R153): byte position and tokens stored so far. -/
  | tokenising (p ntok : Nat)
  /-- UNPACK's walk (R201): T, the cursor, the payload byte in hand and how many of its bits are not yet taken. -/
  | walking (t : Operand) (cur : Idx) (byte : Byte) (unread : Nat)
  deriving DecidableEq, Repr

/-- One access of the host (R234 to R237), or the hardware reset input (R320). -/
inductive HostAction where
  /-- `CsrRead(n)` (R234). -/
  | csrRead (n : Nat)
  /-- `CsrWrite(n, v)` (R235); a write of register 0, CMD, starts a command (R24). -/
  | csrWrite (n : Nat) (v : Operand)
  /-- `MemRead(space, i)` (R236). -/
  | memRead (sp : Space) (i : Nat)
  /-- `MemWrite(NM, i, rec)` (R237). -/
  | writeNode (i : Nat) (r : NodeRec)
  /-- `MemWrite(TSB, i, b)` (R237). -/
  | writeTsb (i : Nat) (b : Byte)
  /-- `MemWrite(PLB, i, b)` (R237). -/
  | writePlb (i : Nat) (b : Byte)
  /-- `MemWrite(SYB, i, s)`, which is ignored (R237). -/
  | writeSyb (i : Nat) (x : Sym)
  /-- The hardware reset input (R320). -/
  | hwReset
  deriving DecidableEq, Repr

/-- What one read of the host answered. -/
inductive HostReply where
  | csr (v : Operand)
  | node (r : NodeRec)
  | byte (b : Byte)
  | sym (x : Sym)
  deriving DecidableEq, Repr

/-- The machine stops. -/
inductive Fault where
  /-- A unit formed an index at or above a capacity. R67 says none ever does: raised by the units' memory accesses,
  and only in states that no run reaches. Safe. -/
  | indexOutOfRange (sp : Space)
  deriving DecidableEq, Repr

/-- The step has no meaning. -/
inductive Refusal where
  /-- An arm of `exec` that has no meaning yet; no arm of this model answers so. Safe. -/
  | notModelled (mnemonic : String)
  /-- A host access other than a read of STATUS while BUSY = 1, a command among them, which the spec gives no
  meaning (R326, U2). Raised by the host accesses and by every command. Safe. -/
  | hostWhileBusy
  /-- A token with no TDES reading tokens, or a payload bit with no UNPACK holding one: a token or a bit is nothing
  outside its command (R100, R111). Raised by the token and bit meanings. Safe. -/
  | outsideStream
  /-- The terms `tokLeaf1 0` and `tokLeaf1 1`, which no byte encodes: 0x00 and 0x01 are END and INTERNAL (R106).
  Raised by the meaning of TOK_LEAF1. Safe. -/
  | illFormed
  deriving DecidableEq, Repr

/-- The whole state. -/
structure State where
  /-- STATUS: bit 0 BUSY, bit 1 FAULT (R25). -/
  status  : BitVec 2
  /-- CAUSE (R26). -/
  cause   : BitVec 8
  /-- INFO (R27). -/
  info    : BitVec 32
  /-- ARG (R28). -/
  arg     : Operand
  /-- ROOT (R29). -/
  root    : Idx
  /-- FREE (R30). -/
  free    : BitVec 3
  /-- TS_LEN (R31). -/
  tsLen   : Idx
  /-- TS_RPOS (R32). -/
  tsRpos  : Idx
  /-- PL_LEN (R33). -/
  plLen   : Idx
  /-- PL_RPOS (R34). -/
  plRpos  : Idx
  /-- SY_LEN (R35). -/
  syLen   : Idx
  /-- NODE_CNT (R36). -/
  nodeCnt : Idx
  /-- NM (R40). -/
  nm      : Memory NodeRec
  /-- TSB (R41). -/
  tsb     : Memory Byte
  /-- PLB (R42). -/
  plb     : Memory Byte
  /-- SYB (R43). -/
  syb     : Memory Sym
  /-- Scratch of the stream-reading commands (R45). -/
  act     : Activity
  /-- The capacities (R7); no step changes them (log 2). -/
  cfg     : Config
  /-- How many free values have been drawn (log 4). -/
  draws   : Nat
  /-- The host's accesses still to come (log 6). -/
  host    : List HostAction
  /-- What the host's reads have answered, newest first (log 6). -/
  seen    : List HostReply
  deriving DecidableEq, Repr

/-- The machine right after reset (R48, R321): no memory entry defined (R44), the default capacities (R7), and the
model's own fields as logs 4 and 6 name them. -/
def State.reset : State where
  status := 0b00#2
  cause := 0#8
  info := 0#32
  arg := 0#64
  root := Idx.none
  free := 0#3
  tsLen := 0#32
  tsRpos := 0#32
  plLen := 0#32
  plRpos := 0#32
  syLen := 0#32
  nodeCnt := 0#32
  nm := []
  tsb := []
  plb := []
  syb := []
  act := .idle
  cfg := Config.dhb1
  draws := 0
  host := []
  seen := []

end Sys2Proof.Machine
end

