-- ==== Sys2Proof/Machine/Flags.lean ====
section
/-! DEFINITION. The two flags of STATUS (10_state.md rules R25, R46): the block has no arithmetic flags. -/

namespace Sys2Proof.Machine

/-- `STATUS.BUSY`, bit 0 (R25). -/
def State.busy (s : State) : Bool := s.status.getLsbD 0

/-- `STATUS.FAULT`, bit 1 (R25). -/
def State.faulted (s : State) : Bool := s.status.getLsbD 1

/-- STATUS with BUSY set, from the write of CMD that starts a command (R25). -/
def statusBegun (st : BitVec 2) : BitVec 2 := st ||| 0b01#2

/-- STATUS with BUSY clear, when a command ends (R25). -/
def statusEnded (st : BitVec 2) : BitVec 2 := st &&& 0b10#2

/-- STATUS after fault entry: FAULT set, BUSY clear (R283). -/
def statusFaulted : BitVec 2 := 0b10#2

/-- A stream-reading command is in flight. -/
def State.inFlight (s : State) : Bool := s.act ≠ .idle

end Sys2Proof.Machine
end

