-- ==== Sys2Proof/Machine/Ops.lean ====
section
/-! DEFINITION. The shared operations: memory entries and free values, how a command runs, raises and ends, fault
entry (60_exceptions.md rule R283) and reset beside it (R285, R321). -/

namespace Sys2Proof.Machine

/-! Memories. -/

/-- The entry at an index, if it is defined (R44). -/
def Memory.read {α : Type} : Memory α → Nat → Option α
  | [], _ => none
  | (k, v) :: m, a => if k = a then some v else Memory.read m a

/-- The memory with the entry at an index written, and so defined (R44). -/
def Memory.write {α : Type} : Memory α → Nat → α → Memory α
  | [], a, v => [(a, v)]
  | (k, w) :: m, a, v =>
    if a < k then (a, v) :: (k, w) :: m
    else if a = k then (a, v) :: m
    else (k, w) :: Memory.write m a v

/-- Every index of the memory is at or above `lo` and below `cap`, and they rise strictly. -/
def Memory.wfFrom {α : Type} (cap : Nat) : Nat → Memory α → Bool
  | _, [] => true
  | lo, (k, _) :: m => lo ≤ k && k < cap && Memory.wfFrom cap (k + 1) m

/-- The canonical form of a memory of `cap` entries: strictly rising indices, all below `cap`. An entry is listed
exactly when it is defined, so no listed entry equals what an unlisted one reads as (log 3). -/
def Memory.wf {α : Type} (cap : Nat) (m : Memory α) : Bool := Memory.wfFrom cap 0 m

/-! How a command runs. -/

/-- The outcome of a step or of an instruction. -/
abbrev Answer := Host.Outcome State Fault Refusal

/-- A stretch of a command's pseudocode: it goes on with a value, raises a fault of the block, or the machine
stops. -/
inductive Run (α : Type) where
  /-- Go on. -/
  | ok (a : α) (s : State)
  /-- `raise c(info)` (R11, R283). -/
  | raise (c : Cause) (info : BitVec 32) (s : State)
  /-- The model stops. -/
  | stop (r : Fault)
  deriving DecidableEq, Repr

/-- One stretch after another: nothing after a raise runs (R283). -/
def Run.bind {α β : Type} : Run α → (α → State → Run β) → Run β
  | .ok a s, k => k a s
  | .raise c info s, _ => .raise c info s
  | .stop r, _ => .stop r

/-- One answer after another. -/
def andThen : Answer → (State → Answer) → Answer
  | .next s, k => k s
  | .fault r, _ => .fault r
  | .refused r, _ => .refused r

/-- Repeat `f` while a stream-reading command is in flight, at most `n + 1` times. The bounds the commands pass are
those of R340, so the command is over when the loop ends. -/
def drive (f : State → Answer) : Nat → State → Answer
  | 0, s => if s.inFlight then f s else .next s
  | n + 1, s => if s.inFlight then andThen (f s) (drive f n) else .next s

/-! Free values (log 4). -/

/-- One more free value is drawn. -/
def State.drawn (s : State) : State := { s with draws := s.draws + 1 }

/-- A node record of free bits. -/
def nodeOfBits (v : BitVec 128) : NodeRec where
  kind := if v.getLsbD 0 then .internal else .leaf
  sym := v.extractLsb' 1 21
  left := v.extractLsb' 22 32
  right := v.extractLsb' 54 32

/-- A read of an entry: its value where it is defined, else a fresh free value (R44, U1). -/
def State.readEntry {α : Type} (s : State) (entry : Option α) (ofBits : BitVec 128 → α) : α × State :=
  match entry with
  | some a => (a, s)
  | none => (ofBits (Config.freeValue s.draws), s.drawn)

/-! The units' accesses, one whole entry each (R68). An index at or above the capacity stops the model: R67 says no
unit forms one. -/

/-- Read `NM[n]`. -/
def readNm (n : Nat) (s : State) : Run NodeRec :=
  if n < s.cfg.nn.toNat then
    let r := s.readEntry (s.nm.read n) nodeOfBits
    .ok r.1 r.2
  else .stop (.indexOutOfRange .nm)

/-- Read `TSB[i]`. -/
def readTsb (i : Nat) (s : State) : Run Byte :=
  if i < s.cfg.tsCap.toNat then
    let r := s.readEntry (s.tsb.read i) (BitVec.setWidth 8)
    .ok r.1 r.2
  else .stop (.indexOutOfRange .tsb)

/-- Read `PLB[i]`. -/
def readPlb (i : Nat) (s : State) : Run Byte :=
  if i < s.cfg.plCap.toNat then
    let r := s.readEntry (s.plb.read i) (BitVec.setWidth 8)
    .ok r.1 r.2
  else .stop (.indexOutOfRange .plb)

/-- `NM[n] <- r`. -/
def writeNm (n : Nat) (r : NodeRec) (s : State) : Run Unit :=
  if n < s.cfg.nn.toNat then .ok () { s with nm := s.nm.write n r }
  else .stop (.indexOutOfRange .nm)

/-- `TSB[i] <- b`. -/
def writeTsb (i : Nat) (b : Byte) (s : State) : Run Unit :=
  if i < s.cfg.tsCap.toNat then .ok () { s with tsb := s.tsb.write i b }
  else .stop (.indexOutOfRange .tsb)

/-- `PLB[i] <- b`. -/
def writePlb (i : Nat) (b : Byte) (s : State) : Run Unit :=
  if i < s.cfg.plCap.toNat then .ok () { s with plb := s.plb.write i b }
  else .stop (.indexOutOfRange .plb)

/-- `SYB[i] <- x`. -/
def writeSyb (i : Nat) (x : Sym) (s : State) : Run Unit :=
  if i < s.cfg.syCap.toNat then .ok () { s with syb := s.syb.write i x }
  else .stop (.indexOutOfRange .syb)

/-! Fault entry and reset. -/

/-- The code of a cause in CAUSE (R281). -/
def Cause.code : Cause → BitVec 8
  | .cmdIllegal => 1#8
  | .codeInvalid => 2#8
  | .bufOverflow => 3#8
  | .treeNoTerm => 4#8
  | .utf8Malformed => 5#8
  | .nodeOverflow => 6#8
  | .treeShort => 7#8
  | .treeTrailing => 8#8
  | .treeMalformed => 9#8
  | .payloadTrunc => 10#8
  | .symReserved => 11#8
  | .symInvalid => 12#8

/-- Fault entry (R283): CAUSE, INFO and STATUS are written; every other register becomes a free value of its own
and every memory entry undefined (R47); the command's scratch is gone (R45). -/
def enterFault (c : Cause) (info : BitVec 32) (s : State) : State :=
  { s with
    status := statusFaulted
    cause := c.code
    info := info
    arg := (Config.freeValue s.draws).setWidth 64
    root := (Config.freeValue (s.draws + 1)).setWidth 32
    free := (Config.freeValue (s.draws + 2)).setWidth 3
    tsLen := (Config.freeValue (s.draws + 3)).setWidth 32
    tsRpos := (Config.freeValue (s.draws + 4)).setWidth 32
    plLen := (Config.freeValue (s.draws + 5)).setWidth 32
    plRpos := (Config.freeValue (s.draws + 6)).setWidth 32
    syLen := (Config.freeValue (s.draws + 7)).setWidth 32
    nodeCnt := (Config.freeValue (s.draws + 8)).setWidth 32
    draws := s.draws + 9
    nm := []
    tsb := []
    plb := []
    syb := []
    act := .idle }

/-- Reset, by the RESET command or the hardware input (R231, R320, R321): every register takes its reset value,
every memory entry is undefined and a command in flight is abandoned. The model's own fields stay: the capacities
are the block's parameters, the host's accesses the host's, and no free value is drawn twice (log 4). -/
def resetBlock (s : State) : State :=
  { State.reset with cfg := s.cfg, draws := s.draws, host := s.host, seen := s.seen }

/-- A raised fault enters the faulted state, which is a next state of the machine (R283). -/
def Run.finish : Run Unit → Answer
  | .ok _ s => .next s
  | .raise c info s => .next (enterFault c info s)
  | .stop r => .fault r

/-! Command acceptance (R233). -/

/-- BUSY is set when a command starts (R25). -/
def beginCommand (s : State) : State := { s with status := statusBegun s.status }

/-- `done`: BUSY is clear and the scratch is gone (R25, R45). -/
def endCommand (s : State) : State := { s with status := statusEnded s.status, act := .idle }

/-- A command other than RESET, by the state the block is in (R233): idle, it runs; faulted, it is ignored with no
change of any state; busy, the host must not start it (U2). -/
def whenIdle (s : State) (run : State → Answer) : Answer :=
  if s.faulted then .next s
  else if s.busy then .refused .hostWhileBusy
  else run s

/-- A command that runs in one stretch, from BUSY set to `done`. -/
def runCommand (body : State → Run Unit) (s : State) : Answer :=
  whenIdle s fun s => ((body (beginCommand s)).bind fun _ s => .ok () (endCommand s)).finish

end Sys2Proof.Machine
end

