-- ==== Sys2Proof/Machine/Operands.lean ====
section
/-! DEFINITION. The operand forms: the code word of PKPUT (30_encoding.md rules R95 to R97), the symbol ranges
the tree units check (R104, R106), and the bits of a payload byte (20_memory.md rule R63). -/

namespace Sys2Proof.Machine

/-- `BitLen` (R10): the 1-based position of the highest set bit. R10 does not define it on 0 and no rule evaluates
it there. -/
def bitLen (v : Operand) : Nat := Nat.log2 v.toNat + 1

/-- The code length: the data bits below the sentinel (R95). -/
def codeLength (code : Operand) : Nat := bitLen code - 1

/-- Data bit `i` of a code word: the branch taken at depth `i`, 1 for right (R97). -/
def codeBit (code : Operand) (i : Nat) : Bool := code.getLsbD i

/-- A Unicode scalar value: at most 0x10FFFF and no surrogate (R104). -/
def isScalar (s : Sym) : Bool := s.toNat ≤ 0x10FFFF && !(0xD800 ≤ s.toNat && s.toNat ≤ 0xDFFF)

/-- U+0000 and U+0001, which the tree stream cannot carry (R106). -/
def isReserved (s : Sym) : Bool := s.toNat = 0 || s.toNat = 1

/-- The next bit of a payload byte of which `unread` bits are not yet taken: bit 7 first (R63). -/
def payloadBit (byte : Byte) (unread : Nat) : Bool := byte.getLsbD (unread - 1)

/-- The byte with data bit `b` or-ed in at bit position `pos` (R182). -/
def orBit (byte : Byte) (pos : Nat) (b : Bool) : Byte := byte ||| (BitVec.setWidth 8 (BitVec.ofBool b) <<< pos)

/-- `INFO` of BufOverflow: which buffer is full (R281). -/
def bufferNumber : Space → BitVec 32
  | .tsb => 1#32
  | .plb => 2#32
  | .syb => 3#32
  | .nm => 0#32

end Sys2Proof.Machine
end

