-- ==== Sys2Proof/Machine/Packer.lean ====
section
/-! DEFINITION. The bit packer, PKINIT and PKPUT (42_bit_packer.md). -/

namespace Sys2Proof.Machine

/-- PKINIT's pseudocode (R181): an empty payload with no free bits; PLB's bytes are not cleared. -/
def packInit (s : State) : Run Unit := .ok () { s with plLen := 0#32, free := 0#3 }

/-- Make room for one data bit and answer how many bits of the last byte are free, 1 to 8 (R182): with FREE = 0 a
zero byte is appended and 8 bits are free. -/
def openByte (s : State) : Run Nat :=
  if s.free = 0#3 then
    if s.cfg.plCap.toNat ≤ s.plLen.toNat then .raise .bufOverflow (bufferNumber .plb) s
    else
      (writePlb s.plLen.toNat 0x00#8 s).bind fun _ s =>
      .ok 8 { s with plLen := s.plLen + 1#32 }
  else .ok s.free.toNat s

/-- Store one data bit at bit position `room - 1` of the last byte (R182). FREE > 0 with no byte in PLB is no state
of the block (R39): the model stops there (log 16). -/
def placeBit (b : Bool) (room : Nat) (s : State) : Run Unit :=
  if s.plLen = 0#32 then .stop (.indexOutOfRange .plb)
  else
    (readPlb (s.plLen.toNat - 1) s).bind fun byte s =>
    (writePlb (s.plLen.toNat - 1) (orBit byte (room - 1) b) s).bind fun _ s =>
    .ok () { s with free := BitVec.ofNat 3 (room - 1) }

/-- One turn of PKPUT's loop: one data bit. -/
def packBit (b : Bool) (s : State) : Run Unit :=
  (openByte s).bind fun room s => placeBit b room s

/-- Data bits `i`, `i + 1`, ... of a code word, `n` of them, least significant first (R64, R182). -/
def packBits (code : Operand) : Nat → Nat → State → Run Unit
  | 0, _, s => .ok () s
  | n + 1, i, s => (packBit (codeBit code i) s).bind fun _ s => packBits code n (i + 1) s

/-- PKPUT's pseudocode (R182). -/
def packCode (s : State) : Run Unit :=
  if s.arg = 0#64 then .raise .codeInvalid 0#32 s
  else packBits s.arg (codeLength s.arg) 0 s

/-- PKINIT (R181). -/
def execPkinit (s : State) : Answer := runCommand packInit s

/-- PKPUT (R182). -/
def execPkput (s : State) : Answer := runCommand packCode s

end Sys2Proof.Machine
end

