-- ==== Sys2Proof/Syntax.lean ====
section
/-! DEFINITION. The instructions: one constructor per row of spec/opcode_table.json. The block decodes three
streams (30_encoding.md): commands from the host (R91), tokens of the tree stream (R100) and bits of the
payload (R111). -/

namespace Sys2Proof

/-- Every row of the opcode table. A leaf token carries the symbol's bits, as many as its form holds (R103). -/
inductive Instr where
  /-- NOP, opcode 0x00 (R230). -/
  | nop
  /-- RESET, opcode 0x01 (R231). -/
  | reset
  /-- PKINIT, opcode 0x10 (R181). -/
  | pkinit
  /-- PKPUT, opcode 0x11 (R182). -/
  | pkput
  /-- UNPACK, opcode 0x20 (R201). -/
  | unpack
  /-- TSER, opcode 0x30 (R132). -/
  | tser
  /-- TEND, opcode 0x31 (R133). -/
  | tend
  /-- TDES, opcode 0x40 (R153). -/
  | tdes
  /-- TOK_END, byte 0x00 (R101). -/
  | tokEnd
  /-- TOK_INTERNAL, byte 0x01 (R102). -/
  | tokInternal
  /-- TOK_LEAF1, one byte, 7 symbol bits (R103). -/
  | tokLeaf1 (x : BitVec 7)
  /-- TOK_LEAF2, two bytes, 11 symbol bits (R103). -/
  | tokLeaf2 (x : BitVec 11)
  /-- TOK_LEAF3, three bytes, 16 symbol bits (R103). -/
  | tokLeaf3 (x : BitVec 16)
  /-- TOK_LEAF4, four bytes, 21 symbol bits (R103). -/
  | tokLeaf4 (x : BitVec 21)
  /-- BIT_LEFT, payload bit 0 (R111, R202). -/
  | bitLeft
  /-- BIT_RIGHT, payload bit 1 (R111, R202). -/
  | bitRight
  deriving DecidableEq, Repr

end Sys2Proof
end

