-- ==== Sys2Proof/WellFormed.lean ====
section
/-! DEFINITION. Which terms of `Instr` are instructions of the block: a leaf token carries a symbol of its own
form's range (30_encoding.md rules R103, R105, R106). -/

namespace Sys2Proof

/-- The instruction is one the block has: every command, END, INTERNAL and payload bit; a leaf token whose symbol
is in its form's range (R103), the shortest form that holds it (R105). -/
def Instr.wellFormed : Instr → Bool
  | .tokLeaf1 x => 0x02 ≤ x.toNat
  | .tokLeaf2 x => 0x80 ≤ x.toNat
  | .tokLeaf3 x => 0x800 ≤ x.toNat && !(0xD800 ≤ x.toNat && x.toNat ≤ 0xDFFF)
  | .tokLeaf4 x => 0x10000 ≤ x.toNat && x.toNat ≤ 0x10FFFF
  | .nop | .reset | .pkinit | .pkput | .unpack | .tser | .tend | .tdes
  | .tokEnd | .tokInternal | .bitLeft | .bitRight => true

end Sys2Proof
end

