-- ==== Sys2Proof/Decode.lean ====
section
/-! DEFINITION. Decoding of the block's three streams, total on any bits and rejecting by name, and after it the
encoder, both from 30_encoding.md (commands R90, R91, R93; tokens R101 to R105, R107, R108; payload bits R111). -/

namespace Sys2Proof

/-- Why a stream's bits are no instruction. -/
inductive Reject where
  /-- A command opcode outside the table of R91 (R93: the block raises CmdIllegal). -/
  | illegalOpcode
  /-- The token stream holds no byte. -/
  | noByte
  /-- A first byte that begins no token: 0x80 to 0xC1 and 0xF5 to 0xFF (R107). -/
  | badLead
  /-- A byte of a token that is no continuation byte 10xxxxxx (R105). -/
  | badContinuation
  /-- The bytes end inside a token (R105). -/
  | truncated
  /-- Bytes stand after the one token asked for. -/
  | trailing
  deriving DecidableEq, Repr

/-- The opcode map (R91). -/
def decodeCommand (b : Byte) : Except Reject Instr :=
  if b = 0x00#8 then .ok .nop
  else if b = 0x01#8 then .ok .reset
  else if b = 0x10#8 then .ok .pkinit
  else if b = 0x11#8 then .ok .pkput
  else if b = 0x20#8 then .ok .unpack
  else if b = 0x30#8 then .ok .tser
  else if b = 0x31#8 then .ok .tend
  else if b = 0x40#8 then .ok .tdes
  else .error .illegalOpcode

/-- How many bytes follow a token's first byte, told by that byte alone (R108); none where the byte begins no
token (R107). -/
def contCount (b0 : Byte) : Option Nat :=
  if b0.toNat ≤ 0x7F then some 0
  else if 0xC2 ≤ b0.toNat && b0.toNat ≤ 0xDF then some 1
  else if 0xE0 ≤ b0.toNat && b0.toNat ≤ 0xEF then some 2
  else if 0xF0 ≤ b0.toNat && b0.toNat ≤ 0xF4 then some 3
  else none

/-- A continuation byte, `10xxxxxx` (R105). -/
def isCont (b : Byte) : Bool := b.extractLsb' 6 2 = 0b10#2

/-- The six symbol bits of a continuation byte (R105). -/
def contBits (b : Byte) : BitVec 6 := b.extractLsb' 0 6

/-- The first `n` of the bytes, all of them continuation bytes, and the bytes after them; else why not, whichever
R105's loop meets first. -/
def takeConts : Nat → List Byte → Except Reject (List Byte × List Byte)
  | 0, bs => .ok ([], bs)
  | _ + 1, [] => .error .truncated
  | n + 1, b :: bs =>
    if isCont b then
      match takeConts n bs with
      | .ok (cs, rest) => .ok (b :: cs, rest)
      | .error e => .error e
    else .error .badContinuation

/-- The leaf token of a first byte and its continuation bytes: the symbol bits joined most significant first
(R103, R105). -/
def leafOfBytes (b0 : Byte) : List Byte → Option Instr
  | [] => some (.tokLeaf1 (b0.extractLsb' 0 7))
  | [b1] => some (.tokLeaf2 (b0.extractLsb' 0 5 ++ contBits b1))
  | [b1, b2] => some (.tokLeaf3 (b0.extractLsb' 0 4 ++ contBits b1 ++ contBits b2))
  | [b1, b2, b3] => some (.tokLeaf4 (b0.extractLsb' 0 3 ++ contBits b1 ++ contBits b2 ++ contBits b3))
  | _ :: _ :: _ :: _ :: _ => none

/-- One token from the front of the bytes and the bytes after it. 0x00 and 0x01 are taken as END and INTERNAL
before the leaf forms (R101, R102, R103). Range checks on the symbol are the token's meaning (R105). -/
def decodeToken : List Byte → Except Reject (Instr × List Byte)
  | [] => .error .noByte
  | b0 :: bs =>
    if b0 = 0x00#8 then .ok (.tokEnd, bs)
    else if b0 = 0x01#8 then .ok (.tokInternal, bs)
    else
      match contCount b0 with
      | none => .error .badLead
      | some n =>
        match takeConts n bs with
        | .error e => .error e
        | .ok (cs, rest) =>
          match leafOfBytes b0 cs with
          | some i => .ok (i, rest)
          | none => .error .badLead

/-- One payload bit (R111). -/
def decodeBit (b : Bool) : Instr := if b then .bitRight else .bitLeft

/-- The words of one instruction, with the stream they stand in: the same bits mean different instructions in
different streams (opcode_table.json's formats CMD8, TOKEN, PBIT). -/
inductive Code where
  /-- An opcode written to CMD. -/
  | command (b : Byte)
  /-- Bytes of the tree stream, first byte first. -/
  | token (bs : List Byte)
  /-- One bit of the payload. -/
  | bit (b : Bool)
  deriving DecidableEq, Repr

/-- The instruction whose words these are. -/
def decode : Code → Except Reject Instr
  | .command b => decodeCommand b
  | .bit b => .ok (decodeBit b)
  | .token bs =>
    match decodeToken bs with
    | .ok (i, []) => .ok i
    | .ok (_, _ :: _) => .error .trailing
    | .error e => .error e

/-- The low `8 * n` bits of `w` as `n` bytes, the most significant first: the table's numbering of a token row puts
the first byte of the stream in the high part of the number (log 8). -/
def tableBytes : Nat → Nat → List Byte
  | 0, _ => []
  | n + 1, w => BitVec.ofNat 8 (w >>> (8 * n)) :: tableBytes n w

/-- The bytes of a table word of more than one byte, first byte of the stream first. The table puts that byte in the
high part of the number; a word that is no token so, and is one with its first byte in the low part, is read that way
(log 8): a token's last byte is a continuation byte, which begins no token, so no word is a token both ways. -/
def tokenBytes (n w : Nat) : List Byte :=
  match decode (.token (tableBytes n w)), decode (.token (tableBytes n w).reverse) with
  | .error _, .ok _ => (tableBytes n w).reverse
  | _, _ => tableBytes n w

/-- The stream a table word is read in. One payload bit where the row has less than a byte; a word of one byte is a
command where R91 gives it one, else a token; a longer word is a token (log 7). -/
def tableCode (nbits w : Nat) : Code :=
  if nbits < 8 then .bit (w % 2 == 1)
  else if nbits = 8 then
    match decodeCommand (BitVec.ofNat 8 w) with
    | .ok _ => .command (BitVec.ofNat 8 w)
    | .error _ => .token [BitVec.ofNat 8 w]
  else .token (tokenBytes ((nbits + 7) / 8) w)

/-- The instruction the decoder reads from a word of spec/opcode_table.json, in the table's own numbering. -/
def decodeTableWord (nbits w : Nat) : Option Instr :=
  match decode (tableCode nbits w) with
  | .ok i => some i
  | .error _ => none

/-! The encoder. -/

/-- A continuation byte holding six symbol bits (R104). -/
def contByte (x : BitVec 6) : Byte := 0b10#2 ++ x

/-- The words of an instruction (R91, R101 to R104, R111). -/
def encode : Instr → Code
  | .nop => .command 0x00#8
  | .reset => .command 0x01#8
  | .pkinit => .command 0x10#8
  | .pkput => .command 0x11#8
  | .unpack => .command 0x20#8
  | .tser => .command 0x30#8
  | .tend => .command 0x31#8
  | .tdes => .command 0x40#8
  | .tokEnd => .token [0x00#8]
  | .tokInternal => .token [0x01#8]
  | .tokLeaf1 x => .token [0b0#1 ++ x]
  | .tokLeaf2 x => .token [0b110#3 ++ x.extractLsb' 6 5, contByte (x.extractLsb' 0 6)]
  | .tokLeaf3 x =>
    .token [0b1110#4 ++ x.extractLsb' 12 4, contByte (x.extractLsb' 6 6), contByte (x.extractLsb' 0 6)]
  | .tokLeaf4 x =>
    .token [0b11110#5 ++ x.extractLsb' 18 3, contByte (x.extractLsb' 12 6), contByte (x.extractLsb' 6 6),
      contByte (x.extractLsb' 0 6)]
  | .bitLeft => .bit false
  | .bitRight => .bit true

/-- The bytes of an instruction that stands in a byte stream; none for a payload bit. -/
def Code.bytes : Code → List Byte
  | .command b => [b]
  | .token bs => bs
  | .bit _ => []

/-- The leaf token of a symbol, in the shortest form that holds it (R103, R104). -/
def leafToken (s : Sym) : Instr :=
  if s.toNat ≤ 0x7F then .tokLeaf1 (s.extractLsb' 0 7)
  else if s.toNat ≤ 0x7FF then .tokLeaf2 (s.extractLsb' 0 11)
  else if s.toNat ≤ 0xFFFF then .tokLeaf3 (s.extractLsb' 0 16)
  else .tokLeaf4 s

/-- The bytes a token takes (R103, R108); 0 for an instruction that is no token. -/
def tokenLen : Instr → Nat
  | .tokEnd | .tokInternal | .tokLeaf1 _ => 1
  | .tokLeaf2 _ => 2
  | .tokLeaf3 _ => 3
  | .tokLeaf4 _ => 4
  | .nop | .reset | .pkinit | .pkput | .unpack | .tser | .tend | .tdes | .bitLeft | .bitRight => 0

/-- The symbol a leaf token stands for (R103); none for the other instructions. -/
def leafSym : Instr → Option Sym
  | .tokLeaf1 x => some (x.setWidth 21)
  | .tokLeaf2 x => some (x.setWidth 21)
  | .tokLeaf3 x => some (x.setWidth 21)
  | .tokLeaf4 x => some x
  | .nop | .reset | .pkinit | .pkput | .unpack | .tser | .tend | .tdes
  | .tokEnd | .tokInternal | .bitLeft | .bitRight => none

/-- `Utf8Enc` (R104). -/
def utf8Enc (s : Sym) : List Byte := (encode (leafToken s)).bytes

end Sys2Proof
end

