-- ==== Sys2Proof/Machine/Serializer.lean ====
section
/-! DEFINITION. The tree serializer, TSER and TEND (40_tree_serializer.md). -/

namespace Sys2Proof.Machine

/-- Append one byte to TSB: `TSB[TS_LEN] <- b; TS_LEN <- TS_LEN + 1`. -/
def appendTsb (b : Byte) (s : State) : Run Unit :=
  (writeTsb s.tsLen.toNat b s).bind fun _ s => .ok () { s with tsLen := s.tsLen + 1#32 }

/-- Append bytes to TSB in order. -/
def appendAll : List Byte → State → Run Unit
  | [], s => .ok () s
  | b :: bs, s => (appendTsb b s).bind fun _ s => appendAll bs s

/-- Append a token whole, or raise BufOverflow(1) where it does not fit (R132, R133). -/
def emitToken (bs : List Byte) (s : State) : Run Unit :=
  if s.cfg.tsCap.toNat < s.tsLen.toNat + bs.length then .raise .bufOverflow (bufferNumber .tsb) s
  else appendAll bs s

/-- A leaf at node `n` (R132): the reserved and the invalid symbols fault, any other is emitted in UTF-8. -/
def emitLeaf (n : Idx) (x : Sym) (s : State) : Run Unit :=
  if isReserved x then .raise .symReserved n s
  else if !isScalar x then .raise .symInvalid n s
  else emitToken (utf8Enc x) s

/-- TSER's loop over the stack of node indices still to visit, `budget` being NN less the visits made (R132): a node
popped when no visit is left would be visit NN + 1. -/
def serialize : Nat → List Idx → State → Run Unit
  | _, [], s => .ok () s
  | 0, n :: _, s => .raise .treeMalformed n s
  | budget + 1, n :: stack, s =>
    if s.cfg.nn.toNat ≤ n.toNat then .raise .treeMalformed n s
    else
      (readNm n.toNat s).bind fun r s =>
      match r.kind with
      | .leaf => (emitLeaf n r.sym s).bind fun _ s => serialize budget stack s
      | .internal => (emitToken [0x01#8] s).bind fun _ s => serialize budget (r.left :: r.right :: stack) s

/-- TSER's pseudocode (R132): the empty tree pushes nothing. -/
def serializeTree (s : State) : Run Unit :=
  serialize s.cfg.nn.toNat (if s.root = Idx.none then [] else [s.root]) { s with tsLen := 0#32 }

/-- TSER (R132). -/
def execTser (s : State) : Answer := runCommand serializeTree s

/-- TEND (R133): append the terminator where TS_LEN stands. -/
def execTend (s : State) : Answer := runCommand (emitToken [0x00#8]) s

end Sys2Proof.Machine
end

