-- ==== Sys2Proof/Machine/System.lean ====
section
/-! DEFINITION. The system commands NOP and RESET, and an opcode outside the map (44_system_commands.md rules R230
to R232). -/

namespace Sys2Proof.Machine

/-- NOP (R230). -/
def execNop (s : State) : Answer := runCommand (fun s => .ok () s) s

/-- RESET (R231): accepted idle and faulted (R233); it cannot be issued while a command runs (U2). -/
def execReset (s : State) : Answer :=
  if s.busy && !s.faulted then .refused .hostWhileBusy else .next (resetBlock s)

/-- A write to CMD of an opcode outside the map raises CmdIllegal with the opcode in INFO (R93, R232); in the
faulted state it is ignored. -/
def illegalOpcode (b : Byte) (s : State) : Answer :=
  whenIdle s fun s => .next (enterFault .cmdIllegal (b.setWidth 32) s)

end Sys2Proof.Machine
end

