-- ==== Sys2Proof/Machine/Tokens.lean ====
section
/-! DEFINITION. The six tokens of the tree stream, as TDES executes them (30_encoding.md rules R100 to R105,
41_tree_deserializer.md rules R151 to R153). A token acts on the scratch of a TDES in phase 1. -/

namespace Sys2Proof.Machine

/-- Run a token at byte position `p` with `ntok` tokens stored. Outside TDES phase 1 a token is nothing (log 9). -/
def inTokens (body : Nat → Nat → State → Run Unit) (s : State) : Answer :=
  match s.act with
  | .tokenising p ntok => (body p ntok s).finish
  | .idle => .refused .outsideStream
  | .walking _ _ _ _ => .refused .outsideStream

/-- Token number `ntok` becomes node record `NM[ntok]` and `len` bytes are consumed (R151, R153); with NN tokens
stored already it raises NodeOverflow at its first byte. -/
def storeToken (r : NodeRec) (len p ntok : Nat) (s : State) : Run Unit :=
  if s.cfg.nn.toNat ≤ ntok then .raise .nodeOverflow (BitVec.ofNat 32 p) s
  else
    (writeNm ntok r s).bind fun _ s => .ok () { s with act := .tokenising (p + len) (ntok + 1) }

/-- The record of an internal token: both children still NONE (R151). -/
def internalRec : NodeRec := { kind := .internal, sym := 0#21, left := Idx.none, right := Idx.none }

/-- The record of a leaf token (R153). -/
def leafRec (x : Sym) : NodeRec := { kind := .leaf, sym := x, left := Idx.none, right := Idx.none }

/-- A leaf token of `len` bytes whose symbol is in its form's range, or Utf8Malformed at its first byte (R105);
NodeOverflow comes first (R286). -/
def storeLeaf (ok : Bool) (x : Sym) (len p ntok : Nat) (s : State) : Run Unit :=
  if s.cfg.nn.toNat ≤ ntok then .raise .nodeOverflow (BitVec.ofNat 32 p) s
  else if ok then storeToken (leafRec x) len p ntok s
  else .raise .utf8Malformed (BitVec.ofNat 32 p) s

/-- `Rebuild()` (R152): the subtree of token `next`, its root index and the next unconsumed token. `fuel` bounds the
depth; `ntok - next + 1` is enough, since every level below consumes a token. -/
def rebuild (ntok : Nat) : Nat → Nat → State → Run (Nat × Nat)
  | 0, _, s => .raise .treeShort (BitVec.ofNat 32 ntok) s
  | fuel + 1, next, s =>
    if ntok ≤ next then .raise .treeShort (BitVec.ofNat 32 ntok) s
    else
      (readNm next s).bind fun r s =>
      match r.kind with
      | .leaf => .ok (next, next + 1) s
      | .internal =>
        (rebuild ntok fuel (next + 1) s).bind fun l s =>
        (rebuild ntok fuel l.2 s).bind fun r s =>
        (writeNm next
          { kind := .internal, sym := 0#21, left := BitVec.ofNat 32 l.1, right := BitVec.ofNat 32 r.1 } s).bind
          fun _ s => .ok (next, r.2) s

/-- Phase 2 (R153): the root of the rebuilt tree, NONE for the empty tree (R158), TreeTrailing where tokens are left
over. -/
def rebuildTree (ntok : Nat) (s : State) : Run Idx :=
  if ntok = 0 then .ok Idx.none s
  else
    (rebuild ntok (ntok + 1) 0 s).bind fun t s =>
    if t.2 = ntok then .ok (BitVec.ofNat 32 t.1) s
    else .raise .treeTrailing (BitVec.ofNat 32 t.2) s

/-- END (R101, R153): phase 1 is over; phase 2 runs and TDES ends. -/
def finishTree (p ntok : Nat) (s : State) : Run Unit :=
  (rebuildTree ntok s).bind fun root s =>
  .ok () (endCommand
    { s with root := root, tsRpos := BitVec.ofNat 32 (p + 1), nodeCnt := BitVec.ofNat 32 ntok })

/-- TOK_END, byte 0x00 (R101). -/
def execTokEnd (s : State) : Answer := inTokens finishTree s

/-- TOK_INTERNAL, byte 0x01 (R102). -/
def execTokInternal (s : State) : Answer := inTokens (storeToken internalRec 1) s

/-- TOK_LEAF1 (R103): U+0002 to U+007F. -/
def execTokLeaf1 (x : BitVec 7) (s : State) : Answer :=
  if x.toNat < 0x02 then .refused .illFormed else inTokens (storeLeaf true (x.setWidth 21) 1) s

/-- TOK_LEAF2 (R103): U+0080 to U+07FF; below, the first byte is 0xC0 or 0xC1 (R107). -/
def execTokLeaf2 (x : BitVec 11) (s : State) : Answer :=
  inTokens (storeLeaf (0x80 ≤ x.toNat) (x.setWidth 21) 2) s

/-- TOK_LEAF3 (R103, R105): U+0800 to U+FFFF without the surrogates. -/
def execTokLeaf3 (x : BitVec 16) (s : State) : Answer :=
  inTokens (storeLeaf (0x800 ≤ x.toNat && isScalar (x.setWidth 21)) (x.setWidth 21) 3) s

/-- TOK_LEAF4 (R103, R105): U+10000 to U+10FFFF. -/
def execTokLeaf4 (x : BitVec 21) (s : State) : Answer :=
  inTokens (storeLeaf (0x10000 ≤ x.toNat && isScalar x) x 4) s

end Sys2Proof.Machine
end

