-- ==== Sys2Proof/Machine/Deserializer.lean ====
section
/-! DEFINITION. The tree deserializer, TDES (41_tree_deserializer.md): fetching a token from TSB, running it, and the
command that does so to the end of the stream. -/

namespace Sys2Proof.Machine

/-- Up to `n` bytes of TSB from index `q`, all below TS_LEN, stopping after the first that is no continuation byte:
the bytes `Utf8Dec`'s loop reads (R105). -/
def readConts : Nat → Nat → State → Run (List Byte)
  | 0, _, s => .ok [] s
  | n + 1, q, s =>
    if s.tsLen.toNat ≤ q then .ok [] s
    else
      (readTsb q s).bind fun b s =>
      if isCont b then (readConts n (q + 1) s).bind fun bs s => .ok (b :: bs) s
      else .ok [b] s

/-- What a token the decoder rejects raises (R105): TreeNoTerm where the valid bytes end, else Utf8Malformed at the
token's first byte. -/
def rejectToken (e : Reject) (p : Nat) (s : State) : Run Instr :=
  match e with
  | .noByte | .truncated => .raise .treeNoTerm s.tsLen s
  | .badLead | .badContinuation | .trailing | .illegalOpcode => .raise .utf8Malformed (BitVec.ofNat 32 p) s

/-- Fetch the token at byte position `p` (R153, R105). The first byte is read once (log 13). With NN tokens stored
any token but END raises NodeOverflow before its other bytes are looked at (R286). -/
def fetchToken (p ntok : Nat) (s : State) : Run Instr :=
  if s.tsLen.toNat ≤ p then .raise .treeNoTerm (BitVec.ofNat 32 p) s
  else
    (readTsb p s).bind fun b0 s =>
    if b0 ≠ 0x00#8 ∧ s.cfg.nn.toNat ≤ ntok then .raise .nodeOverflow (BitVec.ofNat 32 p) s
    else
      (readConts ((contCount b0).getD 0) (p + 1) s).bind fun bs s =>
      match decodeToken (b0 :: bs) with
      | .ok (i, _) => .ok i s
      | .error e => rejectToken e p s

/-- The meaning of a token; the decoder of the token stream gives no other instruction. -/
def runToken (i : Instr) (s : State) : Answer :=
  match i with
  | .tokEnd => execTokEnd s
  | .tokInternal => execTokInternal s
  | .tokLeaf1 x => execTokLeaf1 x s
  | .tokLeaf2 x => execTokLeaf2 x s
  | .tokLeaf3 x => execTokLeaf3 x s
  | .tokLeaf4 x => execTokLeaf4 x s
  | .nop | .reset | .pkinit | .pkput | .unpack | .tser | .tend | .tdes | .bitLeft | .bitRight =>
    .refused .outsideStream

/-- Run what was fetched; a fetch that raises enters the faulted state. -/
def runFetched (run : Instr → State → Answer) : Run Instr → Answer
  | .ok i s => run i s
  | .raise c info s => .next (enterFault c info s)
  | .stop r => .fault r

/-- One token of a TDES in flight: fetch it and run it. -/
def tokenStep (s : State) : Answer :=
  match s.act with
  | .tokenising p ntok => runFetched runToken (fetchToken p ntok s)
  | .idle => .refused .outsideStream
  | .walking _ _ _ _ => .refused .outsideStream

/-- TDES (R153): tokens from TSB[0] until END or a fault. Every token takes at least one of the TS_LEN bytes. -/
def execTdes (s : State) : Answer :=
  whenIdle s fun s => drive tokenStep s.tsLen.toNat { beginCommand s with act := .tokenising 0 0 }

end Sys2Proof.Machine
end

