-- ==== Sys2Proof/Machine/Unpacker.lean ====
section
/-! DEFINITION. The bit unpacker, UNPACK, and the two payload bits it executes (43_bit_unpacker.md). -/

namespace Sys2Proof.Machine

/-- Emit a symbol: `SYB[SY_LEN] <- x; SY_LEN <- SY_LEN + 1` (R201). -/
def emitSym (x : Sym) (s : State) : Run Unit :=
  (writeSyb s.syLen.toNat x s).bind fun _ s => .ok () { s with syLen := s.syLen + 1#32 }

/-- The degenerate tree (R203): the root leaf's symbol, `n` times; no payload is read. -/
def emitRoot : Nat → State → Run Unit
  | 0, s => .ok () s
  | n + 1, s =>
    (readNm s.root.toNat s).bind fun r s =>
    (emitSym r.sym s).bind fun _ s => emitRoot n s

/-- The child a payload bit selects: 0 the left, 1 the right (R111, R202). -/
def childOf (right : Bool) (r : NodeRec) : Idx := if right then r.right else r.left

/-- One payload bit with the cursor at `cur` (R202): the chosen child becomes the cursor; at a leaf its symbol is
emitted, and the cursor returns to ROOT or, after the T-th symbol, UNPACK ends. -/
def walkTo (right : Bool) (t : Operand) (cur : Idx) (byte : Byte) (unread : Nat) (s : State) : Run Unit :=
  (readNm cur.toNat s).bind fun r s =>
  if s.cfg.nn.toNat ≤ (childOf right r).toNat then .raise .treeMalformed cur s
  else
    (readNm (childOf right r).toNat s).bind fun rc s =>
    match rc.kind with
    | .internal => .ok () { s with act := .walking t (childOf right r) byte unread }
    | .leaf =>
      (emitSym rc.sym s).bind fun _ s =>
      if s.syLen.toNat = t.toNat then .ok () (endCommand s)
      else .ok () { s with act := .walking t s.root byte unread }

/-- Run a payload bit, the next unread bit of the byte in hand. With no such bit a payload bit is nothing (log 9). -/
def inWalk (right : Bool) (s : State) : Answer :=
  match s.act with
  | .walking t cur byte (unread + 1) => (walkTo right t cur byte unread s).finish
  | .walking _ _ _ 0 => .refused .outsideStream
  | .idle => .refused .outsideStream
  | .tokenising _ _ => .refused .outsideStream

/-- BIT_LEFT, payload bit 0 (R202). -/
def execBitLeft (s : State) : Answer := inWalk false s

/-- BIT_RIGHT, payload bit 1 (R202). -/
def execBitRight (s : State) : Answer := inWalk true s

/-- Fetch the next payload bit (R201): the next unread bit of the byte in hand, most significant first, after reading
the next payload byte where none is left; PayloadTrunc where the payload ends. -/
def fetchBit (t : Operand) (cur : Idx) (byte : Byte) (unread : Nat) (s : State) : Run Instr :=
  if unread = 0 then
    if s.plLen.toNat ≤ s.plRpos.toNat then .raise .payloadTrunc s.syLen s
    else
      (readPlb s.plRpos.toNat s).bind fun b s =>
      .ok (decodeBit (payloadBit b 8)) { s with plRpos := s.plRpos + 1#32, act := .walking t cur b 8 }
  else .ok (decodeBit (payloadBit byte unread)) s

/-- The meaning of a payload bit; the decoder of the payload gives no other instruction. -/
def runBit (i : Instr) (s : State) : Answer :=
  match i with
  | .bitLeft => execBitLeft s
  | .bitRight => execBitRight s
  | .nop | .reset | .pkinit | .pkput | .unpack | .tser | .tend | .tdes
  | .tokEnd | .tokInternal | .tokLeaf1 _ | .tokLeaf2 _ | .tokLeaf3 _ | .tokLeaf4 _ => .refused .outsideStream

/-- One payload bit of an UNPACK in flight: fetch it and run it. -/
def bitStep (s : State) : Answer :=
  match s.act with
  | .walking t cur byte unread => runFetched runBit (fetchBit t cur byte unread s)
  | .idle => .refused .outsideStream
  | .tokenising _ _ => .refused .outsideStream

/-- UNPACK up to its first payload bit (R201): T = 0 ends at once; then the output's capacity, the root, and the
degenerate tree; else the walk starts with the cursor at ROOT and no byte in hand. -/
def startUnpack (s : State) : Run Unit :=
  let s := { s with syLen := 0#32, plRpos := 0#32 }
  if s.arg = 0#64 then .ok () (endCommand s)
  else if s.cfg.syCap.toNat < s.arg.toNat then .raise .bufOverflow (bufferNumber .syb) s
  else if s.cfg.nn.toNat ≤ s.root.toNat then .raise .treeMalformed s.root s
  else
    (readNm s.root.toNat s).bind fun r s =>
    match r.kind with
    | .leaf => (emitRoot s.arg.toNat s).bind fun _ s => .ok () (endCommand s)
    | .internal => .ok () { s with act := .walking s.arg s.root 0x00#8 0 }

/-- UNPACK (R201): payload bits until T symbols are out or a fault. The PL_LEN bytes hold 8 bits each. -/
def execUnpack (s : State) : Answer :=
  whenIdle s fun s => andThen (startUnpack (beginCommand s)).finish (drive bitStep (8 * s.plLen.toNat))

end Sys2Proof.Machine
end

