-- ==== Sys2Proof/Machine/Dispatch.lean ====
section
/-! DEFINITION. The meaning of every instruction, one arm per constructor. -/

namespace Sys2Proof.Machine

def exec (i : Instr) (s : State) : Host.Outcome State Fault Refusal :=
  match i with
  | .nop => Sys2Proof.Machine.execNop s
  | .reset => Sys2Proof.Machine.execReset s
  | .pkinit => Sys2Proof.Machine.execPkinit s
  | .pkput => Sys2Proof.Machine.execPkput s
  | .unpack => Sys2Proof.Machine.execUnpack s
  | .tser => Sys2Proof.Machine.execTser s
  | .tend => Sys2Proof.Machine.execTend s
  | .tdes => Sys2Proof.Machine.execTdes s
  | .tokEnd => Sys2Proof.Machine.execTokEnd s
  | .tokInternal => Sys2Proof.Machine.execTokInternal s
  | .tokLeaf1 x => Sys2Proof.Machine.execTokLeaf1 x s
  | .tokLeaf2 x => Sys2Proof.Machine.execTokLeaf2 x s
  | .tokLeaf3 x => Sys2Proof.Machine.execTokLeaf3 x s
  | .tokLeaf4 x => Sys2Proof.Machine.execTokLeaf4 x s
  | .bitLeft => Sys2Proof.Machine.execBitLeft s
  | .bitRight => Sys2Proof.Machine.execBitRight s

end Sys2Proof.Machine
end

