-- ==== Sys2Proof/Machine/HostPort.lean ====
section
/-! DEFINITION. The host interface (44_system_commands.md rules R233 to R237, 10_state.md rules R23 to R38): register
and memory accesses, the write of CMD that starts a command, and the hardware reset. -/

namespace Sys2Proof.Machine

/-- The value of register `n`, zero-extended (R23, R234): CMD and the numbers from 13 up read 0 (R37). -/
def csrValue (s : State) : Nat → Operand
  | 1 => s.status.setWidth 64
  | 2 => s.cause.setWidth 64
  | 3 => s.info.setWidth 64
  | 4 => s.arg
  | 5 => s.root.setWidth 64
  | 6 => s.free.setWidth 64
  | 7 => s.tsLen.setWidth 64
  | 8 => s.tsRpos.setWidth 64
  | 9 => s.plLen.setWidth 64
  | 10 => s.plRpos.setWidth 64
  | 11 => s.syLen.setWidth 64
  | 12 => s.nodeCnt.setWidth 64
  | _ => 0#64

/-- The numbers whose reads are specified in the faulted state too: STATUS, CAUSE and INFO (R47, R234), and those from
13 up, which are no registers and read 0 in any state (R37, U11). -/
def readsSpecified (n : Nat) : Bool := n = 1 || n = 2 || n = 3 || 13 ≤ n

/-- The host is answered. -/
def State.reply (s : State) (r : HostReply) : State := { s with seen := r :: s.seen }

/-- The answer of a read whose value the spec leaves unspecified: a fresh free value (log 4). -/
def State.replyFree (s : State) (ofBits : BitVec 128 → HostReply) : State :=
  s.drawn.reply (ofBits (Config.freeValue s.draws))

/-- `CsrRead(n)` (R234); in the faulted state every register but STATUS, CAUSE and INFO reads unspecified (log 5), and
the numbers from 13 up, which are no registers, read 0 there too (R37, U11; log 5). -/
def csrRead (n : Nat) (s : State) : State :=
  if s.faulted && !readsSpecified n then s.replyFree fun v => .csr (v.setWidth 64)
  else s.reply (.csr (csrValue s n))

/-- `min(v, cap)` for the lengths (R38), of the value truncated to 32 bits (R235, log 11). -/
def saturate (v cap : Idx) : Idx := if cap.toNat ≤ v.toNat then cap else v

/-- `CsrWrite(n, v)` of a register other than CMD in the idle state (R235): ARG, ROOT and the two lengths are stored,
a write of PL_LEN clears FREE (R33), every other write is ignored (R37). -/
def csrStore (n : Nat) (v : Operand) (s : State) : State :=
  match n with
  | 4 => { s with arg := v }
  | 5 => { s with root := v.setWidth 32 }
  | 7 => { s with tsLen := saturate (v.setWidth 32) s.cfg.tsCap }
  | 9 => { s with plLen := saturate (v.setWidth 32) s.cfg.plCap, free := 0#3 }
  | _ => s

/-- The capacity of a memory (R60). -/
def State.capacity (s : State) : Space → Nat
  | .nm => s.cfg.nn.toNat
  | .tsb => s.cfg.tsCap.toNat
  | .plb => s.cfg.plCap.toNat
  | .syb => s.cfg.syCap.toNat

/-- Entry 0 as a read above the capacity answers it (R67, R236): every bit 0 (log 12). -/
def zeroReply : Space → HostReply
  | .nm => .node { kind := .leaf, sym := 0#21, left := 0#32, right := 0#32 }
  | .tsb => .byte 0#8
  | .plb => .byte 0#8
  | .syb => .sym 0#21

/-- A memory entry made of free bits. -/
def freeReply (sp : Space) (v : BitVec 128) : HostReply :=
  match sp with
  | .nm => .node (nodeOfBits v)
  | .tsb => .byte (v.setWidth 8)
  | .plb => .byte (v.setWidth 8)
  | .syb => .sym (v.setWidth 21)

/-- The entry a memory holds, if it is defined (R44). -/
def State.entry (s : State) (sp : Space) (i : Nat) : Option HostReply :=
  match sp with
  | .nm => (s.nm.read i).map .node
  | .tsb => (s.tsb.read i).map .byte
  | .plb => (s.plb.read i).map .byte
  | .syb => (s.syb.read i).map .sym

/-- `MemRead(space, i)` (R236): 0 at or above the capacity, where there is no entry, in the faulted state too (R67, D5;
log 5); else the entry, or an unspecified value where the entry is not defined, and of any entry in the faulted state
(R284). -/
def memRead (sp : Space) (i : Nat) (s : State) : State :=
  if s.capacity sp ≤ i then s.reply (zeroReply sp)
  else if s.faulted then s.replyFree (freeReply sp)
  else
    match s.entry sp i with
    | some r => s.reply r
    | none => s.replyFree (freeReply sp)

/-- `MemWrite(space, i, v)` in the idle state (R237): stored below the capacity, ignored at or above it. -/
def memStore (sp : Space) (i : Nat) (store : State → State) (s : State) : State :=
  if i < s.capacity sp then store s else s

/-- An access the host makes by writing: ignored in the faulted state (R284), no move while BUSY (R326). -/
def hostWrite (store : State → State) (s : State) : Answer := whenIdle s fun s => .next (store s)

/-- The command whose opcode the byte is, or CmdIllegal (R93). -/
def runOpcode (b : Byte) (s : State) : Answer :=
  match decodeCommand b with
  | .ok i => exec i s
  | .error _ => illegalOpcode b s

/-- `CsrWrite(CMD, v)` (R24, R233): in the faulted state every `v` but 0x01 is ignored, whatever its low byte; else `v`
truncated to the register's 8 bits is the opcode (R235). -/
def writeCmd (v : Operand) (s : State) : Answer :=
  if s.faulted && v ≠ 0x01#64 then .next s else runOpcode (v.setWidth 8) s

/-- An access the host makes by reading, in a state that lets it (R234, R236, R326): while BUSY only STATUS may be
read. -/
def hostRead (allowed : Bool) (read : State → State) (s : State) : Answer :=
  if s.busy && !s.faulted && !allowed then .refused .hostWhileBusy else .next (read s)

/-- One access of the host, or the hardware reset, which may come at any time (R320). -/
def hostMove (a : HostAction) (s : State) : Answer :=
  match a with
  | .csrRead n => hostRead (n = 1) (csrRead n) s
  | .csrWrite 0 v => writeCmd v s
  | .csrWrite n v => hostWrite (csrStore n v) s
  | .memRead sp i => hostRead false (memRead sp i) s
  | .writeNode i r => hostWrite (memStore .nm i fun s => { s with nm := s.nm.write i r }) s
  | .writeTsb i b => hostWrite (memStore .tsb i fun s => { s with tsb := s.tsb.write i b }) s
  | .writePlb i b => hostWrite (memStore .plb i fun s => { s with plb := s.plb.write i b }) s
  | .writeSyb _ _ => hostWrite id s
  | .hwReset => .next (resetBlock s)

/-- One step of the sequencer: the token or the payload bit that comes next in the command in flight. -/
def sequencerMove (s : State) : Answer :=
  match s.act with
  | .tokenising _ _ => tokenStep s
  | .walking _ _ _ _ => bitStep s
  | .idle => .next s

/-- The host's next access may be made although a command is in flight: the hardware reset (R320) and the poll of
STATUS (R234, R326). -/
def mayInterrupt : HostAction → Bool
  | .hwReset => true
  | .csrRead n => n = 1
  | .csrWrite _ _ | .memRead _ _ | .writeNode _ _ | .writeTsb _ _ | .writePlb _ _ | .writeSyb _ _ => false

/-- The next move of the machine (logs 1 and 6): the host's next access, a command among them, which runs to its end
(R5); with a command in flight, its next token or bit, unless the host polls or resets; with no access to come, the
block waits as it is. -/
def nextMove (s : State) : Answer :=
  match s.host with
  | [] => if s.inFlight then sequencerMove s else .next s
  | a :: rest =>
    if s.inFlight && !mayInterrupt a then sequencerMove s else hostMove a { s with host := rest }

/-! Entries packed into 32-bit words, where a platform does so (part of `BUS_MAP`: no access of the block packs). -/

/-- The three words of a node record: kind in bit 31 and the symbol in bits 20 to 0 of the first, then the children
(R116). -/
def nodeWords (r : NodeRec) : List (BitVec 32) :=
  [(match r.kind with | .leaf => 0b0#1 | .internal => 0b1#1) ++ 0#10 ++ r.sym, r.left, r.right]

/-- The word of a symbol entry: bits 20 to 0, the others 0 (R118). -/
def symWord (x : Sym) : BitVec 32 := x.setWidth 32

/-! Placing one instruction where the next step fetches it (log 7). -/

/-- The state with the bytes at TSB[0], and a TDES in flight that has read nothing yet. -/
def placeToken (bs : List Byte) (s : State) : State :=
  { s with
    tsb := bs.zipIdx.foldl (fun m p => m.write p.2 p.1) s.tsb
    tsLen := BitVec.ofNat 32 bs.length
    status := 0b01#2
    act := .tokenising 0 0
    host := [] }

/-- The state with an UNPACK in flight whose payload byte in hand begins with the bit, and its cursor on node 0, an
internal node (R201: the cursor is on an internal node whenever a bit is consumed). -/
def placeBitInHand (b : Bool) (s : State) : State :=
  { s with
    nm := s.nm.write 0 { kind := .internal, sym := 0#21, left := 0#32, right := 0#32 }
    status := 0b01#2
    act := .walking 1#64 0#32 (if b then 0x80#8 else 0x00#8) 8
    host := [] }

/-- The state with an opcode as the host's next write to CMD and no command in flight. -/
def placeCommand (b : Byte) (s : State) : State :=
  { s with status := statusEnded s.status, act := .idle, host := .csrWrite 0 (b.setWidth 64) :: s.host }

/-- Place a word of spec/opcode_table.json in the stream it is read in; a byte that is neither command nor token is
written to CMD. -/
def placeWord (s : State) (nbits w : Nat) : State :=
  match tableCode nbits w with
  | .command b => placeCommand b s
  | .bit b => placeBitInHand b s
  | .token bs =>
    match decodeToken bs, bs with
    | .error _, [b] => placeCommand b s
    | _, bs => placeToken bs s

end Sys2Proof.Machine
end

