-- ==== Sys2Proof/Machine/Step.lean ====
section
/-! DEFINITION. One step of the machine, and a word placed where the next step fetches its instruction. -/

namespace Sys2Proof.Machine

/-- One step (R5): see `nextMove`. -/
def step (s : State) : Host.Outcome State Fault Refusal := nextMove s

/-- The state with the instruction of an opcode-table word where the next step fetches it (log 7). -/
def State.withFetchWord (s : State) (nbits w : Nat) : State := placeWord s nbits w

end Sys2Proof.Machine
end

