-- ==== Sys2Proof/Safety.lean ====
section
/-! DEFINITION. What the statements speak of: the invariant of the machine (10_state.md rule R39 and what the rules
say of flags, causes and scratch), trees held in NM (30_encoding.md rule R117) with their streams (R131), codes (R97)
and pre-order numbering (R159), and bits of the payload (20_memory.md rule R63). -/

namespace Sys2Proof.Safety

open Sys2Proof.Machine

/-! The invariant. -/

/-- Every memory is in its canonical form. -/
def memoriesOk (s : State) : Prop :=
  Memory.wf s.cfg.nn.toNat s.nm = true ∧ Memory.wf s.cfg.tsCap.toNat s.tsb = true ∧
  Memory.wf s.cfg.plCap.toNat s.plb = true ∧ Memory.wf s.cfg.syCap.toNat s.syb = true

/-- Lengths, positions and counts are within their capacities (R31 to R36, R39). -/
def lengthsOk (s : State) : Prop :=
  s.tsLen.toNat ≤ s.cfg.tsCap.toNat ∧ s.tsRpos.toNat ≤ s.cfg.tsCap.toNat ∧
  s.plLen.toNat ≤ s.cfg.plCap.toNat ∧ s.plRpos.toNat ≤ s.cfg.plCap.toNat ∧
  s.syLen.toNat ≤ s.cfg.syCap.toNat ∧ s.nodeCnt.toNat ≤ s.cfg.nn.toNat

/-- With free bits in the packer there is a last byte, and it is defined (R30, R39). -/
def carryOk (s : State) : Prop :=
  s.free ≠ 0#3 → 1 ≤ s.plLen.toNat ∧ (s.plb.read (s.plLen.toNat - 1)).isSome = true

/-- The free bits of the packer's last byte hold 0 (R30, R39). A host write to that byte can break this, which R330
forbids the host: it is an assumption of the packing statements, not a part of `Inv` (log 26). -/
def freeBitsZero (s : State) : Prop :=
  ∀ b, s.free ≠ 0#3 → s.plb.read (s.plLen.toNat - 1) = some b → ∀ i, i < s.free.toNat → b.getLsbD i = false

/-- BUSY exactly while a command is in flight, never with FAULT (R25, R283); CAUSE and INFO are 0 without FAULT
(R26, R27); with it CAUSE is 1 to 12 (R281) and no memory entry is defined (R44, R47). -/
def flagsOk (s : State) : Prop :=
  (s.busy = s.inFlight) ∧ (s.faulted = true → s.busy = false) ∧
  (s.faulted = false → s.cause = 0#8 ∧ s.info = 0#32) ∧
  (s.faulted = true → 1 ≤ s.cause.toNat ∧ s.cause.toNat ≤ 12 ∧ s.nm = [] ∧ s.tsb = [] ∧ s.plb = [] ∧ s.syb = [])

/-- The scratch of a command in flight is within its bounds (R126, R153, R201). -/
def scratchOk (s : State) : Prop :=
  match s.act with
  | .idle => True
  | .tokenising p ntok => p ≤ s.tsLen.toNat ∧ ntok ≤ s.cfg.nn.toNat
  | .walking t cur _ unread =>
    cur.toNat < s.cfg.nn.toNat ∧ s.root.toNat < s.cfg.nn.toNat ∧ unread ≤ 8 ∧
    s.plRpos.toNat ≤ s.plLen.toNat ∧ s.syLen.toNat < t.toNat ∧ t.toNat ≤ s.cfg.syCap.toNat

/-- The invariant of the machine. -/
structure Inv (s : State) : Prop where
  cfg      : s.cfg.wf = true
  memories : memoriesOk s
  flags    : flagsOk s
  lengths  : s.faulted = false → lengthsOk s
  carry    : s.faulted = false → carryOk s
  scratch  : scratchOk s

/-- The block is idle: STATUS = 0b00 (R233) and, as R48 says of every state between commands, no scratch. -/
def idle (s : State) : Prop := s.status = 0b00#2 ∧ s.act = .idle

/-! Trees in the node memory. -/

/-- A tree with the node index of every node (R117). -/
inductive CodeTree where
  | leaf (n : Idx) (x : Sym)
  | node (n : Idx) (l r : CodeTree)
  deriving DecidableEq, Repr

/-- The index of the tree's root. -/
def CodeTree.index : CodeTree → Idx
  | .leaf n _ => n
  | .node n _ _ => n

/-- The node indices in pre-order. -/
def CodeTree.nodes : CodeTree → List Idx
  | .leaf n _ => [n]
  | .node n l r => n :: (l.nodes ++ r.nodes)

/-- The number of nodes. -/
def CodeTree.size : CodeTree → Nat
  | .leaf _ _ => 1
  | .node _ l r => l.size + r.size + 1

/-- The leaf symbols, left to right. -/
def CodeTree.symbols : CodeTree → List Sym
  | .leaf _ x => [x]
  | .node _ l r => l.symbols ++ r.symbols

/-- NM holds the tree: every node's record is defined, below NN, and of its kind; an internal record's children are
the roots of the subtrees (R117). -/
def CodeTree.heldIn (s : State) : CodeTree → Bool
  | .leaf n x =>
    n.toNat < s.cfg.nn.toNat &&
    match s.nm.read n.toNat with
    | some r => r.kind = .leaf && r.sym = x
    | none => false
  | .node n l r =>
    n.toNat < s.cfg.nn.toNat && l.heldIn s && r.heldIn s &&
    match s.nm.read n.toNat with
    | some rec => rec.kind = .internal && rec.left = l.index && rec.right = r.index
    | none => false

/-- No record is reached twice (R117). -/
def CodeTree.unshared (t : CodeTree) : Prop := t.nodes.Nodup

/-- Every leaf carries a symbol the tree stream can hold (R106, R132). -/
def CodeTree.streamable (t : CodeTree) : Prop :=
  ∀ x ∈ t.symbols, isScalar x = true ∧ isReserved x = false

/-- `Pre`, the pre-order byte sequence (R131). -/
def CodeTree.stream : CodeTree → List Byte
  | .leaf _ x => utf8Enc x
  | .node _ l r => 0x01#8 :: (l.stream ++ r.stream)

/-- The leaves in pre-order, each with its node index. -/
def CodeTree.leaves : CodeTree → List (Idx × Sym)
  | .leaf n x => [(n, x)]
  | .node _ l r => l.leaves ++ r.leaves

/-- The node records of the tree's tokens, as TDES stores them in phase 1 (R151). -/
def CodeTree.records : CodeTree → List NodeRec
  | .leaf _ x => [{ kind := .leaf, sym := x, left := Idx.none, right := Idx.none }]
  | .node _ l r => { kind := .internal, sym := 0#21, left := Idx.none, right := Idx.none } :: (l.records ++ r.records)

/-- The node records of the tree, complete, in pre-order: a leaf has no children, an internal node no symbol and its
subtrees' roots (R40, R152). -/
def CodeTree.linked : CodeTree → List NodeRec
  | .leaf _ x => [{ kind := .leaf, sym := x, left := Idx.none, right := Idx.none }]
  | .node _ l r => { kind := .internal, sym := 0#21, left := l.index, right := r.index } :: (l.linked ++ r.linked)

/-- The same tree with its nodes numbered in pre-order from `k` (R159). -/
def CodeTree.renumber : Nat → CodeTree → CodeTree
  | k, .leaf _ x => .leaf (BitVec.ofNat 32 k) x
  | k, .node _ l r => .node (BitVec.ofNat 32 k) (l.renumber (k + 1)) (r.renumber (k + 1 + l.size))

/-- Every leaf's path from the root, false for left and true for right, with its symbol (R97). -/
def CodeTree.paths : CodeTree → List (List Bool × Sym)
  | .leaf _ x => [([], x)]
  | .node _ l r =>
    l.paths.map (fun p => (false :: p.1, p.2)) ++ r.paths.map (fun p => (true :: p.1, p.2))

/-- The code word of a path: bit `i` is the branch at depth `i`, and the sentinel stands above (R95, R97). -/
def codeNat : List Bool → Nat
  | [] => 1
  | b :: p => b.toNat + 2 * codeNat p

/-! Tokens, also those of no whole tree. -/

/-- A token of the stream before its END (R100). -/
inductive Tok where
  | internal
  | leaf (x : Sym)
  deriving DecidableEq, Repr

/-- The bytes of a token (R102, R104). -/
def Tok.bytes : Tok → List Byte
  | .internal => [0x01#8]
  | .leaf x => utf8Enc x

/-- The record TDES stores for a token in phase 1 (R151). -/
def Tok.record : Tok → NodeRec
  | .internal => { kind := .internal, sym := 0#21, left := Idx.none, right := Idx.none }
  | .leaf x => { kind := .leaf, sym := x, left := Idx.none, right := Idx.none }

/-- The stream can carry the token (R106). -/
def Tok.streamable : Tok → Prop
  | .internal => True
  | .leaf x => isScalar x = true ∧ isReserved x = false

/-- The bytes of a list of tokens. -/
def streamOf (ts : List Tok) : List Byte := ts.flatMap Tok.bytes

/-- The tokens of a tree, in pre-order (R131). -/
def CodeTree.tokens : CodeTree → List Tok
  | .leaf _ x => [.leaf x]
  | .node _ l r => .internal :: (l.tokens ++ r.tokens)

/-- A first byte of a token of `n` bytes, more than one (R108). -/
def multiByte (b : Byte) (n : Nat) : Prop :=
  (0xC2 ≤ b.toNat ∧ b.toNat ≤ 0xDF ∧ n = 2) ∨ (0xE0 ≤ b.toNat ∧ b.toNat ≤ 0xEF ∧ n = 3) ∨
  (0xF0 ≤ b.toNat ∧ b.toNat ≤ 0xF4 ∧ n = 4)

/-- A byte `10xxxxxx` (R103). -/
def continues (b : Byte) : Prop := 0x80 ≤ b.toNat ∧ b.toNat ≤ 0xBF

/-! What TSER has walked when it comes to a node: a part of what `left` and `right` unfold to, also where that is no
tree (R132). -/

/-- A part of the unfolding of NM from an index: at a `stop` nothing is said of what the index names. -/
inductive Part where
  | stop (n : Idx)
  | leaf (n : Idx) (x : Sym)
  | node (n : Idx) (l r : Part)
  deriving DecidableEq, Repr

/-- The index the part begins at. -/
def Part.index : Part → Idx
  | .stop n => n
  | .leaf n _ => n
  | .node n _ _ => n

/-- NM holds the part: the record of every leaf and node of it is defined, below NN, of its kind, and with its symbol
or children. A record may stand at several places of the part. -/
def Part.heldIn (s : State) : Part → Bool
  | .stop _ => true
  | .leaf n x =>
    n.toNat < s.cfg.nn.toNat &&
    match s.nm.read n.toNat with
    | some r => r.kind = .leaf && r.sym = x
    | none => false
  | .node n l r =>
    n.toNat < s.cfg.nn.toNat && l.heldIn s && r.heldIn s &&
    match s.nm.read n.toNat with
    | some rec => rec.kind = .internal && rec.left = l.index && rec.right = r.index
    | none => false

/-- The first stop in pre-order. -/
def Part.firstStop : Part → Option Idx
  | .stop n => some n
  | .leaf _ _ => none
  | .node _ l r => l.firstStop.or r.firstStop

/-- The tokens of the nodes before the first stop, in pre-order: one for each node visited (R132). -/
def Part.walked : Part → List Tok
  | .stop _ => []
  | .leaf _ x => [.leaf x]
  | .node _ l r => .internal :: (l.walked ++ if l.firstStop.isSome then [] else r.walked)

/-! Bytes and bits of the buffers. -/

/-- The memory holds these entries from index `i` on. -/
def holdsAt {α : Type} (m : Memory α) (i : Nat) (vs : List α) : Prop :=
  ∀ k v, vs[k]? = some v → m.read (i + k) = some v

/-- The bytes of TSB from `p` on, below TS_LEN and TS_CAP. -/
def streamAt (s : State) (p : Nat) (bs : List Byte) : Prop :=
  holdsAt s.tsb p bs ∧ p + bs.length ≤ s.tsLen.toNat ∧ s.tsLen.toNat ≤ s.cfg.tsCap.toNat

/-- Bit `j` of the payload: bit `7 - j mod 8` of byte `j / 8` (R63), where that byte is defined. -/
def bitAt (m : Memory Byte) (j : Nat) : Option Bool := (m.read (j / 8)).map fun b => b.getLsbD (7 - j % 8)

/-- The payload holds these bits from bit `j` on. -/
def holdsBits (m : Memory Byte) (j : Nat) (bs : List Bool) : Prop :=
  ∀ k b, bs[k]? = some b → bitAt m (j + k) = some b

/-- How many payload bits the packer has written: 8 for each byte less the free ones (R30). -/
def packedBits (s : State) : Nat := 8 * s.plLen.toNat - s.free.toNat

/-- `ceil(n / 8)`, the bytes that hold `n` bits. -/
def bytesFor (n : Nat) : Nat := (n + 7) / 8

/-- The data bits of a code word in emission order (R64). -/
def dataBits (code : Operand) : List Bool := (List.range (codeLength code)).map (codeBit code)

/-- A text packed code by code: for each code word the host writes ARG and issues PKPUT (R238). -/
def packText : List Operand → State → Answer
  | [], s => .next s
  | c :: cs, s => andThen (exec .pkput { s with arg := c }) (packText cs)

/-! Parts of the state, and the host's view of it. -/

/-- The two memories read alike at every index outside `lo`, ..., `hi - 1`. -/
def sameOutside {α : Type} (m m' : Memory α) (lo hi : Nat) : Prop :=
  ∀ a, (a < lo ∨ hi ≤ a) → m'.read a = m.read a

/-- No memory entry is defined (R44). -/
def nothingDefined (s : State) : Prop :=
  ∀ a, s.nm.read a = none ∧ s.tsb.read a = none ∧ s.plb.read a = none ∧ s.syb.read a = none

/-- Every register holds its reset value, no memory entry is defined and there is no scratch (R48). -/
def atReset (s : State) : Prop :=
  s.status = 0b00#2 ∧ s.cause = 0#8 ∧ s.info = 0#32 ∧ s.arg = 0#64 ∧ s.root = 0xFFFFFFFF#32 ∧ s.free = 0#3 ∧
  s.tsLen = 0#32 ∧ s.tsRpos = 0#32 ∧ s.plLen = 0#32 ∧ s.plRpos = 0#32 ∧ s.syLen = 0#32 ∧ s.nodeCnt = 0#32 ∧
  nothingDefined s ∧ s.act = .idle

/-- The faulted state with this cause code and INFO (R283, R284). -/
def faultedWith (s : State) (code : Nat) (info : BitVec 32) : Prop :=
  s.status = 0b10#2 ∧ s.cause = BitVec.ofNat 8 code ∧ s.info = info

/-- The host's next access, if it has one, waits for the command in flight to end. -/
def hostWaits (s : State) : Prop := ∀ a, s.host.head? = some a → mayInterrupt a = false

/-- The values of registers 0 to 12 as the host reads them (R23), zero-extended; CMD reads 0 (R37). -/
def registerTable (s : State) : List Operand :=
  [0#64, s.status.setWidth 64, s.cause.setWidth 64, s.info.setWidth 64, s.arg, s.root.setWidth 64,
    s.free.setWidth 64, s.tsLen.setWidth 64, s.tsRpos.setWidth 64, s.plLen.setWidth 64, s.plRpos.setWidth 64,
    s.syLen.setWidth 64, s.nodeCnt.setWidth 64]

/-- The eight opcodes of the map (R91). -/
def opcodes : List Byte := [0x00#8, 0x01#8, 0x10#8, 0x11#8, 0x20#8, 0x30#8, 0x31#8, 0x40#8]

/-- The instructions that are commands (R91). -/
def isCommand : Instr → Bool
  | .nop | .reset | .pkinit | .pkput | .unpack | .tser | .tend | .tdes => true
  | .tokEnd | .tokInternal | .tokLeaf1 _ | .tokLeaf2 _ | .tokLeaf3 _ | .tokLeaf4 _ | .bitLeft | .bitRight => false

/-- The cause codes a command can raise, by R282's list and R281's codes. -/
def causeCodes : Instr → List (BitVec 8)
  | .tend => [3#8]
  | .pkput => [2#8, 3#8]
  | .tser => [9#8, 11#8, 12#8, 3#8]
  | .tdes => [4#8, 6#8, 5#8, 7#8, 8#8]
  | .unpack => [3#8, 9#8, 10#8]
  | .nop | .reset | .pkinit => []
  | .tokEnd | .tokInternal | .tokLeaf1 _ | .tokLeaf2 _ | .tokLeaf3 _ | .tokLeaf4 _ | .bitLeft | .bitRight => []

/-- The host's next access is a write other than `CsrWrite(CMD, 0x01)`: register or memory (R284). -/
def isOtherWrite : HostAction → Prop
  | .csrWrite n v => ¬ (n = 0 ∧ v = 0x01#64)
  | .writeNode _ _ | .writeTsb _ _ | .writePlb _ _ | .writeSyb _ _ => True
  | .csrRead _ | .memRead _ _ | .hwReset => False

/-- The host's next access is a reset from the faulted state: `CsrWrite(CMD, 0x01)` or the hardware input (R285). -/
def isReset : HostAction → Prop
  | .csrWrite n v => n = 0 ∧ v = 0x01#64
  | .hwReset => True
  | .csrRead _ | .memRead _ _ | .writeNode _ _ | .writeTsb _ _ | .writePlb _ _ | .writeSyb _ _ => False

end Sys2Proof.Safety
end

