-- ==== Sys2Proof/Certificates/Slice0/Obligations.lean ====
section
/-! DEFINITION. The statements for the provers, each with the rule of spec/ it comes from. -/

open Sys2Proof Sys2Proof.Machine Sys2Proof.Safety

/-! Reset. -/

/-- R48: the machine after reset holds the table's values, with nothing defined in any memory. -/
def Obligations.ResetStateHoldsTable : Prop := atReset State.reset

/-- R231: RESET is accepted on an idle block and in the faulted state, and gives every register its reset value and
leaves no memory entry defined. -/
def Obligations.ResetCommandRestoresResetState : Prop :=
  ∀ s : State, (s.busy = false ∨ s.faulted = true) →
    ∃ t, exec .reset s = .next t ∧ atReset t ∧
      t = { State.reset with cfg := s.cfg, draws := s.draws, host := s.host, seen := s.seen }

/-- R320, R321: the hardware reset may come at any time, also with a command in flight, and has RESET's effect. -/
def Obligations.HardwareResetAtAnyTime : Prop :=
  ∀ (s : State) (rest : List HostAction), s.host = .hwReset :: rest →
    ∃ t, step s = .next t ∧ atReset t ∧ t.host = rest

/-! What a step runs. -/

/-- R24, R233, R235: a write of CMD with no command in flight runs the command whose opcode is the value's low byte; in
the faulted state the value itself, untruncated, is the opcode (a wider value is ignored there, as
`FaultedIgnoresOtherWrites` says). -/
def Obligations.StepRunsWrittenCommand : Prop :=
  ∀ (s : State) (v : Operand) (rest : List HostAction) (i : Instr),
    s.act = .idle → s.host = .csrWrite 0 v :: rest → (s.faulted = true → v.toNat < 256) →
    decode (.command (v.setWidth 8)) = .ok i →
    step s = exec i { s with host := rest }

/-- R153: a TDES in flight at byte `p` whose next bytes decode to a token runs that token; with NN tokens stored only
END is run (R286). -/
def Obligations.StepRunsNextToken : Prop :=
  ∀ (s : State) (p ntok : Nat) (bs : List Byte) (i : Instr),
    s.act = .tokenising p ntok → hostWaits s → streamAt s p bs → decode (.token bs) = .ok i →
    (i = .tokEnd ∨ ntok < s.cfg.nn.toNat) → step s = exec i s

/-- R201: an UNPACK in flight runs the next unread bit of the byte in hand, most significant first; with none left it
reads the next payload byte first and runs that byte's bit 7. -/
def Obligations.StepRunsNextBit : Prop :=
  (∀ (s : State) (t : Operand) (cur : Idx) (byte : Byte) (k : Nat),
    s.act = .walking t cur byte (k + 1) → hostWaits s →
    step s = exec (if byte.getLsbD k then .bitRight else .bitLeft) s) ∧
  (∀ (s : State) (t : Operand) (cur : Idx) (byte b : Byte),
    s.act = .walking t cur byte 0 → hostWaits s → s.plRpos.toNat < s.plLen.toNat →
    s.plLen.toNat ≤ s.cfg.plCap.toNat → s.plb.read s.plRpos.toNat = some b →
    step s = exec (if b.getLsbD 7 then .bitRight else .bitLeft)
      { s with plRpos := s.plRpos + 1#32, act := .walking t cur b 8 })

/-- The model's choice (log 6): with no access of the host to come and no command in flight the block waits as it is;
with a command in flight the host may poll STATUS, which shows BUSY (R234, R326). -/
def Obligations.StepWaitsAndPolls : Prop :=
  (∀ s : State, s.act = .idle → s.host = [] → step s = .next s) ∧
  (∀ (s : State) (rest : List HostAction), s.busy = true → s.faulted = false → s.host = .csrRead 1 :: rest →
    step s = .next { s with host := rest, seen := .csr 1#64 :: s.seen })

/-- R93, R232: an opcode outside the map, written to CMD on an idle block, raises CmdIllegal with the opcode in
INFO. -/
def Obligations.IllegalOpcodeRaisesCmdIllegal : Prop :=
  ∀ (s : State) (v : Operand) (rest : List HostAction),
    idle s → s.host = .csrWrite 0 v :: rest → (v.setWidth 8) ∉ opcodes →
    ∃ t, step s = .next t ∧ faultedWith t 1 ((v.setWidth 8 : Byte).setWidth 32)

/-! The faulted state. -/

/-- R283: fault entry writes CAUSE with the cause's code (R281), INFO and STATUS; no memory entry stays defined, no
command stays in flight, and the host's accesses and the capacities are not touched. -/
def Obligations.FaultEntryWritesCauseAndInfo : Prop :=
  (∀ (c : Cause) (info : BitVec 32) (s : State),
    (enterFault c info s).status = 0b10#2 ∧ (enterFault c info s).cause = c.code ∧
    (enterFault c info s).info = info ∧ nothingDefined (enterFault c info s) ∧ (enterFault c info s).act = .idle ∧
    (enterFault c info s).cfg = s.cfg ∧ (enterFault c info s).host = s.host ∧ (enterFault c info s).seen = s.seen) ∧
  [Cause.cmdIllegal, .codeInvalid, .bufOverflow, .treeNoTerm, .utf8Malformed, .nodeOverflow, .treeShort,
    .treeTrailing, .treeMalformed, .payloadTrunc, .symReserved, .symInvalid].map Cause.code =
    [1#8, 2#8, 3#8, 4#8, 5#8, 6#8, 7#8, 8#8, 9#8, 10#8, 11#8, 12#8]

/-- R233, R235, R284: in the faulted state every write but `CsrWrite(CMD, 0x01)` is ignored: a command, an illegal
opcode and a wider value whose low byte is 0x01 among them. -/
def Obligations.FaultedIgnoresOtherWrites : Prop :=
  ∀ (s : State) (a : HostAction) (rest : List HostAction),
    s.faulted = true → s.act = .idle → s.host = a :: rest → isOtherWrite a →
    step s = .next { s with host := rest }

/-- R234, R284: in the faulted state STATUS, CAUSE and INFO read as fault entry left them; any other register and any
memory entry answers some value and changes nothing but the free-value counter (log 4). That the numbers from 13 up,
which are no registers, and the indices at or above a capacity, which are no entries, read 0 there too is the model's
reading (log 5) of R37 with U11 and of R67 and R236 with D5, over the words of R284, "all other reads return unspecified
values". -/
def Obligations.FaultedReadsOfTheHost : Prop :=
  (∀ (s : State) (n : Nat) (v : Operand) (rest : List HostAction),
    s.faulted = true → s.act = .idle → s.host = .csrRead n :: rest →
    (n, v) ∈ [(1, s.status.setWidth 64), (2, s.cause.setWidth 64), (3, s.info.setWidth 64)] →
    step s = .next { s with host := rest, seen := .csr v :: s.seen }) ∧
  (∀ (s : State) (n : Nat) (rest : List HostAction),
    s.faulted = true → s.act = .idle → s.host = .csrRead n :: rest → 13 ≤ n →
    step s = .next { s with host := rest, seen := .csr 0#64 :: s.seen }) ∧
  (∀ (s : State) (n : Nat) (rest : List HostAction),
    s.faulted = true → s.act = .idle → s.host = .csrRead n :: rest → n ∉ [1, 2, 3] → n < 13 →
    ∃ v, step s = .next { s with host := rest, seen := .csr v :: s.seen, draws := s.draws + 1 }) ∧
  (∀ (s : State) (sp : Space) (i : Nat) (rest : List HostAction),
    s.faulted = true → s.act = .idle → s.host = .memRead sp i :: rest → s.capacity sp ≤ i →
    step s = .next { s with host := rest, seen := zeroReply sp :: s.seen }) ∧
  (∀ (s : State) (sp : Space) (i : Nat) (rest : List HostAction),
    s.faulted = true → s.act = .idle → s.host = .memRead sp i :: rest → i < s.capacity sp →
    ∃ r, step s = .next { s with host := rest, seen := r :: s.seen, draws := s.draws + 1 })

/-- R284, R285: the only exit from the faulted state is reset; until then CAUSE and INFO describe the first fault. -/
def Obligations.FaultedUntilReset : Prop :=
  ∀ s t : State, Inv s → s.faulted = true → (∀ a, s.host.head? = some a → ¬ isReset a) → step s = .next t →
    t.faulted = true ∧ t.cause = s.cause ∧ t.info = s.info

/-- The spec's inference R282 from the command rules: the faults each command can raise, and CmdIllegal for an
undefined opcode. -/
def Obligations.CommandsRaiseListedCauses : Prop :=
  (∀ (s t : State) (i : Instr), Inv s → idle s → isCommand i = true → exec i s = .next t → t.faulted = true →
    t.cause ∈ causeCodes i) ∧
  (∀ (s t : State) (v : Operand) (rest : List HostAction), idle s → s.host = .csrWrite 0 v :: rest →
    (v.setWidth 8) ∉ opcodes → step s = .next t → t.faulted = true ∧ t.cause = 1#8)

/-! The system commands and the packer. -/

/-- R230: NOP leaves any idle state as it is, and is ignored in the faulted state. -/
def Obligations.NopChangesNothing : Prop :=
  ∀ s : State, (idle s ∨ s.faulted = true) → exec .nop s = .next s

/-- R181: PKINIT empties the payload and clears FREE; PLB's bytes stay. -/
def Obligations.PkinitEmptiesPayload : Prop :=
  ∀ s : State, idle s → exec .pkinit s = .next { s with plLen := 0#32, free := 0#3 }

/-- R182: ARG = 0 has no sentinel, and PKPUT raises CodeInvalid(0); ARG = 1 has no data bits, and PKPUT changes
nothing, even with FREE = 0 (corner case (a)). -/
def Obligations.PkputOfZeroAndOne : Prop :=
  (∀ s : State, idle s → s.arg = 0#64 → ∃ t, exec .pkput s = .next t ∧ faultedWith t 2 0#32) ∧
  (∀ s : State, idle s → s.arg = 1#64 → exec .pkput s = .next s)

/-- R182, R63, R64: PKPUT appends the code word's data bits, least significant first, to the payload bits, each byte
filled from bit 7 down; PL_LEN and FREE follow; nothing else changes. -/
def Obligations.PkputAppendsDataBits : Prop :=
  ∀ s : State, idle s → Inv s → freeBitsZero s → s.arg ≠ 0#64 →
    packedBits s + codeLength s.arg ≤ 8 * s.cfg.plCap.toNat →
    ∃ t, exec .pkput s = .next t ∧
      t.plLen.toNat = bytesFor (packedBits s + codeLength s.arg) ∧
      t.free.toNat = (8 - (packedBits s + codeLength s.arg) % 8) % 8 ∧
      (∀ j, j < packedBits s → bitAt t.plb j = bitAt s.plb j) ∧
      holdsBits t.plb (packedBits s) (dataBits s.arg) ∧ freeBitsZero t ∧
      t = { s with plLen := t.plLen, free := t.free, plb := t.plb } ∧
      sameOutside s.plb t.plb (packedBits s / 8) (bytesFor (packedBits s + codeLength s.arg))

/-- R182, R281: a code word whose data bits do not fit below PL_CAP raises BufOverflow(2). -/
def Obligations.PkputOverflowFaults : Prop :=
  ∀ s : State, idle s → Inv s → s.arg ≠ 0#64 →
    8 * s.cfg.plCap.toNat < packedBits s + codeLength s.arg →
    ∃ t, exec .pkput s = .next t ∧ faultedWith t 3 2#32

/-- The spec's inference R184 from R181, R182 and R63: the net effect of PKINIT and a PKPUT per code word. -/
def Obligations.PackedTextIsConcatenation : Prop :=
  ∀ (s : State) (codes : List Operand), idle s → Inv s → (∀ c, c ∈ codes → c ≠ 0#64) →
    (codes.flatMap dataBits).length ≤ 8 * s.cfg.plCap.toNat →
    ∃ t, andThen (exec .pkinit s) (packText codes) = .next t ∧
      t.plLen.toNat = bytesFor (codes.flatMap dataBits).length ∧
      t.free.toNat = (8 - (codes.flatMap dataBits).length % 8) % 8 ∧
      holdsBits t.plb 0 (codes.flatMap dataBits) ∧ freeBitsZero t ∧
      t = { s with arg := t.arg, plLen := t.plLen, free := t.free, plb := t.plb }

/-! The serializer. -/

/-- R133: TEND appends the terminator where TS_LEN stands, or raises BufOverflow(1) where TSB is full. -/
def Obligations.TendAppendsTerminator : Prop :=
  (∀ s : State, idle s → s.tsLen.toNat + 1 ≤ s.cfg.tsCap.toNat →
    ∃ t, exec .tend s = .next t ∧ t.tsLen.toNat = s.tsLen.toNat + 1 ∧
      t.tsb.read s.tsLen.toNat = some 0x00#8 ∧ t = { s with tsLen := t.tsLen, tsb := t.tsb } ∧
      sameOutside s.tsb t.tsb s.tsLen.toNat (s.tsLen.toNat + 1)) ∧
  (∀ s : State, idle s → s.cfg.tsCap.toNat < s.tsLen.toNat + 1 →
    ∃ t, exec .tend s = .next t ∧ faultedWith t 3 1#32)

/-- R131, R132: TSER writes `Pre(ROOT)` to TSB from index 0, for a well-formed tree (R117) and, by corner case (c), for
one with shared subtrees and at most NN visits; NM, ROOT and every other register are unchanged. -/
def Obligations.TserWritesPreorderStream : Prop :=
  ∀ (s : State) (t : CodeTree), idle s → t.heldIn s = true → (t.unshared ∨ t.size ≤ s.cfg.nn.toNat) → t.streamable →
    s.root = t.index → t.stream.length ≤ s.cfg.tsCap.toNat →
    ∃ u, exec .tser s = .next u ∧ u.tsLen.toNat = t.stream.length ∧ holdsAt u.tsb 0 t.stream ∧
      u = { s with tsLen := u.tsLen, tsb := u.tsb } ∧ sameOutside s.tsb u.tsb 0 t.stream.length

/-- R132, R106: the first leaf in pre-order that the stream cannot carry raises SymReserved or SymInvalid at its
node: in a tree, and wherever TSER comes to one within NN visits, whatever NM holds beyond it. -/
def Obligations.TserFaultsAtFirstBadLeaf : Prop :=
  (∀ (s : State) (t : CodeTree) (n : Idx) (x : Sym), idle s → t.heldIn s = true →
    (t.unshared ∨ t.size ≤ s.cfg.nn.toNat) → s.root = t.index → t.stream.length ≤ s.cfg.tsCap.toNat →
    t.leaves.find? (fun l => !isScalar l.2 || isReserved l.2) = some (n, x) →
    ∃ u, exec .tser s = .next u ∧ faultedWith u (if isReserved x then 11 else 12) n) ∧
  (∀ (s : State) (p : Part) (n : Idx) (r : NodeRec), idle s → p.heldIn s = true → s.root = p.index →
    p.firstStop = some n → (∀ k, k ∈ p.walked → k.streamable) → p.walked.length < s.cfg.nn.toNat →
    (streamOf p.walked).length ≤ s.cfg.tsCap.toNat → n.toNat < s.cfg.nn.toNat → s.nm.read n.toNat = some r →
    r.kind = .leaf → (isScalar r.sym = false ∨ isReserved r.sym = true) →
    ∃ u, exec .tser s = .next u ∧ faultedWith u (if isReserved r.sym then 11 else 12) n)

/-- R132, R281: a ROOT that names no record raises TreeMalformed(ROOT); a stream longer than TSB raises BufOverflow(1).
In pre-order, the first index at or above NN (a child NONE among them) raises TreeMalformed with itself in INFO, and so
does the index of visit NN + 1 (a cycle or sharing), where what is written before it fits in TSB; where that does not
fit, BufOverflow(1) comes first. -/
def Obligations.TserMalformedRootAndOverflow : Prop :=
  (∀ s : State, idle s → s.cfg.nn.toNat ≤ s.root.toNat → s.root ≠ Idx.none →
    ∃ u, exec .tser s = .next u ∧ faultedWith u 9 s.root) ∧
  (∀ (s : State) (t : CodeTree), idle s → t.heldIn s = true → (t.unshared ∨ t.size ≤ s.cfg.nn.toNat) → t.streamable →
    s.root = t.index → s.cfg.tsCap.toNat < t.stream.length →
    ∃ u, exec .tser s = .next u ∧ faultedWith u 3 1#32) ∧
  (∀ (s : State) (p : Part) (n : Idx), idle s → p.heldIn s = true → s.root = p.index → s.root ≠ Idx.none →
    p.firstStop = some n → (∀ k, k ∈ p.walked → k.streamable) → p.walked.length ≤ s.cfg.nn.toNat →
    (streamOf p.walked).length ≤ s.cfg.tsCap.toNat →
    (s.cfg.nn.toNat ≤ n.toNat ∨ p.walked.length = s.cfg.nn.toNat) →
    ∃ u, exec .tser s = .next u ∧ faultedWith u 9 n) ∧
  (∀ (s : State) (p : Part), idle s → p.heldIn s = true → s.root = p.index → s.root ≠ Idx.none →
    (∀ k, k ∈ p.walked → k.streamable) → p.walked.length ≤ s.cfg.nn.toNat →
    s.cfg.tsCap.toNat < (streamOf p.walked).length →
    ∃ u, exec .tser s = .next u ∧ faultedWith u 3 1#32)

/-! The tokens and the deserializer. -/

/-- R102, R151: an INTERNAL token becomes the next node record, both children NONE, and takes one byte. -/
def Obligations.InternalTokenStoresNode : Prop :=
  ∀ (s : State) (p ntok : Nat), s.act = .tokenising p ntok → ntok < s.cfg.nn.toNat →
    ∃ t, exec .tokInternal s = .next t ∧
      t.nm.read ntok = some { kind := .internal, sym := 0#21, left := Idx.none, right := Idx.none } ∧
      t = { s with nm := t.nm, act := .tokenising (p + 1) (ntok + 1) } ∧ sameOutside s.nm t.nm ntok (ntok + 1)

/-- R103, R151: a leaf token of each of the four forms, its symbol in the form's range, becomes the next node record
and takes its form's bytes. -/
def Obligations.LeafTokenStoresSymbol : Prop :=
  ∀ (s : State) (p ntok : Nat) (i : Instr) (x : Sym), s.act = .tokenising p ntok → ntok < s.cfg.nn.toNat →
    leafSym i = some x → i.wellFormed = true →
    ∃ t, exec i s = .next t ∧
      t.nm.read ntok = some { kind := .leaf, sym := x, left := Idx.none, right := Idx.none } ∧
      t = { s with nm := t.nm, act := .tokenising (p + tokenLen i) (ntok + 1) } ∧
      sameOutside s.nm t.nm ntok (ntok + 1)

/-- R105, R153, R286: with NN tokens stored a further token raises NodeOverflow at its first byte; else a leaf token
whose symbol is outside its form's range raises Utf8Malformed there. So does a step of TDES: NodeOverflow for every
first byte but END's, also one that begins no token, and Utf8Malformed where a byte of a token of more than one byte is
no continuation byte; and so does TDES itself, after the tokens that come before. -/
def Obligations.TokenFaults : Prop :=
  (∀ (s : State) (p ntok : Nat) (i : Instr), s.act = .tokenising p ntok → s.cfg.nn.toNat ≤ ntok →
    (i = .tokInternal ∨ ∃ x, leafSym i = some x ∧ 2 ≤ x.toNat) →
    ∃ t, exec i s = .next t ∧ faultedWith t 6 (BitVec.ofNat 32 p)) ∧
  (∀ (s : State) (p ntok : Nat) (i : Instr) (x : Sym), s.act = .tokenising p ntok → ntok < s.cfg.nn.toNat →
    leafSym i = some x → i.wellFormed = false → (∀ y, i ≠ .tokLeaf1 y) →
    ∃ t, exec i s = .next t ∧ faultedWith t 5 (BitVec.ofNat 32 p)) ∧
  (∀ (s : State) (p ntok : Nat) (b : Byte), s.act = .tokenising p ntok → hostWaits s → s.cfg.nn.toNat ≤ ntok →
    streamAt s p [b] → b ≠ 0x00#8 → ∃ t, step s = .next t ∧ faultedWith t 6 (BitVec.ofNat 32 p)) ∧
  (∀ (s : State) (p ntok n : Nat) (b0 b : Byte) (cs : List Byte), s.act = .tokenising p ntok → hostWaits s →
    ntok < s.cfg.nn.toNat → multiByte b0 n → (∀ c, c ∈ cs → continues c) → ¬ continues b → cs.length + 1 < n →
    streamAt s p (b0 :: (cs ++ [b])) → ∃ t, step s = .next t ∧ faultedWith t 5 (BitVec.ofNat 32 p)) ∧
  (∀ (s : State) (ts : List Tok) (b : Byte), idle s → (∀ k, k ∈ ts → k.streamable) → ts.length = s.cfg.nn.toNat →
    streamAt s 0 (streamOf ts ++ [b]) → b ≠ 0x00#8 →
    ∃ t, exec .tdes s = .next t ∧ faultedWith t 6 (BitVec.ofNat 32 (streamOf ts).length)) ∧
  (∀ (s : State) (ts : List Tok) (n : Nat) (b0 b : Byte) (cs : List Byte), idle s → (∀ k, k ∈ ts → k.streamable) →
    ts.length < s.cfg.nn.toNat → multiByte b0 n → (∀ c, c ∈ cs → continues c) → ¬ continues b → cs.length + 1 < n →
    streamAt s 0 (streamOf ts ++ b0 :: (cs ++ [b])) →
    ∃ t, exec .tdes s = .next t ∧ faultedWith t 5 (BitVec.ofNat 32 (streamOf ts).length))

/-- R107: a first byte that begins no token raises Utf8Malformed at its index. -/
def Obligations.BadFirstByteRaisesUtf8Malformed : Prop :=
  ∀ (s : State) (p ntok : Nat) (b : Byte), s.act = .tokenising p ntok → hostWaits s → streamAt s p [b] →
    ntok < s.cfg.nn.toNat → ((0x80 ≤ b.toNat ∧ b.toNat ≤ 0xC1) ∨ 0xF5 ≤ b.toNat) →
    ∃ t, step s = .next t ∧ faultedWith t 5 (BitVec.ofNat 32 p)

/-- R101, R152, R153: END after the tokens of one whole tree rebuilds it in NM under its pre-order numbers, writes
ROOT, TS_RPOS and NODE_CNT, and ends the command; every record of the tree is whole: a leaf's children are NONE, an
internal node's symbol 0 (R40). -/
def Obligations.EndTokenRebuildsTree : Prop :=
  ∀ (s : State) (p : Nat) (t : CodeTree), s.act = .tokenising p t.size → t.size ≤ s.cfg.nn.toNat →
    holdsAt s.nm 0 t.records →
    ∃ u, exec .tokEnd s = .next u ∧ (t.renumber 0).heldIn u = true ∧ holdsAt u.nm 0 (t.renumber 0).linked ∧
      u = { s with nm := u.nm, root := 0#32, tsRpos := BitVec.ofNat 32 (p + 1), nodeCnt := BitVec.ofNat 32 t.size,
                   status := statusEnded s.status, act := .idle } ∧
      sameOutside s.nm u.nm 0 t.size

/-- R132, R158: the empty tree. TSER of ROOT = NONE leaves an empty stream; TDES of a stream that is END alone leaves
ROOT = NONE, NODE_CNT = 0 and TS_RPOS = 1, and raises no fault. -/
def Obligations.EmptyTreeStreams : Prop :=
  (∀ s : State, idle s → s.root = Idx.none → exec .tser s = .next { s with tsLen := 0#32 }) ∧
  (∀ s : State, idle s → streamAt s 0 [0x00#8] →
    exec .tdes s = .next { s with root := Idx.none, nodeCnt := 0#32, tsRpos := 1#32 })

/-- R153, and the spec's inference R159 from R151 to R153: TDES of a tree's stream and its terminator leaves the tree
in NM under its pre-order numbers, every record whole, a leaf's children NONE and an internal node's symbol 0 (R40);
bytes after the terminator do not matter, TSB, TS_LEN and the records from NODE_CNT on are unchanged. -/
def Obligations.TdesRebuildsTree : Prop :=
  ∀ (s : State) (t : CodeTree), idle s → t.streamable → t.size ≤ s.cfg.nn.toNat →
    streamAt s 0 (t.stream ++ [0x00#8]) →
    ∃ u, exec .tdes s = .next u ∧ (t.renumber 0).heldIn u = true ∧ holdsAt u.nm 0 (t.renumber 0).linked ∧
      u.root = 0#32 ∧ u.nodeCnt.toNat = t.size ∧ u.tsRpos.toNat = t.stream.length + 1 ∧
      u = { s with nm := u.nm, root := u.root, nodeCnt := u.nodeCnt, tsRpos := u.tsRpos } ∧
      sameOutside s.nm u.nm 0 t.size

/-- R153, R105, R328: a stream without its terminator raises TreeNoTerm(TS_LEN): the empty stream, one that ends after
any tokens, no whole tree's among them, and one that ends inside a token; so does the step of TDES that comes to the end
of the valid bytes, before a token or inside one. -/
def Obligations.TdesWithoutTerminatorFaults : Prop :=
  (∀ s : State, idle s → s.tsLen = 0#32 → ∃ u, exec .tdes s = .next u ∧ faultedWith u 4 0#32) ∧
  (∀ (s : State) (ts : List Tok), idle s → (∀ k, k ∈ ts → k.streamable) → ts.length ≤ s.cfg.nn.toNat →
    streamAt s 0 (streamOf ts) → s.tsLen.toNat = (streamOf ts).length →
    ∃ u, exec .tdes s = .next u ∧ faultedWith u 4 s.tsLen) ∧
  (∀ (s : State) (ts : List Tok) (n : Nat) (b0 : Byte) (cs : List Byte), idle s → (∀ k, k ∈ ts → k.streamable) →
    ts.length < s.cfg.nn.toNat → multiByte b0 n → (∀ c, c ∈ cs → continues c) → cs.length + 1 < n →
    streamAt s 0 (streamOf ts ++ b0 :: cs) → s.tsLen.toNat = (streamOf ts ++ b0 :: cs).length →
    ∃ u, exec .tdes s = .next u ∧ faultedWith u 4 s.tsLen) ∧
  (∀ (s : State) (p ntok : Nat), s.act = .tokenising p ntok → hostWaits s → s.tsLen.toNat = p →
    ∃ t, step s = .next t ∧ faultedWith t 4 s.tsLen) ∧
  (∀ (s : State) (p ntok n : Nat) (b0 : Byte) (cs : List Byte), s.act = .tokenising p ntok → hostWaits s →
    ntok < s.cfg.nn.toNat → multiByte b0 n → (∀ c, c ∈ cs → continues c) → cs.length + 1 < n →
    streamAt s p (b0 :: cs) → s.tsLen.toNat = p + 1 + cs.length → ∃ t, step s = .next t ∧ faultedWith t 4 s.tsLen)

/-- R152, R153: a proper beginning of a tree's tokens, of one token or more, raises TreeShort(tokens read); tokens left
over after a whole tree raise TreeTrailing(tokens used), whatever tokens they are. -/
def Obligations.TdesShortAndTrailingFaults : Prop :=
  (∀ (s : State) (t : CodeTree) (ts more : List Tok), idle s → ts ++ more = t.tokens → ts ≠ [] → more ≠ [] →
    (∀ k, k ∈ ts → k.streamable) → ts.length ≤ s.cfg.nn.toNat → streamAt s 0 (streamOf ts ++ [0x00#8]) →
    ∃ u, exec .tdes s = .next u ∧ faultedWith u 7 (BitVec.ofNat 32 ts.length)) ∧
  (∀ (s : State) (t : CodeTree) (more : List Tok), idle s → more ≠ [] → t.streamable →
    (∀ k, k ∈ more → k.streamable) → t.size + more.length ≤ s.cfg.nn.toNat →
    streamAt s 0 (t.stream ++ (streamOf more ++ [0x00#8])) →
    ∃ u, exec .tdes s = .next u ∧ faultedWith u 8 (BitVec.ofNat 32 t.size))

/-- The spec's inference R134 from R131 to R133 and R153: TSER, TEND, TDES rebuilds the tree, its nodes numbered in
pre-order; the stream of N leaves of `u_i` bytes is N - 1 + sum(u_i) bytes and one for the terminator. -/
def Obligations.TreeRoundTrip : Prop :=
  ∀ (s : State) (t : CodeTree), idle s → t.heldIn s = true → t.unshared → t.streamable → s.root = t.index →
    t.stream.length + 1 ≤ s.cfg.tsCap.toNat →
    ∃ u, andThen (andThen (exec .tser s) (exec .tend)) (exec .tdes) = .next u ∧
      (t.renumber 0).heldIn u = true ∧ u.root = 0#32 ∧ u.nodeCnt.toNat = t.size ∧
      u.tsLen.toNat = (t.symbols.length - 1 + (t.symbols.map fun x => (utf8Enc x).length).sum) + 1 ∧
      u.tsRpos = u.tsLen

/-- The spec's inference R160 from R131 to R133 and R153: TDES of `Pre(r)` and its terminator, then TSER and TEND,
writes the same bytes back; NODE_CNT is 2N - 1. -/
def Obligations.StreamRoundTrip : Prop :=
  ∀ (s : State) (t : CodeTree), idle s → t.streamable → t.size ≤ s.cfg.nn.toNat →
    streamAt s 0 (t.stream ++ [0x00#8]) →
    ∃ u, andThen (andThen (exec .tdes s) (exec .tser)) (exec .tend) = .next u ∧
      u.nodeCnt.toNat = 2 * t.symbols.length - 1 ∧ u.tsRpos.toNat = t.stream.length + 1 ∧
      (t.renumber 0).heldIn u = true ∧ u.root = 0#32 ∧
      u.tsLen.toNat = t.stream.length + 1 ∧ holdsAt u.tsb 0 (t.stream ++ [0x00#8])

/-! The payload bits and the unpacker. -/

/-- R201, R202, R25: a bit whose child is an internal node moves the cursor there; one whose child is a leaf emits its
symbol and returns the cursor to ROOT, or ends UNPACK with the T-th symbol. -/
def Obligations.PayloadBitMovesCursor : Prop :=
  (∀ (s : State) (right : Bool) (t : Operand) (cur : Idx) (byte : Byte) (k : Nat) (r rc : NodeRec),
    s.act = .walking t cur byte (k + 1) → cur.toNat < s.cfg.nn.toNat → s.nm.read cur.toNat = some r →
    (if right then r.right else r.left).toNat < s.cfg.nn.toNat →
    s.nm.read (if right then r.right else r.left).toNat = some rc → rc.kind = .internal →
    exec (if right then .bitRight else .bitLeft) s =
      .next { s with act := .walking t (if right then r.right else r.left) byte k }) ∧
  (∀ (s : State) (right : Bool) (t : Operand) (cur : Idx) (byte : Byte) (k : Nat) (r rc : NodeRec),
    s.act = .walking t cur byte (k + 1) → cur.toNat < s.cfg.nn.toNat → s.nm.read cur.toNat = some r →
    (if right then r.right else r.left).toNat < s.cfg.nn.toNat →
    s.nm.read (if right then r.right else r.left).toNat = some rc → rc.kind = .leaf →
    s.syLen.toNat < s.cfg.syCap.toNat →
    ∃ u, exec (if right then .bitRight else .bitLeft) s = .next u ∧
      u.syb.read s.syLen.toNat = some rc.sym ∧ u.syLen.toNat = s.syLen.toNat + 1 ∧
      sameOutside s.syb u.syb s.syLen.toNat (s.syLen.toNat + 1) ∧
      (s.syLen.toNat + 1 ≠ t.toNat →
        u = { s with syb := u.syb, syLen := u.syLen, act := .walking t s.root byte k }) ∧
      (s.syLen.toNat + 1 = t.toNat →
        u = { s with syb := u.syb, syLen := u.syLen, act := .idle, status := statusEnded s.status }))

/-- R201, R281: a bit that selects an index at or above NN, NONE among them, raises TreeMalformed with the parent
node in INFO. -/
def Obligations.MissingChildRaisesTreeMalformed : Prop :=
  ∀ (s : State) (right : Bool) (t : Operand) (cur : Idx) (byte : Byte) (k : Nat) (r : NodeRec),
    s.act = .walking t cur byte (k + 1) → cur.toNat < s.cfg.nn.toNat → s.nm.read cur.toNat = some r →
    s.cfg.nn.toNat ≤ (if right then r.right else r.left).toNat →
    ∃ u, exec (if right then .bitRight else .bitLeft) s = .next u ∧ faultedWith u 9 cur

/-- R201 corner case (a), R204: UNPACK with T = 0 ends at once, whatever ROOT, NM and PLB hold. -/
def Obligations.UnpackOfNoSymbols : Prop :=
  ∀ s : State, idle s → s.arg = 0#64 → exec .unpack s = .next { s with syLen := 0#32, plRpos := 0#32 }

/-- R203: on a degenerate tree UNPACK emits the root leaf's symbol T times and reads no payload byte. -/
def Obligations.UnpackOfDegenerateTree : Prop :=
  ∀ (s : State) (x : Sym), idle s → (CodeTree.leaf s.root x).heldIn s = true → s.arg ≠ 0#64 →
    s.arg.toNat ≤ s.cfg.syCap.toNat →
    ∃ u, exec .unpack s = .next u ∧ u.syLen.toNat = s.arg.toNat ∧ u.plRpos = 0#32 ∧
      (∀ i, i < s.arg.toNat → u.syb.read i = some x) ∧
      u = { s with syLen := u.syLen, plRpos := u.plRpos, syb := u.syb } ∧ sameOutside s.syb u.syb 0 s.arg.toNat

/-- R201, R202: UNPACK walks the tree over the payload bits: the symbols of the paths that the bits spell come out in
order, PL_RPOS is the number of bytes that hold those bits, and bits and bytes after them do not matter. -/
def Obligations.UnpackWalksPayload : Prop :=
  ∀ (s : State) (t : CodeTree) (picks : List (List Bool × Sym)), idle s → t.heldIn s = true → s.root = t.index →
    2 ≤ t.size → (∀ p, p ∈ picks → p ∈ t.paths) → s.arg.toNat = picks.length → picks ≠ [] →
    picks.length ≤ s.cfg.syCap.toNat → s.plLen.toNat ≤ s.cfg.plCap.toNat →
    holdsBits s.plb 0 (picks.flatMap Prod.fst) → (picks.flatMap Prod.fst).length ≤ 8 * s.plLen.toNat →
    ∃ u, exec .unpack s = .next u ∧ u.syLen.toNat = picks.length ∧ holdsAt u.syb 0 (picks.map Prod.snd) ∧
      u.plRpos.toNat = bytesFor (picks.flatMap Prod.fst).length ∧
      u = { s with syLen := u.syLen, plRpos := u.plRpos, syb := u.syb } ∧ sameOutside s.syb u.syb 0 picks.length

/-- R201, R204, R286: the faults of UNPACK before its walk, in their order: T above SY_CAP, then a ROOT that names no
record, the empty tree's NONE among them. -/
def Obligations.UnpackFaultsBeforeTheWalk : Prop :=
  (∀ s : State, idle s → s.cfg.syCap.toNat < s.arg.toNat →
    ∃ u, exec .unpack s = .next u ∧ faultedWith u 3 3#32) ∧
  (∀ s : State, idle s → s.arg ≠ 0#64 → s.arg.toNat ≤ s.cfg.syCap.toNat → s.cfg.nn.toNat ≤ s.root.toNat →
    ∃ u, exec .unpack s = .next u ∧ faultedWith u 9 s.root)

/-- R201: a payload that ends before T symbols are out, also in the middle of a code, raises PayloadTrunc with the
symbols emitted so far. -/
def Obligations.UnpackOfTruncatedPayload : Prop :=
  ∀ (s : State) (t : CodeTree) (picks : List (List Bool × Sym)) (cut rest : List Bool) (x : Sym),
    idle s → t.heldIn s = true → s.root = t.index → 2 ≤ t.size → (∀ p, p ∈ picks → p ∈ t.paths) →
    (cut ++ rest, x) ∈ t.paths → rest ≠ [] → picks.length < s.arg.toNat → s.arg.toNat ≤ s.cfg.syCap.toNat →
    s.plLen.toNat ≤ s.cfg.plCap.toNat → holdsBits s.plb 0 (picks.flatMap Prod.fst ++ cut) →
    (picks.flatMap Prod.fst ++ cut).length = 8 * s.plLen.toNat →
    ∃ u, exec .unpack s = .next u ∧ faultedWith u 10 (BitVec.ofNat 32 picks.length)

/-- The spec's inference R205 from R181, R182, R201 to R203 and R97: what PKINIT and a PKPUT per symbol packed with a
tree's own codes, UNPACK gives back, reading exactly the packed bytes. -/
def Obligations.PayloadRoundTrip : Prop :=
  ∀ (s : State) (t : CodeTree) (picks : List (List Bool × Sym)), idle s → Inv s → t.heldIn s = true → s.root = t.index →
    (∀ p, p ∈ picks → p ∈ t.paths ∧ p.1.length ≤ 63) → picks.length ≤ s.cfg.syCap.toNat →
    (picks.flatMap Prod.fst).length ≤ 8 * s.cfg.plCap.toNat →
    ∃ u, andThen (andThen (exec .pkinit s) (packText (picks.map fun p => BitVec.ofNat 64 (codeNat p.1))))
        (fun v => exec .unpack { v with arg := BitVec.ofNat 64 picks.length }) = .next u ∧
      u.syLen.toNat = picks.length ∧ holdsAt u.syb 0 (picks.map Prod.snd) ∧ u.plRpos = u.plLen

/-- The model's choice (logs 9 and 10): a command has no meaning while one runs (R326); a token with no TDES reading
tokens and a payload bit with no UNPACK holding one have none either (R100, R111). -/
def Obligations.CodesOutOfPlaceAreRefused : Prop :=
  (∀ (s : State) (i : Instr), s.busy = true → s.faulted = false → isCommand i = true →
    exec i s = .refused .hostWhileBusy) ∧
  (∀ (s : State) (i : Instr), s.act = .idle → isCommand i = false → i.wellFormed = true →
    exec i s = .refused .outsideStream)

/-! What changes and what does not. -/

/-- R61: what each command may change when it ends normally; everything else, and every entry outside those it stores
to, is as it was; the free-value counter may advance (log 4). -/
def Obligations.CommandFrames : Prop :=
  ∀ (s t : State) (i : Instr), idle s → exec i s = .next t → t.faulted = false →
    match i with
    | .nop => t = s
    | .reset => True
    | .pkinit => t = { s with plLen := t.plLen, free := t.free }
    | .pkput =>
      t = { s with plLen := t.plLen, free := t.free, plb := t.plb, draws := t.draws } ∧
        sameOutside s.plb t.plb (packedBits s / 8) t.plLen.toNat
    | .unpack =>
      t = { s with syLen := t.syLen, plRpos := t.plRpos, syb := t.syb, draws := t.draws } ∧
        sameOutside s.syb t.syb 0 t.syLen.toNat
    | .tser =>
      t = { s with tsLen := t.tsLen, tsb := t.tsb, draws := t.draws } ∧ sameOutside s.tsb t.tsb 0 t.tsLen.toNat
    | .tend =>
      t = { s with tsLen := t.tsLen, tsb := t.tsb } ∧
        sameOutside s.tsb t.tsb s.tsLen.toNat (s.tsLen.toNat + 1)
    | .tdes =>
      t = { s with root := t.root, tsRpos := t.tsRpos, nodeCnt := t.nodeCnt, nm := t.nm, draws := t.draws } ∧
        sameOutside s.nm t.nm 0 t.nodeCnt.toNat
    | .tokEnd | .tokInternal | .tokLeaf1 _ | .tokLeaf2 _ | .tokLeaf3 _ | .tokLeaf4 _ | .bitLeft | .bitRight => True

/-- R151 to R153, R201, R202: what a token and a payload bit may change when they raise no fault. -/
def Obligations.TokenAndBitFrames : Prop :=
  (∀ (s t : State) (i : Instr) (p ntok : Nat), s.act = .tokenising p ntok → exec i s = .next t →
    s.faulted = false → t.faulted = false → isCommand i = false →
    (i = .tokEnd →
      t = { s with nm := t.nm, root := t.root, tsRpos := t.tsRpos, nodeCnt := t.nodeCnt, status := t.status,
                   act := t.act, draws := t.draws } ∧ sameOutside s.nm t.nm 0 ntok) ∧
    (i ≠ .tokEnd → t = { s with nm := t.nm, act := t.act } ∧ sameOutside s.nm t.nm ntok (ntok + 1))) ∧
  (∀ (s t : State) (i : Instr) (T : Operand) (cur : Idx) (byte : Byte) (k : Nat), s.act = .walking T cur byte k →
    exec i s = .next t → s.faulted = false → t.faulted = false → isCommand i = false →
    t = { s with syb := t.syb, syLen := t.syLen, status := t.status, act := t.act, draws := t.draws } ∧
      sameOutside s.syb t.syb s.syLen.toNat (s.syLen.toNat + 1))

/-! The host interface. -/

/-- R23, R234, R37: an idle block answers `CsrRead(n)` with register `n`, zero-extended; CMD and the numbers from 13
up answer 0. -/
def Obligations.HostReadsRegisters : Prop :=
  ∀ (s : State) (n : Nat) (rest : List HostAction), idle s → s.host = .csrRead n :: rest →
    step s = .next { s with host := rest, seen := .csr ((registerTable s)[n]?.getD 0#64) :: s.seen }

/-- R235, R33, R37, R38: `CsrWrite(n, v)` on an idle block, for each register but CMD. -/
def Obligations.HostWritesRegisters : Prop :=
  ∀ (s : State) (n : Nat) (v : Operand) (rest : List HostAction), idle s → n ≠ 0 → s.host = .csrWrite n v :: rest →
    ∃ t, step s = .next t ∧
      (n = 4 → t = { s with host := rest, arg := v }) ∧
      (n = 5 → t = { s with host := rest, root := v.setWidth 32 }) ∧
      (n = 7 → t = { s with host := rest, tsLen := t.tsLen } ∧
        t.tsLen.toNat = min (v.setWidth 32 : Idx).toNat s.cfg.tsCap.toNat) ∧
      (n = 9 → t = { s with host := rest, plLen := t.plLen, free := 0#3 } ∧
        t.plLen.toNat = min (v.setWidth 32 : Idx).toNat s.cfg.plCap.toNat) ∧
      (n ∉ [4, 5, 7, 9] → t = { s with host := rest })

/-- R237, R67: `MemWrite` on an idle block stores the entry below the capacity and is ignored at or above it; a write of
SYB is ignored. -/
def Obligations.HostWritesMemory : Prop :=
  (∀ (s : State) (i : Nat) (r : NodeRec) (rest : List HostAction), idle s → s.host = .writeNode i r :: rest →
    ∃ t, step s = .next t ∧ t = { s with host := rest, nm := t.nm } ∧ sameOutside s.nm t.nm i (i + 1) ∧
      t.nm.read i = if i < s.cfg.nn.toNat then some r else s.nm.read i) ∧
  (∀ (s : State) (i : Nat) (b : Byte) (rest : List HostAction), idle s → s.host = .writeTsb i b :: rest →
    ∃ t, step s = .next t ∧ t = { s with host := rest, tsb := t.tsb } ∧ sameOutside s.tsb t.tsb i (i + 1) ∧
      t.tsb.read i = if i < s.cfg.tsCap.toNat then some b else s.tsb.read i) ∧
  (∀ (s : State) (i : Nat) (b : Byte) (rest : List HostAction), idle s → s.host = .writePlb i b :: rest →
    ∃ t, step s = .next t ∧ t = { s with host := rest, plb := t.plb } ∧ sameOutside s.plb t.plb i (i + 1) ∧
      t.plb.read i = if i < s.cfg.plCap.toNat then some b else s.plb.read i) ∧
  (∀ (s : State) (i : Nat) (x : Sym) (rest : List HostAction), idle s → s.host = .writeSyb i x :: rest →
    step s = .next { s with host := rest })

/-- R236, R67, R44: `MemRead` on an idle block answers the entry where it is defined, 0 at or above the capacity, and
some value, drawing a free value (log 4), where it is not defined. -/
def Obligations.HostReadsMemory : Prop :=
  (∀ (s : State) (sp : Space) (i : Nat) (r : HostReply) (rest : List HostAction), idle s →
    s.host = .memRead sp i :: rest → i < s.capacity sp → s.entry sp i = some r →
    step s = .next { s with host := rest, seen := r :: s.seen }) ∧
  (∀ (s : State) (sp : Space) (i : Nat) (rest : List HostAction), idle s → s.host = .memRead sp i :: rest →
    s.capacity sp ≤ i → step s = .next { s with host := rest, seen := zeroReply sp :: s.seen }) ∧
  (∀ (s : State) (sp : Space) (i : Nat) (rest : List HostAction), idle s → s.host = .memRead sp i :: rest →
    i < s.capacity sp → s.entry sp i = none →
    ∃ r, step s = .next { s with host := rest, seen := r :: s.seen, draws := s.draws + 1 })

/-! Encodings. -/

/-- R90, R91, R101 to R104, R111: decoding an instruction's words gives it back, for every well-formed instruction and
every operand. -/
def Obligations.DecodeOfEncode : Prop :=
  ∀ i : Instr, i.wellFormed = true → decode (encode i) = .ok i

/-- R91, R101 to R105, R111: the words that decode to an instruction are its encoding, so no two words of a stream
mean the same instruction. -/
def Obligations.EncodeOfDecode : Prop :=
  ∀ (c : Code) (i : Instr), decode c = .ok i → encode i = c

/-- The spec's inference in R105 from R104 and R105: for every scalar value from 2 up, decoding `Utf8Enc` of it gives
a well-formed leaf token of that symbol and of its length, whatever follows. -/
def Obligations.Utf8RoundTrip : Prop :=
  ∀ (x : Sym) (rest : List Byte), isScalar x = true → 2 ≤ x.toNat →
    ∃ i, decodeToken (utf8Enc x ++ rest) = .ok (i, rest) ∧ leafSym i = some x ∧ tokenLen i = (utf8Enc x).length ∧
      i.wellFormed = true

/-- R91, R101 to R104, R111: some words of the spec's encodings, written out, and what they decode to. -/
def Obligations.SpecWordsDecode : Prop :=
  decode (.command 0b00010001#8) = .ok .pkput ∧ decode (.command 0b00110001#8) = .ok .tend ∧
  decode (.command 0b01000000#8) = .ok .tdes ∧ decode (.command 0b00010010#8) = .error .illegalOpcode ∧
  decode (.token [0b00000001#8]) = .ok .tokInternal ∧ decode (.token [0b01100001#8]) = .ok (.tokLeaf1 0x61#7) ∧
  decode (.token [0xC3#8, 0xA9#8]) = .ok (.tokLeaf2 0xE9#11) ∧
  decode (.token [0xE2#8, 0x82#8, 0xAC#8]) = .ok (.tokLeaf3 0x20AC#16) ∧
  decode (.token [0xF0#8, 0x9F#8, 0x98#8, 0x80#8]) = .ok (.tokLeaf4 0x1F600#21) ∧
  decode (.bit true) = .ok .bitRight

/-! The whole machine. -/

/-- The machine's invariant holds after reset: the spec's inference R39, what R25 to R27 and R44 say of flags, causes
and memories, and the model's own bounds on scratch and its canonical form of memories (logs 1, 3 and 26). -/
def Obligations.InvariantAtReset : Prop := Inv State.reset

/-- The spec's inference R39 and the model's own form (logs 1, 3 and 26): every step keeps the invariant: canonical
memories, lengths within their buffers, a defined last byte under free bits, flags and causes that agree, scratch
within its bounds. -/
def Obligations.StepKeepsInvariant : Prop :=
  ∀ s t : State, Inv s → step s = .next t → Inv t

/-- The last clause of the spec's inference R39, for a host that keeps R330 (log 26): the packer's free bits stay 0
unless the host writes the last payload byte. -/
def Obligations.StepKeepsFreeBitsZero : Prop :=
  ∀ s t : State, Inv s → freeBitsZero s →
    (∀ i b, s.host.head? = some (.writePlb i b) → i ≠ s.plLen.toNat - 1) →
    step s = .next t → t.faulted = false → freeBitsZero t

/-- R67, and the spec's inference R340 from the commands' pseudocode: from every state of the invariant the machine
takes a step: no unit forms an index out of range, and no access is refused. -/
def Obligations.StepAlwaysGoesOn : Prop :=
  ∀ s : State, Inv s → ∃ t, step s = .next t

/-- The spec's inference R340 from the commands' pseudocode: every command ends, in a state between commands, whatever
the memories hold. -/
def Obligations.EveryCommandEnds : Prop :=
  ∀ (s : State) (i : Instr), Inv s → s.act = .idle → isCommand i = true →
    ∃ t, exec i s = .next t ∧ t.act = .idle ∧ t.busy = false ∧ Inv t

/-- R5, R25: no step leaves the block with a command in flight if it began between commands: the host never sees a
command half done. -/
def Obligations.StepsRunCommandsWhole : Prop :=
  ∀ s t : State, Inv s → s.act = .idle → step s = .next t → t.act = .idle
end

