-- ==== Sys2Proof/Laws/Decode.lean ====
section
/-! SUPPORT. What the token decoder answers: a token, its length, and that U+0000 and U+0001 are never leaves. -/

namespace Sys2Proof

theorem takeConts_length {n : Nat} {bs cs rest : List Byte} (h : takeConts n bs = .ok (cs, rest)) :
    cs.length = n ∧ bs = cs ++ rest := by
  induction n generalizing bs cs rest with
  | zero =>
    simp only [takeConts, Except.ok.injEq, Prod.mk.injEq] at h
    obtain ⟨rfl, rfl⟩ := h
    exact ⟨rfl, rfl⟩
  | succ n ih =>
    cases bs with
    | nil => simp [takeConts] at h
    | cons b bs =>
      simp only [takeConts] at h
      split at h
      · split at h
        · rename_i cs' rest' he
          simp only [Except.ok.injEq, Prod.mk.injEq] at h
          obtain ⟨rfl, rfl⟩ := h
          obtain ⟨h1, h2⟩ := ih he
          exact ⟨by simp [h1], by simp [h2]⟩
        · simp at h
      · simp at h

theorem contCount_zero {b0 : Byte} (h : contCount b0 = some 0) : b0.toNat ≤ 0x7F := by
  unfold contCount at h
  split at h
  · assumption
  · split at h
    · simp at h
    · split at h
      · simp at h
      · split at h <;> simp at h

theorem contCount_le {b0 : Byte} {n : Nat} (h : contCount b0 = some n) : n ≤ 3 := by
  unfold contCount at h
  split at h
  · simp at h; omega
  · split at h
    · simp at h; omega
    · split at h
      · simp at h; omega
      · split at h <;> simp at h; omega

theorem leafOfBytes_isSome (b0 : Byte) (cs : List Byte) (h : cs.length ≤ 3) :
    ∃ i, leafOfBytes b0 cs = some i ∧ tokenLen i = cs.length + 1 := by
  match cs, h with
  | [], _ => exact ⟨_, rfl, rfl⟩
  | [_], _ => exact ⟨_, rfl, rfl⟩
  | [_, _], _ => exact ⟨_, rfl, rfl⟩
  | [_, _, _], _ => exact ⟨_, rfl, rfl⟩
  | _ :: _ :: _ :: _ :: _, h => simp at h; omega

/-- A decoded token is END, INTERNAL or a leaf; it takes at least one byte, and its bytes and the rest are all. -/
theorem decodeToken_length {bs rest : List Byte} {i : Instr} (h : decodeToken bs = .ok (i, rest)) :
    1 ≤ tokenLen i ∧ tokenLen i + rest.length = bs.length := by
  cases bs with
  | nil => simp [decodeToken] at h
  | cons b0 bs =>
    simp only [decodeToken] at h
    split at h
    · simp only [Except.ok.injEq, Prod.mk.injEq] at h
      obtain ⟨rfl, rfl⟩ := h; exact ⟨le_refl _, by simp [tokenLen]; omega⟩
    · split at h
      · simp only [Except.ok.injEq, Prod.mk.injEq] at h
        obtain ⟨rfl, rfl⟩ := h; exact ⟨le_refl _, by simp [tokenLen]; omega⟩
      · split at h
        · simp at h
        · rename_i n hn
          split at h
          · simp at h
          · rename_i cs rest' hc
            obtain ⟨h1, h2⟩ := takeConts_length hc
            have := contCount_le hn
            obtain ⟨i', hi, hlen⟩ := leafOfBytes_isSome b0 cs (by omega)
            rw [hi] at h
            simp only [Except.ok.injEq, Prod.mk.injEq] at h
            obtain ⟨rfl, rfl⟩ := h
            exact ⟨by omega, by rw [hlen, h2]; simp; omega⟩

/-- A decoded one-byte leaf carries neither U+0000 nor U+0001: those bytes are END and INTERNAL (R106). -/
theorem decodeToken_leaf1 {bs rest : List Byte} {x : BitVec 7} (h : decodeToken bs = .ok (.tokLeaf1 x, rest)) :
    2 ≤ x.toNat := by
  cases bs with
  | nil => simp [decodeToken] at h
  | cons b0 bs =>
    simp only [decodeToken] at h
    split at h
    · simp at h
    · split at h
      · simp at h
      · rename_i h0 h1
        split at h
        · simp at h
        · rename_i n hn
          split at h
          · simp at h
          · rename_i cs rest' hc
            split at h
            · rename_i i hi
              simp only [Except.ok.injEq, Prod.mk.injEq] at h
              obtain ⟨hi', -⟩ := h
              subst hi'
              match cs, hi with
              | [], hi =>
                have hn0 : n = 0 := by have := (takeConts_length hc).1; simpa using this.symm
                subst hn0
                have hle := contCount_zero hn
                simp only [leafOfBytes, Option.some.injEq, Instr.tokLeaf1.injEq] at hi
                subst hi
                have e : (b0.extractLsb' 0 7).toNat = b0.toNat := by
                  simp [BitVec.extractLsb'_toNat]; omega
                rw [e]
                have h0' : b0.toNat ≠ 0 := fun h => h0 (BitVec.eq_of_toNat_eq (by simpa using h))
                have h1' : b0.toNat ≠ 1 := fun h => h1 (BitVec.eq_of_toNat_eq (by simpa using h))
                omega
              | [_], hi => simp [leafOfBytes] at hi
              | [_, _], hi => simp [leafOfBytes] at hi
              | [_, _, _], hi => simp [leafOfBytes] at hi
              | _ :: _ :: _ :: _ :: _, hi => simp [leafOfBytes] at hi
            · simp at h

end Sys2Proof
end

