-- ==== Sys2Proof/Laws/Encoding.lean ====
section
/-! SUPPORT. Encodings: the byte forms of the four leaf tokens, that the decoder reads back what the encoder writes
whatever follows, that what it reads is the encoding, and `Utf8Enc` as the encoding of a leaf token. -/

namespace Sys2Proof

theorem isCont_contByte (y : BitVec 6) : isCont (contByte y) = true := by
  revert y; decide

theorem contBits_contByte (y : BitVec 6) : contBits (contByte y) = y := by
  revert y; decide

theorem contByte_contBits : ∀ b : Byte, isCont b = true → contByte (contBits b) = b := by decide

/-- The first byte of a two-byte leaf. -/
theorem lead2 : ∀ y : BitVec 5, (0b110#3 ++ y : Byte).extractLsb' 0 5 = y ∧
    (2 ≤ y.toNat → contCount (0b110#3 ++ y) = some 1) ∧
    (0b110#3 ++ y : Byte) ≠ 0x00#8 ∧ (0b110#3 ++ y : Byte) ≠ 0x01#8 := by decide

/-- The first byte of a three-byte leaf. -/
theorem lead3 : ∀ y : BitVec 4, (0b1110#4 ++ y : Byte).extractLsb' 0 4 = y ∧
    contCount (0b1110#4 ++ y) = some 2 ∧
    (0b1110#4 ++ y : Byte) ≠ 0x00#8 ∧ (0b1110#4 ++ y : Byte) ≠ 0x01#8 := by decide

/-- The first byte of a four-byte leaf. -/
theorem lead4 : ∀ y : BitVec 3, (0b11110#5 ++ y : Byte).extractLsb' 0 3 = y ∧
    (y.toNat ≤ 4 → contCount (0b11110#5 ++ y) = some 3) ∧
    (0b11110#5 ++ y : Byte) ≠ 0x00#8 ∧ (0b11110#5 ++ y : Byte) ≠ 0x01#8 := by decide

theorem lead1_back : ∀ b : Byte, contCount b = some 0 → (0b0#1 ++ b.extractLsb' 0 7 : Byte) = b := by decide
theorem lead2_back : ∀ b : Byte, contCount b = some 1 → (0b110#3 ++ b.extractLsb' 0 5 : Byte) = b := by decide
theorem lead3_back : ∀ b : Byte, contCount b = some 2 → (0b1110#4 ++ b.extractLsb' 0 4 : Byte) = b := by decide
theorem lead4_back : ∀ b : Byte, contCount b = some 3 → (0b11110#5 ++ b.extractLsb' 0 3 : Byte) = b := by decide

theorem join11 (x : BitVec 11) : x.extractLsb' 6 5 ++ x.extractLsb' 0 6 = x := by
  apply BitVec.eq_of_getLsbD_eq
  intro i hi
  simp only [BitVec.getLsbD_append, BitVec.getLsbD_extractLsb']
  split
  · simp [*]
  · rw [decide_eq_true (by omega), Bool.true_and]; congr 1; omega

theorem join16 (x : BitVec 16) : x.extractLsb' 12 4 ++ x.extractLsb' 6 6 ++ x.extractLsb' 0 6 = x := by
  apply BitVec.eq_of_getLsbD_eq
  intro i hi
  simp only [BitVec.getLsbD_append, BitVec.getLsbD_extractLsb']
  split
  · simp [*]
  · split
    · rw [decide_eq_true (by omega), Bool.true_and]; congr 1; omega
    · rw [decide_eq_true (by omega), Bool.true_and]; congr 1; omega

theorem join21 (x : BitVec 21) :
    x.extractLsb' 18 3 ++ x.extractLsb' 12 6 ++ x.extractLsb' 6 6 ++ x.extractLsb' 0 6 = x := by
  apply BitVec.eq_of_getLsbD_eq
  intro i hi
  simp only [BitVec.getLsbD_append, BitVec.getLsbD_extractLsb']
  split
  · simp [*]
  · split
    · rw [decide_eq_true (by omega), Bool.true_and]; congr 1; omega
    · split
      · rw [decide_eq_true (by omega), Bool.true_and]; congr 1; omega
      · rw [decide_eq_true (by omega), Bool.true_and]; congr 1; omega

theorem takeConts_append (cs rest : List Byte) (h : ∀ b ∈ cs, isCont b = true) :
    takeConts cs.length (cs ++ rest) = .ok (cs, rest) := by
  induction cs with
  | nil => rfl
  | cons b cs ih =>
    simp only [List.length_cons, List.cons_append, takeConts]
    rw [if_pos (h b (by simp)), ih fun c hc => h c (by simp [hc])]

theorem takeConts_isCont {n : Nat} {bs cs rest : List Byte} (h : takeConts n bs = .ok (cs, rest)) :
    ∀ b ∈ cs, isCont b = true := by
  induction n generalizing bs cs rest with
  | zero => simp only [takeConts, Except.ok.injEq, Prod.mk.injEq] at h; obtain ⟨rfl, -⟩ := h; simp
  | succ n ih =>
    cases bs with
    | nil => simp [takeConts] at h
    | cons b bs =>
      simp only [takeConts] at h
      split at h
      · rename_i hb
        split at h
        · rename_i cs' rest' he
          simp only [Except.ok.injEq, Prod.mk.injEq] at h
          obtain ⟨rfl, -⟩ := h
          intro c hc
          rcases List.mem_cons.mp hc with rfl | hc
          · exact hb
          · exact ih he c hc
        · simp at h
      · simp at h

/-- A leaf token whose first byte tells its length decodes to the leaf of its bytes, whatever follows. -/
theorem decodeToken_leaf {b0 : Byte} {cs : List Byte} {i : Instr} (rest : List Byte) (h0 : b0 ≠ 0x00#8)
    (h1 : b0 ≠ 0x01#8) (hc : contCount b0 = some cs.length) (hcs : ∀ b ∈ cs, isCont b = true)
    (hi : leafOfBytes b0 cs = some i) : decodeToken (b0 :: (cs ++ rest)) = .ok (i, rest) := by
  simp only [decodeToken, h0, h1, if_false, hc, takeConts_append cs rest hcs, hi]

/-- The bytes of a well-formed token decode to it, whatever follows (R100 to R105). -/
theorem decodeToken_encode {i : Instr} {bs : List Byte} (rest : List Byte) (hw : i.wellFormed = true)
    (he : encode i = .token bs) : decodeToken (bs ++ rest) = .ok (i, rest) := by
  cases i with
  | tokEnd => cases he; rfl
  | tokInternal => cases he; rfl
  | tokLeaf1 x =>
    cases he
    have hx : 2 ≤ x.toNat := by simpa [Instr.wellFormed] using hw
    have key : ∀ x : BitVec 7, 2 ≤ x.toNat → (0b0#1 ++ x : Byte) ≠ 0x00#8 ∧ (0b0#1 ++ x : Byte) ≠ 0x01#8 ∧
      contCount (0b0#1 ++ x) = some 0 ∧ (0b0#1 ++ x : Byte).extractLsb' 0 7 = x := by decide
    obtain ⟨h0, h1, h2, h3⟩ := key x hx
    exact decodeToken_leaf (cs := []) rest h0 h1 h2 (by simp) (by rw [leafOfBytes, h3])
  | tokLeaf2 x =>
    cases he
    have hx : 0x80 ≤ x.toNat := by simpa [Instr.wellFormed] using hw
    obtain ⟨h1, h2, h3, h4⟩ := lead2 (x.extractLsb' 6 5)
    have h5 : 2 ≤ (x.extractLsb' 6 5).toNat := by
      simp only [BitVec.extractLsb'_toNat, Nat.shiftRight_eq_div_pow]; omega
    exact decodeToken_leaf (cs := [_]) rest h3 h4 (h2 h5) (by simp [isCont_contByte])
      (by rw [leafOfBytes, h1, contBits_contByte]; exact congrArg (some ∘ Instr.tokLeaf2) (join11 x))
  | tokLeaf3 x =>
    cases he
    obtain ⟨h1, h2, h3, h4⟩ := lead3 (x.extractLsb' 12 4)
    exact decodeToken_leaf (cs := [_, _]) rest h3 h4 h2 (by simp [isCont_contByte])
      (by rw [leafOfBytes, h1, contBits_contByte, contBits_contByte]; exact congrArg (some ∘ Instr.tokLeaf3) (join16 x))
  | tokLeaf4 x =>
    cases he
    have hx : x.toNat ≤ 0x10FFFF := by simp [Instr.wellFormed] at hw; exact hw.2
    obtain ⟨h1, h2, h3, h4⟩ := lead4 (x.extractLsb' 18 3)
    have h5 : (x.extractLsb' 18 3).toNat ≤ 4 := by
      simp only [BitVec.extractLsb'_toNat, Nat.shiftRight_eq_div_pow]; omega
    exact decodeToken_leaf (cs := [_, _, _]) rest h3 h4 (h2 h5) (by simp [isCont_contByte])
      (by rw [leafOfBytes, h1, contBits_contByte, contBits_contByte, contBits_contByte]
          exact congrArg (some ∘ Instr.tokLeaf4) (join21 x))
  | _ => cases he

/-- The bytes a token was decoded from are its encoding. -/
theorem encode_decodeToken {i : Instr} {bs rest : List Byte} (h : decodeToken bs = .ok (i, rest)) :
    ∃ ts, bs = ts ++ rest ∧ encode i = .token ts := by
  cases bs with
  | nil => simp [decodeToken] at h
  | cons b0 bs =>
    simp only [decodeToken] at h
    split at h
    · rename_i h0; cases h; exact ⟨[b0], rfl, by rw [h0]; rfl⟩
    · split at h
      · rename_i h1; cases h; exact ⟨[b0], rfl, by rw [h1]; rfl⟩
      · split at h
        · simp at h
        · rename_i n hn
          split at h
          · simp at h
          · rename_i cs rest' hc
            split at h
            · rename_i i' hi
              simp only [Except.ok.injEq, Prod.mk.injEq] at h
              obtain ⟨rfl, rfl⟩ := h
              obtain ⟨hlen, happ⟩ := takeConts_length hc
              have hcont := takeConts_isCont hc
              refine ⟨b0 :: cs, by rw [happ]; rfl, ?_⟩
              match cs, hi, hlen, hcont with
              | [], hi, hlen, _ =>
                cases hi; subst hlen
                show Code.token [0b0#1 ++ b0.extractLsb' 0 7] = _
                rw [lead1_back b0 hn]
              | [b1], hi, hlen, hcont =>
                cases hi; subst hlen
                show Code.token [0b110#3 ++ (b0.extractLsb' 0 5 ++ contBits b1).extractLsb' 6 5,
                  contByte ((b0.extractLsb' 0 5 ++ contBits b1).extractLsb' 0 6)] = _
                rw [BitVec.extractLsb'_append_eq_left, BitVec.extractLsb'_append_eq_right, lead2_back b0 hn,
                  contByte_contBits b1 (hcont b1 (by simp))]
              | [b1, b2], hi, hlen, hcont =>
                cases hi; subst hlen
                show Code.token [0b1110#4 ++ (b0.extractLsb' 0 4 ++ contBits b1 ++ contBits b2).extractLsb' 12 4,
                  contByte ((b0.extractLsb' 0 4 ++ contBits b1 ++ contBits b2).extractLsb' 6 6),
                  contByte ((b0.extractLsb' 0 4 ++ contBits b1 ++ contBits b2).extractLsb' 0 6)] = _
                rw [BitVec.extractLsb'_append_eq_of_le (by omega), BitVec.extractLsb'_append_eq_left,
                  BitVec.extractLsb'_append_eq_of_le (by omega), BitVec.extractLsb'_append_eq_right,
                  BitVec.extractLsb'_append_eq_right, lead3_back b0 hn,
                  contByte_contBits b1 (hcont b1 (by simp)), contByte_contBits b2 (hcont b2 (by simp))]
              | [b1, b2, b3], hi, hlen, hcont =>
                cases hi; subst hlen
                show Code.token
                  [0b11110#5 ++ (b0.extractLsb' 0 3 ++ contBits b1 ++ contBits b2 ++ contBits b3).extractLsb' 18 3,
                  contByte ((b0.extractLsb' 0 3 ++ contBits b1 ++ contBits b2 ++ contBits b3).extractLsb' 12 6),
                  contByte ((b0.extractLsb' 0 3 ++ contBits b1 ++ contBits b2 ++ contBits b3).extractLsb' 6 6),
                  contByte ((b0.extractLsb' 0 3 ++ contBits b1 ++ contBits b2 ++ contBits b3).extractLsb' 0 6)] = _
                rw [BitVec.extractLsb'_append_eq_of_le (by omega), BitVec.extractLsb'_append_eq_of_le (by omega),
                  BitVec.extractLsb'_append_eq_left, BitVec.extractLsb'_append_eq_of_le (by omega),
                  BitVec.extractLsb'_append_eq_of_le (by omega), BitVec.extractLsb'_append_eq_right,
                  BitVec.extractLsb'_append_eq_of_le (by omega), BitVec.extractLsb'_append_eq_right,
                  BitVec.extractLsb'_append_eq_right, lead4_back b0 hn, contByte_contBits b1 (hcont b1 (by simp)),
                  contByte_contBits b2 (hcont b2 (by simp)), contByte_contBits b3 (hcont b3 (by simp))]
              | _ :: _ :: _ :: _ :: _, hi, _, _ => simp [leafOfBytes] at hi
            · simp at h

theorem encode_token {i : Instr} (h : 1 ≤ tokenLen i) :
    ∃ b bs, encode i = .token (b :: bs) ∧ tokenLen i = bs.length + 1 := by
  cases i with
  | tokEnd | tokInternal => exact ⟨_, _, rfl, rfl⟩
  | tokLeaf1 | tokLeaf2 | tokLeaf3 | tokLeaf4 => exact ⟨_, _, rfl, rfl⟩
  | _ => simp [tokenLen] at h

theorem extract_toNat (x : Sym) {n : Nat} (h : x.toNat < 2 ^ n) : (x.extractLsb' 0 n).toNat = x.toNat := by
  simp only [BitVec.extractLsb'_toNat, Nat.shiftRight_zero, Nat.mod_eq_of_lt h]

/-- `Utf8Enc` of a scalar value from 2 up is the encoding of a well-formed leaf token of that symbol (R104, R105). -/
theorem leafToken_spec {x : Sym} (hx : Machine.isScalar x = true) (h2 : 2 ≤ x.toNat) :
    encode (leafToken x) = .token (utf8Enc x) ∧ (leafToken x).wellFormed = true ∧ leafSym (leafToken x) = some x ∧
      tokenLen (leafToken x) = (utf8Enc x).length ∧ utf8Enc x ≠ [] := by
  have hx' : x.toNat ≤ 0x10FFFF ∧ (x.toNat < 0xD800 ∨ 0xDFFF < x.toNat) := by
    simpa [Machine.isScalar] using hx
  have hsym : ∀ n, x.toNat < 2 ^ n → (x.extractLsb' 0 n).setWidth 21 = x := fun n h => by
    apply BitVec.eq_of_toNat_eq
    rw [BitVec.toNat_setWidth, extract_toNat x h, Nat.mod_eq_of_lt x.isLt]
  unfold utf8Enc leafToken
  split
  · refine ⟨rfl, ?_, congrArg some (hsym 7 (by omega)), rfl, by simp [encode, Code.bytes]⟩
    simp only [Instr.wellFormed, extract_toNat x (n := 7) (by omega), h2, decide_true]
  · split
    · refine ⟨rfl, ?_, congrArg some (hsym 11 (by omega)), rfl, by simp [encode, Code.bytes]⟩
      simp only [Instr.wellFormed, extract_toNat x (n := 11) (by omega), decide_eq_true_eq]; omega
    · split
      · refine ⟨rfl, ?_, congrArg some (hsym 16 (by omega)), rfl, by simp [encode, Code.bytes]⟩
        simp only [Instr.wellFormed, extract_toNat x (n := 16) (by omega), Bool.and_eq_true, decide_eq_true_eq,
          Bool.not_eq_true', Bool.and_eq_false_iff, decide_eq_false_iff_not]
        omega
      · refine ⟨rfl, ?_, rfl, rfl, by simp [encode, Code.bytes]⟩
        simp only [Instr.wellFormed, Bool.and_eq_true, decide_eq_true_eq]
        omega

end Sys2Proof
end

