-- ==== Sys2Proof/Laws/Memory.lean ====
section
/-! SUPPORT. The laws of a memory: a read after a write, the canonical form under a write, and that equal reads of
canonical memories are equal data. -/

namespace Sys2Proof.Machine

variable {α : Type}

theorem Memory.read_write (m : Memory α) (a : Nat) (v : α) (b : Nat) :
    (m.write a v).read b = if a = b then some v else m.read b := by
  induction m with
  | nil => simp [Memory.write, Memory.read]
  | cons e m ih =>
    obtain ⟨k, w⟩ := e
    by_cases h1 : a < k
    · simp [Memory.write, Memory.read, h1]
    · by_cases h2 : a = k
      · subst h2
        by_cases h : a = b <;> simp [Memory.write, Memory.read, h]
      · by_cases h3 : k = b
        · subst h3
          simp [Memory.write, Memory.read, h1, h2]
        · simp [Memory.write, Memory.read, h1, h2, h3, ih]

@[simp] theorem Memory.read_write_same (m : Memory α) (a : Nat) (v : α) : (m.write a v).read a = some v := by
  simp [Memory.read_write]

theorem Memory.read_write_other (m : Memory α) {a b : Nat} (v : α) (h : a ≠ b) :
    (m.write a v).read b = m.read b := by
  simp [Memory.read_write, h]

@[simp] theorem Memory.read_nil (a : Nat) : Memory.read ([] : Memory α) a = none := rfl

@[simp] theorem Memory.wf_nil (cap : Nat) : Memory.wf cap ([] : Memory α) = true := rfl

theorem Memory.wfFrom_cons (cap lo k : Nat) (w : α) (m : Memory α) :
    Memory.wfFrom cap lo ((k, w) :: m) = true ↔ lo ≤ k ∧ k < cap ∧ Memory.wfFrom cap (k + 1) m = true := by
  simp [Memory.wfFrom, and_assoc]

theorem Memory.wfFrom_write {cap : Nat} (m : Memory α) {lo a : Nat} (v : α)
    (h : Memory.wfFrom cap lo m = true) (hlo : lo ≤ a) (hcap : a < cap) :
    Memory.wfFrom cap lo (m.write a v) = true := by
  induction m generalizing lo with
  | nil => simp [Memory.write, Memory.wfFrom, hlo, hcap]
  | cons e m ih =>
    obtain ⟨k, w⟩ := e
    rw [Memory.wfFrom_cons] at h
    obtain ⟨h1, h2, h3⟩ := h
    by_cases h4 : a < k
    · simp only [Memory.write, h4, if_true, Memory.wfFrom_cons]
      exact ⟨hlo, hcap, h4, h2, h3⟩
    · by_cases h5 : a = k
      · subst h5
        simp only [Memory.write, lt_irrefl, if_false, if_true, Memory.wfFrom_cons]
        exact ⟨h1, h2, h3⟩
      · simp only [Memory.write, h4, h5, if_false, Memory.wfFrom_cons]
        exact ⟨h1, h2, ih h3 (by omega)⟩

/-- A write below the capacity keeps the canonical form. -/
theorem Memory.wf_write {cap : Nat} {m : Memory α} {a : Nat} (v : α)
    (h : Memory.wf cap m = true) (hcap : a < cap) : Memory.wf cap (m.write a v) = true :=
  Memory.wfFrom_write m v h (Nat.zero_le a) hcap

theorem Memory.read_below {cap : Nat} (m : Memory α) {lo a : Nat} (h : Memory.wfFrom cap lo m = true)
    (ha : a < lo) : m.read a = none := by
  induction m generalizing lo with
  | nil => rfl
  | cons e m ih =>
    obtain ⟨k, w⟩ := e
    rw [Memory.wfFrom_cons] at h
    have : ¬ k = a := by omega
    simp only [Memory.read, this, if_false]
    exact ih h.2.2 (by omega)

/-- No entry at or above the capacity is defined. -/
theorem Memory.read_above {cap : Nat} (m : Memory α) {lo a : Nat} (h : Memory.wfFrom cap lo m = true)
    (ha : cap ≤ a) : m.read a = none := by
  induction m generalizing lo with
  | nil => rfl
  | cons e m ih =>
    obtain ⟨k, w⟩ := e
    rw [Memory.wfFrom_cons] at h
    have : ¬ k = a := by omega
    simp only [Memory.read, this, if_false]
    exact ih h.2.2

theorem Memory.ext_from {cap : Nat} (m m' : Memory α) {lo : Nat} (h : Memory.wfFrom cap lo m = true)
    (h' : Memory.wfFrom cap lo m' = true) (hr : ∀ a, m.read a = m'.read a) : m = m' := by
  induction m generalizing lo m' with
  | nil =>
    cases m' with
    | nil => rfl
    | cons e m' => have := hr e.1; simp [Memory.read] at this
  | cons e m ih =>
    obtain ⟨k, w⟩ := e
    cases m' with
    | nil => have := hr k; simp [Memory.read] at this
    | cons e' m' =>
      obtain ⟨k', w'⟩ := e'
      rw [Memory.wfFrom_cons] at h h'
      have hk : k = k' := by
        rcases Nat.lt_trichotomy k k' with hlt | heq | hgt
        · have h1 := hr k
          have h2 := Memory.read_below m' h'.2.2 (a := k) (by omega)
          have : ¬ k' = k := by omega
          simp [Memory.read, this, h2] at h1
        · exact heq
        · have h1 := hr k'
          have h2 := Memory.read_below m h.2.2 (a := k') (by omega)
          have : ¬ k = k' := by omega
          simp [Memory.read, this, h2] at h1
      subst hk
      have hw : w = w' := by have := hr k; simpa [Memory.read] using this
      subst hw
      have : m = m' := by
        refine ih m' h.2.2 h'.2.2 fun a => ?_
        by_cases hka : k = a
        · subst hka
          rw [Memory.read_below m h.2.2 (by omega), Memory.read_below m' h'.2.2 (by omega)]
        · have := hr a
          simpa [Memory.read, hka] using this
      rw [this]

/-- Canonical memories that read alike are equal data. -/
theorem Memory.ext_of_read {cap : Nat} {m m' : Memory α} (h : Memory.wf cap m = true) (h' : Memory.wf cap m' = true)
    (hr : ∀ a, m.read a = m'.read a) : m = m' :=
  Memory.ext_from m m' h h' hr

end Sys2Proof.Machine
end

