-- ==== Sys2Proof/Laws/State.lean ====
section
/-! SUPPORT. What each named update of the state does to each field: one lemma per field and update, true by rfl. -/

namespace Sys2Proof.Machine

variable (s : State)

/-! `State.drawn` -/

@[simp] theorem State.drawn_status : (s.drawn).status = s.status := rfl
@[simp] theorem State.drawn_cause : (s.drawn).cause = s.cause := rfl
@[simp] theorem State.drawn_info : (s.drawn).info = s.info := rfl
@[simp] theorem State.drawn_arg : (s.drawn).arg = s.arg := rfl
@[simp] theorem State.drawn_root : (s.drawn).root = s.root := rfl
@[simp] theorem State.drawn_free : (s.drawn).free = s.free := rfl
@[simp] theorem State.drawn_tsLen : (s.drawn).tsLen = s.tsLen := rfl
@[simp] theorem State.drawn_tsRpos : (s.drawn).tsRpos = s.tsRpos := rfl
@[simp] theorem State.drawn_plLen : (s.drawn).plLen = s.plLen := rfl
@[simp] theorem State.drawn_plRpos : (s.drawn).plRpos = s.plRpos := rfl
@[simp] theorem State.drawn_syLen : (s.drawn).syLen = s.syLen := rfl
@[simp] theorem State.drawn_nodeCnt : (s.drawn).nodeCnt = s.nodeCnt := rfl
@[simp] theorem State.drawn_nm : (s.drawn).nm = s.nm := rfl
@[simp] theorem State.drawn_tsb : (s.drawn).tsb = s.tsb := rfl
@[simp] theorem State.drawn_plb : (s.drawn).plb = s.plb := rfl
@[simp] theorem State.drawn_syb : (s.drawn).syb = s.syb := rfl
@[simp] theorem State.drawn_act : (s.drawn).act = s.act := rfl
@[simp] theorem State.drawn_cfg : (s.drawn).cfg = s.cfg := rfl
@[simp] theorem State.drawn_draws : (s.drawn).draws = s.draws + 1 := rfl
@[simp] theorem State.drawn_host : (s.drawn).host = s.host := rfl
@[simp] theorem State.drawn_seen : (s.drawn).seen = s.seen := rfl

/-! `beginCommand` -/

@[simp] theorem beginCommand_status : (beginCommand s).status = statusBegun s.status := rfl
@[simp] theorem beginCommand_cause : (beginCommand s).cause = s.cause := rfl
@[simp] theorem beginCommand_info : (beginCommand s).info = s.info := rfl
@[simp] theorem beginCommand_arg : (beginCommand s).arg = s.arg := rfl
@[simp] theorem beginCommand_root : (beginCommand s).root = s.root := rfl
@[simp] theorem beginCommand_free : (beginCommand s).free = s.free := rfl
@[simp] theorem beginCommand_tsLen : (beginCommand s).tsLen = s.tsLen := rfl
@[simp] theorem beginCommand_tsRpos : (beginCommand s).tsRpos = s.tsRpos := rfl
@[simp] theorem beginCommand_plLen : (beginCommand s).plLen = s.plLen := rfl
@[simp] theorem beginCommand_plRpos : (beginCommand s).plRpos = s.plRpos := rfl
@[simp] theorem beginCommand_syLen : (beginCommand s).syLen = s.syLen := rfl
@[simp] theorem beginCommand_nodeCnt : (beginCommand s).nodeCnt = s.nodeCnt := rfl
@[simp] theorem beginCommand_nm : (beginCommand s).nm = s.nm := rfl
@[simp] theorem beginCommand_tsb : (beginCommand s).tsb = s.tsb := rfl
@[simp] theorem beginCommand_plb : (beginCommand s).plb = s.plb := rfl
@[simp] theorem beginCommand_syb : (beginCommand s).syb = s.syb := rfl
@[simp] theorem beginCommand_act : (beginCommand s).act = s.act := rfl
@[simp] theorem beginCommand_cfg : (beginCommand s).cfg = s.cfg := rfl
@[simp] theorem beginCommand_draws : (beginCommand s).draws = s.draws := rfl
@[simp] theorem beginCommand_host : (beginCommand s).host = s.host := rfl
@[simp] theorem beginCommand_seen : (beginCommand s).seen = s.seen := rfl

/-! `endCommand` -/

@[simp] theorem endCommand_status : (endCommand s).status = statusEnded s.status := rfl
@[simp] theorem endCommand_cause : (endCommand s).cause = s.cause := rfl
@[simp] theorem endCommand_info : (endCommand s).info = s.info := rfl
@[simp] theorem endCommand_arg : (endCommand s).arg = s.arg := rfl
@[simp] theorem endCommand_root : (endCommand s).root = s.root := rfl
@[simp] theorem endCommand_free : (endCommand s).free = s.free := rfl
@[simp] theorem endCommand_tsLen : (endCommand s).tsLen = s.tsLen := rfl
@[simp] theorem endCommand_tsRpos : (endCommand s).tsRpos = s.tsRpos := rfl
@[simp] theorem endCommand_plLen : (endCommand s).plLen = s.plLen := rfl
@[simp] theorem endCommand_plRpos : (endCommand s).plRpos = s.plRpos := rfl
@[simp] theorem endCommand_syLen : (endCommand s).syLen = s.syLen := rfl
@[simp] theorem endCommand_nodeCnt : (endCommand s).nodeCnt = s.nodeCnt := rfl
@[simp] theorem endCommand_nm : (endCommand s).nm = s.nm := rfl
@[simp] theorem endCommand_tsb : (endCommand s).tsb = s.tsb := rfl
@[simp] theorem endCommand_plb : (endCommand s).plb = s.plb := rfl
@[simp] theorem endCommand_syb : (endCommand s).syb = s.syb := rfl
@[simp] theorem endCommand_act : (endCommand s).act = .idle := rfl
@[simp] theorem endCommand_cfg : (endCommand s).cfg = s.cfg := rfl
@[simp] theorem endCommand_draws : (endCommand s).draws = s.draws := rfl
@[simp] theorem endCommand_host : (endCommand s).host = s.host := rfl
@[simp] theorem endCommand_seen : (endCommand s).seen = s.seen := rfl

/-! `enterFault` -/

@[simp] theorem enterFault_status (c : Cause) (info : BitVec 32) : (enterFault c info s).status = statusFaulted := rfl
@[simp] theorem enterFault_cause (c : Cause) (info : BitVec 32) : (enterFault c info s).cause = c.code := rfl
@[simp] theorem enterFault_info (c : Cause) (info : BitVec 32) : (enterFault c info s).info = info := rfl
@[simp] theorem enterFault_arg (c : Cause) (info : BitVec 32) :
  (enterFault c info s).arg = (Config.freeValue s.draws).setWidth 64 := rfl
@[simp] theorem enterFault_root (c : Cause) (info : BitVec 32) :
  (enterFault c info s).root = (Config.freeValue (s.draws + 1)).setWidth 32 := rfl
@[simp] theorem enterFault_free (c : Cause) (info : BitVec 32) :
  (enterFault c info s).free = (Config.freeValue (s.draws + 2)).setWidth 3 := rfl
@[simp] theorem enterFault_tsLen (c : Cause) (info : BitVec 32) :
  (enterFault c info s).tsLen = (Config.freeValue (s.draws + 3)).setWidth 32 := rfl
@[simp] theorem enterFault_tsRpos (c : Cause) (info : BitVec 32) :
  (enterFault c info s).tsRpos = (Config.freeValue (s.draws + 4)).setWidth 32 := rfl
@[simp] theorem enterFault_plLen (c : Cause) (info : BitVec 32) :
  (enterFault c info s).plLen = (Config.freeValue (s.draws + 5)).setWidth 32 := rfl
@[simp] theorem enterFault_plRpos (c : Cause) (info : BitVec 32) :
  (enterFault c info s).plRpos = (Config.freeValue (s.draws + 6)).setWidth 32 := rfl
@[simp] theorem enterFault_syLen (c : Cause) (info : BitVec 32) :
  (enterFault c info s).syLen = (Config.freeValue (s.draws + 7)).setWidth 32 := rfl
@[simp] theorem enterFault_nodeCnt (c : Cause) (info : BitVec 32) :
  (enterFault c info s).nodeCnt = (Config.freeValue (s.draws + 8)).setWidth 32 := rfl
@[simp] theorem enterFault_nm (c : Cause) (info : BitVec 32) : (enterFault c info s).nm = [] := rfl
@[simp] theorem enterFault_tsb (c : Cause) (info : BitVec 32) : (enterFault c info s).tsb = [] := rfl
@[simp] theorem enterFault_plb (c : Cause) (info : BitVec 32) : (enterFault c info s).plb = [] := rfl
@[simp] theorem enterFault_syb (c : Cause) (info : BitVec 32) : (enterFault c info s).syb = [] := rfl
@[simp] theorem enterFault_act (c : Cause) (info : BitVec 32) : (enterFault c info s).act = .idle := rfl
@[simp] theorem enterFault_cfg (c : Cause) (info : BitVec 32) : (enterFault c info s).cfg = s.cfg := rfl
@[simp] theorem enterFault_draws (c : Cause) (info : BitVec 32) : (enterFault c info s).draws = s.draws + 9 := rfl
@[simp] theorem enterFault_host (c : Cause) (info : BitVec 32) : (enterFault c info s).host = s.host := rfl
@[simp] theorem enterFault_seen (c : Cause) (info : BitVec 32) : (enterFault c info s).seen = s.seen := rfl

/-! `resetBlock` -/

@[simp] theorem resetBlock_status : (resetBlock s).status = 0b00#2 := rfl
@[simp] theorem resetBlock_cause : (resetBlock s).cause = 0#8 := rfl
@[simp] theorem resetBlock_info : (resetBlock s).info = 0#32 := rfl
@[simp] theorem resetBlock_arg : (resetBlock s).arg = 0#64 := rfl
@[simp] theorem resetBlock_root : (resetBlock s).root = Idx.none := rfl
@[simp] theorem resetBlock_free : (resetBlock s).free = 0#3 := rfl
@[simp] theorem resetBlock_tsLen : (resetBlock s).tsLen = 0#32 := rfl
@[simp] theorem resetBlock_tsRpos : (resetBlock s).tsRpos = 0#32 := rfl
@[simp] theorem resetBlock_plLen : (resetBlock s).plLen = 0#32 := rfl
@[simp] theorem resetBlock_plRpos : (resetBlock s).plRpos = 0#32 := rfl
@[simp] theorem resetBlock_syLen : (resetBlock s).syLen = 0#32 := rfl
@[simp] theorem resetBlock_nodeCnt : (resetBlock s).nodeCnt = 0#32 := rfl
@[simp] theorem resetBlock_nm : (resetBlock s).nm = [] := rfl
@[simp] theorem resetBlock_tsb : (resetBlock s).tsb = [] := rfl
@[simp] theorem resetBlock_plb : (resetBlock s).plb = [] := rfl
@[simp] theorem resetBlock_syb : (resetBlock s).syb = [] := rfl
@[simp] theorem resetBlock_act : (resetBlock s).act = .idle := rfl
@[simp] theorem resetBlock_cfg : (resetBlock s).cfg = s.cfg := rfl
@[simp] theorem resetBlock_draws : (resetBlock s).draws = s.draws := rfl
@[simp] theorem resetBlock_host : (resetBlock s).host = s.host := rfl
@[simp] theorem resetBlock_seen : (resetBlock s).seen = s.seen := rfl

/-! `State.reply` -/

@[simp] theorem State.reply_status (r : HostReply) : (s.reply r).status = s.status := rfl
@[simp] theorem State.reply_cause (r : HostReply) : (s.reply r).cause = s.cause := rfl
@[simp] theorem State.reply_info (r : HostReply) : (s.reply r).info = s.info := rfl
@[simp] theorem State.reply_arg (r : HostReply) : (s.reply r).arg = s.arg := rfl
@[simp] theorem State.reply_root (r : HostReply) : (s.reply r).root = s.root := rfl
@[simp] theorem State.reply_free (r : HostReply) : (s.reply r).free = s.free := rfl
@[simp] theorem State.reply_tsLen (r : HostReply) : (s.reply r).tsLen = s.tsLen := rfl
@[simp] theorem State.reply_tsRpos (r : HostReply) : (s.reply r).tsRpos = s.tsRpos := rfl
@[simp] theorem State.reply_plLen (r : HostReply) : (s.reply r).plLen = s.plLen := rfl
@[simp] theorem State.reply_plRpos (r : HostReply) : (s.reply r).plRpos = s.plRpos := rfl
@[simp] theorem State.reply_syLen (r : HostReply) : (s.reply r).syLen = s.syLen := rfl
@[simp] theorem State.reply_nodeCnt (r : HostReply) : (s.reply r).nodeCnt = s.nodeCnt := rfl
@[simp] theorem State.reply_nm (r : HostReply) : (s.reply r).nm = s.nm := rfl
@[simp] theorem State.reply_tsb (r : HostReply) : (s.reply r).tsb = s.tsb := rfl
@[simp] theorem State.reply_plb (r : HostReply) : (s.reply r).plb = s.plb := rfl
@[simp] theorem State.reply_syb (r : HostReply) : (s.reply r).syb = s.syb := rfl
@[simp] theorem State.reply_act (r : HostReply) : (s.reply r).act = s.act := rfl
@[simp] theorem State.reply_cfg (r : HostReply) : (s.reply r).cfg = s.cfg := rfl
@[simp] theorem State.reply_draws (r : HostReply) : (s.reply r).draws = s.draws := rfl
@[simp] theorem State.reply_host (r : HostReply) : (s.reply r).host = s.host := rfl
@[simp] theorem State.reply_seen (r : HostReply) : (s.reply r).seen = r :: s.seen := rfl

/-! `State.replyFree` -/

@[simp] theorem State.replyFree_status (ofBits : BitVec 128 → HostReply) : (s.replyFree ofBits).status = s.status := rfl
@[simp] theorem State.replyFree_cause (ofBits : BitVec 128 → HostReply) : (s.replyFree ofBits).cause = s.cause := rfl
@[simp] theorem State.replyFree_info (ofBits : BitVec 128 → HostReply) : (s.replyFree ofBits).info = s.info := rfl
@[simp] theorem State.replyFree_arg (ofBits : BitVec 128 → HostReply) : (s.replyFree ofBits).arg = s.arg := rfl
@[simp] theorem State.replyFree_root (ofBits : BitVec 128 → HostReply) : (s.replyFree ofBits).root = s.root := rfl
@[simp] theorem State.replyFree_free (ofBits : BitVec 128 → HostReply) : (s.replyFree ofBits).free = s.free := rfl
@[simp] theorem State.replyFree_tsLen (ofBits : BitVec 128 → HostReply) : (s.replyFree ofBits).tsLen = s.tsLen := rfl
@[simp] theorem State.replyFree_tsRpos (ofBits : BitVec 128 → HostReply) : (s.replyFree ofBits).tsRpos = s.tsRpos := rfl
@[simp] theorem State.replyFree_plLen (ofBits : BitVec 128 → HostReply) : (s.replyFree ofBits).plLen = s.plLen := rfl
@[simp] theorem State.replyFree_plRpos (ofBits : BitVec 128 → HostReply) : (s.replyFree ofBits).plRpos = s.plRpos := rfl
@[simp] theorem State.replyFree_syLen (ofBits : BitVec 128 → HostReply) : (s.replyFree ofBits).syLen = s.syLen := rfl
@[simp] theorem State.replyFree_nodeCnt (ofBits : BitVec 128 → HostReply) :
  (s.replyFree ofBits).nodeCnt = s.nodeCnt := rfl
@[simp] theorem State.replyFree_nm (ofBits : BitVec 128 → HostReply) : (s.replyFree ofBits).nm = s.nm := rfl
@[simp] theorem State.replyFree_tsb (ofBits : BitVec 128 → HostReply) : (s.replyFree ofBits).tsb = s.tsb := rfl
@[simp] theorem State.replyFree_plb (ofBits : BitVec 128 → HostReply) : (s.replyFree ofBits).plb = s.plb := rfl
@[simp] theorem State.replyFree_syb (ofBits : BitVec 128 → HostReply) : (s.replyFree ofBits).syb = s.syb := rfl
@[simp] theorem State.replyFree_act (ofBits : BitVec 128 → HostReply) : (s.replyFree ofBits).act = s.act := rfl
@[simp] theorem State.replyFree_cfg (ofBits : BitVec 128 → HostReply) : (s.replyFree ofBits).cfg = s.cfg := rfl
@[simp] theorem State.replyFree_draws (ofBits : BitVec 128 → HostReply) :
  (s.replyFree ofBits).draws = s.draws + 1 := rfl
@[simp] theorem State.replyFree_host (ofBits : BitVec 128 → HostReply) : (s.replyFree ofBits).host = s.host := rfl
@[simp] theorem State.replyFree_seen (ofBits : BitVec 128 → HostReply) :
  (s.replyFree ofBits).seen = ofBits (Config.freeValue s.draws) :: s.seen := rfl

/-! The flags after the named updates. -/

@[simp] theorem enterFault_faulted (c : Cause) (info : BitVec 32) : (enterFault c info s).faulted = true := by
  simp [State.faulted, statusFaulted]

@[simp] theorem enterFault_busy (c : Cause) (info : BitVec 32) : (enterFault c info s).busy = false := by
  simp [State.busy, statusFaulted]

@[simp] theorem enterFault_inFlight (c : Cause) (info : BitVec 32) : (enterFault c info s).inFlight = false := by
  simp [State.inFlight]

@[simp] theorem resetBlock_faulted : (resetBlock s).faulted = false := by simp [State.faulted]

@[simp] theorem resetBlock_busy : (resetBlock s).busy = false := by simp [State.busy]

@[simp] theorem resetBlock_inFlight : (resetBlock s).inFlight = false := by simp [State.inFlight]

@[simp] theorem endCommand_busy : (endCommand s).busy = false := by
  have : ∀ st : BitVec 2, (statusEnded st).getLsbD 0 = false := by decide
  exact this s.status

@[simp] theorem endCommand_faulted : (endCommand s).faulted = s.faulted := by
  have : ∀ st : BitVec 2, (statusEnded st).getLsbD 1 = st.getLsbD 1 := by decide
  exact this s.status

@[simp] theorem endCommand_inFlight : (endCommand s).inFlight = false := by simp [State.inFlight]

@[simp] theorem beginCommand_busy : (beginCommand s).busy = true := by
  have : ∀ st : BitVec 2, (statusBegun st).getLsbD 0 = true := by decide
  exact this s.status

@[simp] theorem beginCommand_faulted : (beginCommand s).faulted = s.faulted := by
  have : ∀ st : BitVec 2, (statusBegun st).getLsbD 1 = st.getLsbD 1 := by decide
  exact this s.status

/-- On an idle block the flags set by a command's start are cleared by its end. -/
theorem statusEnded_begun (h : s.status = 0b00#2) : statusEnded (statusBegun s.status) = s.status := by
  rw [h]; decide

end Sys2Proof.Machine
end

