-- ==== Sys2Proof/Laws/Run.lean ====
section
/-! SUPPORT. How to reason about a stretch of a command (`Run`), an answer and the loop `drive` without unfolding
them; and one specification of each shared operation of Machine/Ops.lean. -/

namespace Sys2Proof.Machine

variable {α β : Type}

/-- A run does not stop the model; where it goes on `Q` holds, where it raises `E` does. -/
def Run.Holds (Q : α → State → Prop) (E : Cause → BitVec 32 → State → Prop) : Run α → Prop
  | .ok a s => Q a s
  | .raise c info s => E c info s
  | .stop _ => False

@[simp] theorem Run.holds_ok (Q : α → State → Prop) (E : Cause → BitVec 32 → State → Prop) (a : α) (s : State) :
    (Run.ok a s).Holds Q E = Q a s := rfl

@[simp] theorem Run.holds_raise (Q : α → State → Prop) (E : Cause → BitVec 32 → State → Prop) (c : Cause)
    (info : BitVec 32) (s : State) : (Run.raise c info s : Run α).Holds Q E = E c info s := rfl

@[simp] theorem Run.holds_stop (Q : α → State → Prop) (E : Cause → BitVec 32 → State → Prop) (r : Fault) :
    (Run.stop r : Run α).Holds Q E = False := rfl

@[simp] theorem Run.bind_ok (a : α) (s : State) (k : α → State → Run β) : (Run.ok a s).bind k = k a s := rfl

@[simp] theorem Run.bind_raise (c : Cause) (info : BitVec 32) (s : State) (k : α → State → Run β) :
    (Run.raise c info s).bind k = .raise c info s := rfl

@[simp] theorem Run.bind_stop (r : Fault) (k : α → State → Run β) : (Run.stop r).bind k = .stop r := rfl

@[simp] theorem Run.finish_ok (s : State) : (Run.ok () s).finish = .next s := rfl

@[simp] theorem Run.finish_raise (c : Cause) (info : BitVec 32) (s : State) :
    (Run.raise c info s).finish = .next (enterFault c info s) := rfl

theorem Run.Holds.bind {m : Run α} {k : α → State → Run β} {Q : β → State → Prop}
    {E : Cause → BitVec 32 → State → Prop} (h : m.Holds (fun a s => (k a s).Holds Q E) E) :
    (m.bind k).Holds Q E := by
  cases m <;> exact h

theorem Run.Holds.mono {m : Run α} {Q Q' : α → State → Prop} {E E' : Cause → BitVec 32 → State → Prop}
    (h : m.Holds Q E) (hq : ∀ a s, Q a s → Q' a s) (he : ∀ c i s, E c i s → E' c i s) : m.Holds Q' E' := by
  cases m with
  | ok a s => exact hq _ _ h
  | raise c i s => exact he _ _ _ h
  | stop r => exact h

/-- The two ways a run that holds can end. -/
theorem Run.Holds.cases {m : Run α} {Q : α → State → Prop} {E : Cause → BitVec 32 → State → Prop}
    (h : m.Holds Q E) : (∃ a s, m = .ok a s ∧ Q a s) ∨ (∃ c i s, m = .raise c i s ∧ E c i s) := by
  cases m with
  | ok a s => exact .inl ⟨a, s, rfl, h⟩
  | raise c i s => exact .inr ⟨c, i, s, rfl, h⟩
  | stop r => exact h.elim

/-- An answer is a next state, of which `P` holds. -/
def Nexts (P : State → Prop) : Answer → Prop
  | .next s => P s
  | .fault _ => False
  | .refused _ => False

@[simp] theorem nexts_next (P : State → Prop) (s : State) : Nexts P (.next s) = P s := rfl

theorem Nexts.out {P : State → Prop} {o : Answer} (h : Nexts P o) : ∃ t, o = .next t ∧ P t := by
  cases o with
  | next s => exact ⟨s, rfl, h⟩
  | fault r => exact h.elim
  | refused r => exact h.elim

theorem Nexts.mono {P P' : State → Prop} {o : Answer} (h : Nexts P o) (hp : ∀ s, P s → P' s) : Nexts P' o := by
  obtain ⟨t, rfl, ht⟩ := h.out
  exact hp t ht

theorem Nexts.andThen {P : State → Prop} {o : Answer} {k : State → Answer} (h : Nexts (fun t => Nexts P (k t)) o) :
    Nexts P (andThen o k) := by
  obtain ⟨t, rfl, ht⟩ := h.out
  exact ht

theorem Run.Holds.finish {m : Run Unit} {P : State → Prop}
    (h : m.Holds (fun _ t => P t) (fun c i t => P (enterFault c i t))) : Nexts P m.finish := by
  cases m with
  | ok a s => exact h
  | raise c i s => exact h
  | stop r => exact h.elim

@[simp] theorem andThen_next (s : State) (k : State → Answer) : andThen (.next s) k = k s := rfl

theorem drive_idle (f : State → Answer) (n : Nat) {s : State} (h : s.inFlight = false) : drive f n s = .next s := by
  cases n <;> simp [drive, h]

theorem drive_flight (f : State → Answer) (n : Nat) {s : State} (h : s.inFlight = true) :
    drive f (n + 1) s = andThen (f s) (drive f n) := by
  simp [drive, h]

/-- The loop of a stream-reading command: if each turn answers a next state that keeps `I` and, with the command
still in flight, lowers the measure, then with as many turns as the measure the command is over at the end. -/
theorem drive_nexts {f : State → Answer} {I : State → Prop} {μ : State → Nat}
    (hf : ∀ s, I s → s.inFlight = true → Nexts (fun t => I t ∧ (t.inFlight = true → μ t < μ s)) (f s))
    (n : Nat) (s : State) (hI : I s) (hn : μ s ≤ n) :
    Nexts (fun t => I t ∧ t.inFlight = false) (drive f n s) := by
  induction n generalizing s with
  | zero =>
    cases hfl : s.inFlight with
    | false => rw [drive_idle f 0 hfl]; exact ⟨hI, hfl⟩
    | true =>
      simp only [drive, hfl, if_true]
      refine (hf s hI hfl).mono fun t ht => ⟨ht.1, ?_⟩
      cases h : t.inFlight with
      | false => rfl
      | true => have := ht.2 h; omega
  | succ n ih =>
    cases hfl : s.inFlight with
    | false => rw [drive_idle f _ hfl]; exact ⟨hI, hfl⟩
    | true =>
      rw [drive_flight f n hfl]
      refine Nexts.andThen ((hf s hI hfl).mono fun t ht => ?_)
      cases h : t.inFlight with
      | false => rw [drive_idle f _ h]; exact ⟨ht.1, h⟩
      | true => exact ih t ht.1 (by have := ht.2 h; omega)

/-! Reads: a defined entry is read as it is; an undefined one draws a free value and changes nothing else. -/

theorem readNm_defined {n : Nat} {s : State} {r : NodeRec} (h : s.nm.read n = some r)
    (hn : n < s.cfg.nn.toNat) : readNm n s = .ok r s := by
  simp [readNm, hn, State.readEntry, h]

theorem readTsb_defined {i : Nat} {s : State} {b : Byte} (h : s.tsb.read i = some b)
    (hi : i < s.cfg.tsCap.toNat) : readTsb i s = .ok b s := by
  simp [readTsb, hi, State.readEntry, h]

theorem readPlb_defined {i : Nat} {s : State} {b : Byte} (h : s.plb.read i = some b)
    (hi : i < s.cfg.plCap.toNat) : readPlb i s = .ok b s := by
  simp [readPlb, hi, State.readEntry, h]

/-- Any read below the capacity answers: at most one more free value is drawn. -/
theorem readNm_ok {n : Nat} {s : State} (hn : n < s.cfg.nn.toNat) :
    ∃ r d, readNm n s = .ok r { s with draws := d } ∧ s.draws ≤ d := by
  cases h : s.nm.read n with
  | some r => exact ⟨r, s.draws, readNm_defined h hn, le_refl _⟩
  | none =>
    exact ⟨nodeOfBits (Config.freeValue s.draws), s.draws + 1,
      by simp [readNm, hn, State.readEntry, h, State.drawn], Nat.le_succ _⟩

theorem readTsb_ok {i : Nat} {s : State} (hi : i < s.cfg.tsCap.toNat) :
    ∃ b d, readTsb i s = .ok b { s with draws := d } ∧ s.draws ≤ d := by
  cases h : s.tsb.read i with
  | some b => exact ⟨b, s.draws, readTsb_defined h hi, le_refl _⟩
  | none =>
    exact ⟨(Config.freeValue s.draws).setWidth 8, s.draws + 1,
      by simp [readTsb, hi, State.readEntry, h, State.drawn], Nat.le_succ _⟩

theorem readPlb_ok {i : Nat} {s : State} (hi : i < s.cfg.plCap.toNat) :
    ∃ b d, readPlb i s = .ok b { s with draws := d } ∧ s.draws ≤ d := by
  cases h : s.plb.read i with
  | some b => exact ⟨b, s.draws, readPlb_defined h hi, le_refl _⟩
  | none =>
    exact ⟨(Config.freeValue s.draws).setWidth 8, s.draws + 1,
      by simp [readPlb, hi, State.readEntry, h, State.drawn], Nat.le_succ _⟩

/-! Writes below the capacity. -/

theorem writeNm_ok {n : Nat} {s : State} (r : NodeRec) (hn : n < s.cfg.nn.toNat) :
    writeNm n r s = .ok () { s with nm := s.nm.write n r } := by simp [writeNm, hn]

theorem writeTsb_ok {i : Nat} {s : State} (b : Byte) (hi : i < s.cfg.tsCap.toNat) :
    writeTsb i b s = .ok () { s with tsb := s.tsb.write i b } := by simp [writeTsb, hi]

theorem writePlb_ok {i : Nat} {s : State} (b : Byte) (hi : i < s.cfg.plCap.toNat) :
    writePlb i b s = .ok () { s with plb := s.plb.write i b } := by simp [writePlb, hi]

theorem writeSyb_ok {i : Nat} {s : State} (x : Sym) (hi : i < s.cfg.syCap.toNat) :
    writeSyb i x s = .ok () { s with syb := s.syb.write i x } := by simp [writeSyb, hi]

/-! Acceptance (R233). -/

theorem whenIdle_faulted {s : State} (run : State → Answer) (h : s.faulted = true) :
    whenIdle s run = .next s := by simp [whenIdle, h]

theorem whenIdle_busy {s : State} (run : State → Answer) (h : s.faulted = false) (hb : s.busy = true) :
    whenIdle s run = .refused .hostWhileBusy := by simp [whenIdle, h, hb]

theorem whenIdle_idle {s : State} (run : State → Answer) (h : s.faulted = false) (hb : s.busy = false) :
    whenIdle s run = run s := by simp [whenIdle, h, hb]

/-- Acceptance by the state: the three cases of R233. -/
theorem whenIdle_cases (s : State) (run : State → Answer) :
    (s.faulted = true ∧ whenIdle s run = .next s) ∨
    (s.faulted = false ∧ s.busy = true ∧ whenIdle s run = .refused .hostWhileBusy) ∨
    (s.faulted = false ∧ s.busy = false ∧ whenIdle s run = run s) := by
  cases h : s.faulted with
  | true => exact .inl ⟨rfl, whenIdle_faulted run h⟩
  | false =>
    cases hb : s.busy with
    | true => exact .inr (.inl ⟨rfl, rfl, whenIdle_busy run h hb⟩)
    | false => exact .inr (.inr ⟨rfl, rfl, whenIdle_idle run h hb⟩)

theorem status_zero {s : State} (h : s.faulted = false) (hb : s.busy = false) : s.status = 0b00#2 := by
  have : ∀ st : BitVec 2, st.getLsbD 1 = false → st.getLsbD 0 = false → st = 0b00#2 := by decide
  exact this s.status h hb

theorem status_busy {s : State} (h : s.faulted = false) (hb : s.busy = true) : s.status = 0b01#2 := by
  have : ∀ st : BitVec 2, st.getLsbD 1 = false → st.getLsbD 0 = true → st = 0b01#2 := by decide
  exact this s.status h hb

theorem faulted_of_idle {s : State} (h : s.status = 0b00#2) : s.faulted = false := by simp [State.faulted, h]

theorem busy_of_idle {s : State} (h : s.status = 0b00#2) : s.busy = false := by simp [State.busy, h]

/-- A command on an idle block is its pseudocode, between BUSY set and `done`. -/
theorem runCommand_idle {s : State} (body : State → Run Unit) (h : s.status = 0b00#2) :
    runCommand body s = ((body (beginCommand s)).bind fun _ t => .ok () (endCommand t)).finish := by
  simp [runCommand, whenIdle, faulted_of_idle h, busy_of_idle h]

end Sys2Proof.Machine
end

