-- ==== Sys2Proof/Laws/Host.lean ====
section
/-! SUPPORT. What a step runs, by the state and the host's next access; and a command on an idle block by how its
pseudocode ends. -/

namespace Sys2Proof.Safety

open Sys2Proof.Machine

/-! Steps. -/

theorem step_host {s : State} {a : HostAction} {rest : List HostAction} (ha : s.act = .idle)
    (hh : s.host = a :: rest) : step s = hostMove a { s with host := rest } := by
  simp [step, nextMove, hh, State.inFlight, ha]

theorem step_interrupt {s : State} {a : HostAction} {rest : List HostAction} (ha : mayInterrupt a = true)
    (hh : s.host = a :: rest) : step s = hostMove a { s with host := rest } := by
  simp [step, nextMove, hh, ha]

theorem step_waits {s : State} (ha : s.act = .idle) (hh : s.host = []) : step s = .next s := by
  simp [step, nextMove, hh, State.inFlight, ha]

theorem step_sequencer {s : State} (ha : s.act ≠ .idle) (hw : hostWaits s) : step s = sequencerMove s := by
  unfold step nextMove
  cases hh : s.host with
  | nil => simp [State.inFlight, ha]
  | cons a rest =>
    have := hw a (by simp [hh])
    simp [State.inFlight, ha, this]

/-! Commands. -/

theorem idle.faulted {s : State} (h : idle s) : s.faulted = false := faulted_of_idle h.1

theorem idle.busy {s : State} (h : idle s) : s.busy = false := busy_of_idle h.1

theorem idle.accepts {s : State} (h : idle s) (run : State → Answer) : whenIdle s run = run s :=
  whenIdle_idle run h.faulted h.busy

theorem idle.begun {s : State} (h : idle s) : (beginCommand s).status = 0b01#2 := by
  show statusBegun s.status = _
  rw [h.1]; decide

/-- Ending a command that began on an idle block leaves STATUS and the scratch as they were. -/
theorem idle.ended {s t : State} (h : idle s) (ht : t.status = 0b01#2) :
    endCommand t = { t with status := s.status, act := s.act } := by
  have : statusEnded t.status = s.status := by rw [ht, h.1]; decide
  rw [h.2, ← this]; rfl

/-- A command other than RESET is ignored in the faulted state (R233). -/
theorem exec_faulted {s : State} {i : Instr} (hf : s.faulted = true) (hc : isCommand i = true) (hi : i ≠ .reset) :
    exec i s = .next s := by
  have hw : ∀ run, whenIdle s run = .next s := fun run => whenIdle_faulted run hf
  cases i with
  | reset => exact absurd rfl hi
  | nop | pkinit | pkput | tser | tend | unpack | tdes =>
    simp [exec, execNop, execPkinit, execPkput, execTser, execTend, execUnpack, execTdes, runCommand, hw]
  | tokEnd | tokInternal | tokLeaf1 | tokLeaf2 | tokLeaf3 | tokLeaf4 | bitLeft | bitRight => cases hc

/-- A byte written to CMD that decodes is the opcode of a command (R91). -/
theorem decodeCommand_encode {b : Byte} {i : Instr} (h : decodeCommand b = .ok i) :
    encode i = .command b ∧ isCommand i = true := by
  unfold decodeCommand at h
  repeat' split at h
  all_goals first
    | (obtain rfl := Except.ok.inj h; subst b; exact ⟨rfl, rfl⟩)
    | cases h

/-! Writes of CMD. -/

/-- On a block that is not faulted a write of CMD runs its low byte; in the faulted state RESET alone (R233, R235). -/
theorem writeCmd_accepted {v : Operand} {s : State} (h : s.faulted = true → v = 0x01#64) :
    writeCmd v s = runOpcode (v.setWidth 8) s := by
  unfold writeCmd
  rw [if_neg]
  intro hc
  simp only [Bool.and_eq_true, decide_eq_true_eq] at hc
  exact hc.2 (h hc.1)

/-- In the faulted state every other value written to CMD is ignored (R233). -/
theorem writeCmd_ignored {v : Operand} {s : State} (hf : s.faulted = true) (hv : v ≠ 0x01#64) :
    writeCmd v s = .next s := by
  simp [writeCmd, hf, hv]

theorem runOpcode_ok {b : Byte} {i : Instr} (s : State) (h : decodeCommand b = .ok i) : runOpcode b s = exec i s := by
  simp only [runOpcode, h]

/-! Accesses of the host. -/

theorem hostRead_faulted {s : State} (hf : s.faulted = true) (allowed : Bool) (read : State → State) :
    hostRead allowed read s = .next (read s) := by simp [hostRead, hf]

theorem hostRead_idle {s : State} (h : s.busy = false) (allowed : Bool) (read : State → State) :
    hostRead allowed read s = .next (read s) := by simp [hostRead, h]

theorem hostWrite_faulted {s : State} (hf : s.faulted = true) (store : State → State) :
    hostWrite store s = .next s := whenIdle_faulted _ hf

theorem hostWrite_idle {s : State} (hf : s.faulted = false) (hb : s.busy = false) (store : State → State) :
    hostWrite store s = .next (store s) := whenIdle_idle _ hf hb

theorem runCommand_done {s t : State} {body : State → Run Unit} (h : idle s)
    (hb : body (beginCommand s) = .ok () t) (ht : t.status = 0b01#2) :
    runCommand body s = .next { t with status := s.status, act := s.act } := by
  rw [runCommand_idle body h.1, hb, ← h.ended ht]; rfl

theorem runCommand_raises {s t : State} {body : State → Run Unit} {c : Cause} {info : BitVec 32} (h : idle s)
    (hb : body (beginCommand s) = .raise c info t) : runCommand body s = .next (enterFault c info t) := by
  rw [runCommand_idle body h.1, hb]; rfl

theorem faultedWith_enterFault {c : Cause} {n : Nat} (hc : c.code = BitVec.ofNat 8 n) (info : BitVec 32) (t : State) :
    faultedWith (enterFault c info t) n info := ⟨rfl, hc, rfl⟩

end Sys2Proof.Safety
end

