-- ==== Sys2Proof/Laws/Invariant.lean ====
section
/-! SUPPORT. What keeps the invariant. Inside a command the state is `Running`: the invariant's data clauses with
BUSY set; each unit's pseudocode keeps it, and a raise or `done` ends in `Inv`. -/

namespace Sys2Proof.Safety

open Sys2Proof.Machine

/-- A command is running: BUSY is set, no fault is recorded, and the data clauses of `Inv` hold. -/
structure Running (s : State) : Prop where
  cfg      : s.cfg.wf = true
  memories : memoriesOk s
  lengths  : lengthsOk s
  carry    : carryOk s
  status   : s.status = 0b01#2
  cause    : s.cause = 0#8
  info     : s.info = 0#32

/-- What holds where a command raises: its cause is one of these, and the capacities are as R7 asks, which is all
the faulted state needs to satisfy the invariant. -/
def Raises (cs : List Cause) (c : Cause) (_ : BitVec 32) (s : State) : Prop := s.cfg.wf = true ∧ c ∈ cs

/-- The causes PKPUT can raise (R282). -/
def packerCauses : List Cause := [.codeInvalid, .bufOverflow]

/-- The causes TSER can raise (R282). -/
def serializerCauses : List Cause := [.treeMalformed, .symReserved, .symInvalid, .bufOverflow]

/-- The causes TDES can raise (R282). -/
def deserializerCauses : List Cause := [.treeNoTerm, .nodeOverflow, .utf8Malformed, .treeShort, .treeTrailing]

/-- The causes UNPACK can raise (R282). -/
def unpackerCauses : List Cause := [.bufOverflow, .treeMalformed, .payloadTrunc]

/-- A state that holds a fault holds one of these causes. -/
def CauseIn (cs : List Cause) (t : State) : Prop := t.faulted = true → ∃ c, c ∈ cs ∧ t.cause = c.code

theorem code_bounds (c : Cause) : 1 ≤ c.code.toNat ∧ c.code.toNat ≤ 12 := by cases c <;> decide

/-- Fault entry ends in the invariant, whatever state the command was in (R283). -/
theorem enterFault_inv (c : Cause) (info : BitVec 32) (s : State) (h : s.cfg.wf = true) :
    Inv (enterFault c info s) where
  cfg := h
  memories := ⟨rfl, rfl, rfl, rfl⟩
  flags := ⟨by simp, fun _ => by simp, fun h => by simp at h,
    fun _ => ⟨(code_bounds c).1, (code_bounds c).2, rfl, rfl, rfl, rfl⟩⟩
  lengths := fun h => by simp at h
  carry := fun h => by simp at h
  scratch := trivial

/-- Reset ends in the invariant (R321). -/
theorem resetBlock_inv (s : State) (h : s.cfg.wf = true) : Inv (resetBlock s) where
  cfg := h
  memories := ⟨rfl, rfl, rfl, rfl⟩
  flags := ⟨by simp, fun h => by simp at h, fun _ => ⟨rfl, rfl⟩, fun h => by simp at h⟩
  lengths := fun _ => ⟨Nat.zero_le _, Nat.zero_le _, Nat.zero_le _, Nat.zero_le _, Nat.zero_le _, Nat.zero_le _⟩
  carry := fun _ h => absurd rfl h
  scratch := trivial

theorem Running.endCommand {s : State} (h : Running s) : Inv (endCommand s) := by
  have hst : (Machine.endCommand s).status = 0b00#2 := by
    show statusEnded s.status = _
    rw [h.status]; decide
  have hf : (Machine.endCommand s).faulted = false := faulted_of_idle hst
  exact
    { cfg := h.cfg
      memories := h.memories
      flags := ⟨(busy_of_idle hst).trans rfl, fun h' => by simp [hf] at h', fun _ => ⟨h.cause, h.info⟩,
        fun h' => by simp [hf] at h'⟩
      lengths := fun _ => h.lengths
      carry := fun _ => h.carry
      scratch := trivial }

theorem Running.faulted {s : State} (h : Running s) : s.faulted = false := by
  simp [State.faulted, h.status]

theorem Running.busy {s : State} (h : Running s) : s.busy = true := by
  simp [State.busy, h.status]

/-- A running command with its scratch in bounds satisfies the invariant. -/
theorem Running.inv {s : State} (h : Running s) (hf : s.inFlight = true) (hs : scratchOk s) : Inv s where
  cfg := h.cfg
  memories := h.memories
  flags := ⟨h.busy.trans hf.symm, fun h' => by simp [h.faulted] at h', fun _ => ⟨h.cause, h.info⟩,
    fun h' => by simp [h.faulted] at h'⟩
  lengths := fun _ => h.lengths
  carry := fun _ => h.carry
  scratch := hs

theorem Inv.begin {s : State} (h : Inv s) (hs : s.status = 0b00#2) : Running (beginCommand s) where
  cfg := h.cfg
  memories := h.memories
  lengths := h.lengths (faulted_of_idle hs)
  carry := h.carry (faulted_of_idle hs)
  status := by show statusBegun s.status = _; rw [hs]; decide
  cause := (h.flags.2.2.1 (faulted_of_idle hs)).1
  info := (h.flags.2.2.1 (faulted_of_idle hs)).2

theorem Inv.running {s : State} (h : Inv s) (hf : s.inFlight = true) : Running s := by
  have hb : s.busy = true := h.flags.1.trans hf
  have hn : s.faulted = false := by
    cases hx : s.faulted with
    | false => rfl
    | true => have := h.flags.2.1 hx; simp [hb] at this
  exact
    { cfg := h.cfg
      memories := h.memories
      lengths := h.lengths hn
      carry := h.carry hn
      status := status_busy hn hb
      cause := (h.flags.2.2.1 hn).1
      info := (h.flags.2.2.1 hn).2 }

/-- The data clauses do not depend on scratch, free-value counter, operand, root or the host's lists. -/
theorem Running.frame {s t : State} (h : Running s)
    (ht : t = { s with act := t.act, draws := t.draws, arg := t.arg, root := t.root, host := t.host, seen := t.seen }) :
    Running t := by
  rw [ht]
  exact ⟨h.cfg, h.memories, h.lengths, h.carry, h.status, h.cause, h.info⟩

theorem toNat_add_one {w : Nat} {a : BitVec w} {n : Nat} (h : a.toNat < n) (hn : n ≤ 2 ^ w - 1) :
    (a + 1#w).toNat = a.toNat + 1 := by
  rw [BitVec.toNat_add]
  by_cases hw : w = 0
  · subst hw; simp at hn; omega
  · have h1 : (1#w).toNat = 1 := by
      simp [BitVec.toNat_ofNat]; omega
    rw [h1]; exact Nat.mod_eq_of_lt (by omega)

theorem cap_le {c : BitVec 32} : c.toNat ≤ 2 ^ 32 - 1 := by have := c.isLt; omega

/-! The packer. -/

theorem packInit_running {cs : List Cause} {s : State} (h : Running s) :
    (packInit s).Holds (fun _ t => Running t) (Raises cs) :=
  ⟨h.cfg, h.memories, ⟨h.lengths.1, h.lengths.2.1, Nat.zero_le _, h.lengths.2.2.2⟩, fun h' => absurd rfl h',
    h.status, h.cause, h.info⟩

/-- Opening a byte keeps the data clauses but for FREE; there is then a defined last byte, with room in it. -/
theorem openByte_running {s : State} (h : Running s) :
    (openByte s).Holds (fun room t => Running t ∧ 1 ≤ t.plLen.toNat ∧ 1 ≤ room ∧ room ≤ 8 ∧
      (t.plb.read (t.plLen.toNat - 1)).isSome = true ∧ t.cfg = s.cfg) (Raises packerCauses) := by
  unfold openByte
  split
  · split
    · exact ⟨h.cfg, by decide⟩
    · rename_i hfree hcap
      have hlt : s.plLen.toNat < s.cfg.plCap.toNat := by omega
      rw [writePlb_ok _ hlt]
      have hlen := toNat_add_one (a := s.plLen) hlt cap_le
      simp only [Run.bind_ok, Run.holds_ok]
      have hsome : ((s.plb.write s.plLen.toNat 0x00#8).read ((s.plLen + 1#32).toNat - 1)).isSome = true := by
        rw [hlen, Nat.add_sub_cancel, Memory.read_write_same]; rfl
      refine ⟨⟨h.cfg, ?_, ?_, ?_, h.status, h.cause, h.info⟩, ?_, by omega, by omega, hsome, trivial⟩
      · exact ⟨h.memories.1, h.memories.2.1, Memory.wf_write _ h.memories.2.2.1 hlt, h.memories.2.2.2⟩
      · refine ⟨h.lengths.1, h.lengths.2.1, ?_, h.lengths.2.2.2⟩
        show (s.plLen + 1#32).toNat ≤ _
        rw [hlen]; exact hlt
      · intro _
        exact ⟨by show 1 ≤ (s.plLen + 1#32).toNat; omega, hsome⟩
      · show 1 ≤ (s.plLen + 1#32).toNat; omega
  · rename_i hfree
    have hc := h.carry hfree
    have h3 : s.free.toNat ≠ 0 := fun h0 => hfree (BitVec.eq_of_toNat_eq (by simpa using h0))
    have h4 := s.free.isLt
    exact ⟨h, hc.1, by omega, by omega, hc.2, rfl⟩

theorem placeBit_running {s : State} (b : Bool) (room : Nat) (h : Running s) (hl : 1 ≤ s.plLen.toNat)
    (hd : (s.plb.read (s.plLen.toNat - 1)).isSome = true) :
    (placeBit b room s).Holds (fun _ t => Running t) (Raises packerCauses) := by
  obtain ⟨byte, hbyte⟩ := Option.isSome_iff_exists.mp hd
  have hne : ¬ s.plLen = 0#32 := fun h0 => by rw [h0] at hl; simp at hl
  have hlt : s.plLen.toNat - 1 < s.cfg.plCap.toNat := by have := h.lengths.2.2.1; omega
  unfold placeBit
  simp only [hne, if_false, readPlb_defined hbyte hlt, Run.bind_ok, writePlb_ok _ hlt, Run.holds_ok]
  refine ⟨h.cfg, ⟨h.memories.1, h.memories.2.1, Memory.wf_write _ h.memories.2.2.1 hlt, h.memories.2.2.2⟩, h.lengths,
    fun _ => ⟨hl, ?_⟩, h.status, h.cause, h.info⟩
  simp

theorem packBit_running {s : State} (b : Bool) (h : Running s) :
    (packBit b s).Holds (fun _ t => Running t) (Raises packerCauses) :=
  ((openByte_running h).mono (fun _ _ ht => placeBit_running b _ ht.1 ht.2.1 ht.2.2.2.2.1) fun _ _ _ h => h).bind

theorem packBits_running (code : Operand) (n i : Nat) {s : State} (h : Running s) :
    (packBits code n i s).Holds (fun _ t => Running t) (Raises packerCauses) := by
  induction n generalizing i s with
  | zero => exact h
  | succ n ih => exact ((packBit_running _ h).mono (fun _ _ ht => ih _ ht) fun _ _ _ h => h).bind

theorem packCode_running {s : State} (h : Running s) :
    (packCode s).Holds (fun _ t => Running t) (Raises packerCauses) := by
  unfold packCode
  split
  · exact ⟨h.cfg, by decide⟩
  · exact packBits_running _ _ _ h

/-! The serializer. -/

theorem appendTsb_running {cs : List Cause} {s : State} (b : Byte) (h : Running s) (hlt :
    s.tsLen.toNat < s.cfg.tsCap.toNat) :
    (appendTsb b s).Holds (fun _ t => Running t ∧ t.tsLen.toNat = s.tsLen.toNat + 1 ∧ t.cfg = s.cfg) (Raises cs) := by
  unfold appendTsb
  have hlen := toNat_add_one (a := s.tsLen) hlt cap_le
  simp only [writeTsb_ok _ hlt, Run.bind_ok, Run.holds_ok]
  refine ⟨⟨h.cfg, ⟨h.memories.1, Memory.wf_write _ h.memories.2.1 hlt, h.memories.2.2⟩, ⟨?_, h.lengths.2⟩, h.carry,
    h.status, h.cause, h.info⟩, hlen, trivial⟩
  show (s.tsLen + 1#32).toNat ≤ _
  rw [hlen]; exact hlt

theorem appendAll_running {cs : List Cause} (bs : List Byte) {s : State} (h : Running s)
    (hfit : s.tsLen.toNat + bs.length ≤ s.cfg.tsCap.toNat) :
    (appendAll bs s).Holds (fun _ t => Running t ∧ t.cfg = s.cfg) (Raises cs) := by
  induction bs generalizing s with
  | nil => exact ⟨h, rfl⟩
  | cons b bs ih =>
    rw [List.length_cons] at hfit
    refine ((appendTsb_running b h (by omega)).mono (fun _ t ht => ?_) fun _ _ _ h => h).bind
    refine (ih ht.1 (by rw [ht.2.1, ht.2.2]; omega)).mono (fun _ _ hu => ⟨hu.1, hu.2.trans ht.2.2⟩) fun _ _ _ h => h

theorem emitToken_running {cs : List Cause} (hcs : Cause.bufOverflow ∈ cs) (bs : List Byte) {s : State} (h :
    Running s) :
    (emitToken bs s).Holds (fun _ t => Running t ∧ t.cfg = s.cfg) (Raises cs) := by
  unfold emitToken
  split
  · exact ⟨h.cfg, hcs⟩
  · exact appendAll_running bs h (by omega)

theorem emitLeaf_running (n : Idx) (x : Sym) {s : State} (h : Running s) :
    (emitLeaf n x s).Holds (fun _ t => Running t ∧ t.cfg = s.cfg) (Raises serializerCauses) := by
  unfold emitLeaf
  split
  · exact ⟨h.cfg, by decide⟩
  · split
    · exact ⟨h.cfg, by decide⟩
    · exact emitToken_running (by decide) _ h

theorem serialize_running (budget : Nat) (stack : List Idx) {s : State} (h : Running s) :
    (serialize budget stack s).Holds (fun _ t => Running t) (Raises serializerCauses) := by
  induction budget generalizing stack s with
  | zero =>
    cases stack with
    | nil => exact h
    | cons n stack => exact ⟨h.cfg, by decide⟩
  | succ budget ih =>
    cases stack with
    | nil => exact h
    | cons n stack =>
      unfold serialize
      split
      · exact ⟨h.cfg, by decide⟩
      · rename_i hn
        obtain ⟨r, d, hr, _⟩ := readNm_ok (s := s) (n := n.toNat) (by omega)
        rw [hr]
        have hd : Running { s with draws := d } := h.frame rfl
        simp only [Run.bind_ok]
        split
        · exact ((emitLeaf_running n r.sym hd).mono (fun _ _ ht => ih _ ht.1) fun _ _ _ h => h).bind
        · exact ((emitToken_running (by decide) [0x01#8] hd).mono (fun _ _ ht => ih _ ht.1) fun _ _ _ h => h).bind

theorem serializeTree_running {s : State} (h : Running s) :
    (serializeTree s).Holds (fun _ t => Running t) (Raises serializerCauses) :=
  serialize_running _ _
    ⟨h.cfg, h.memories, ⟨Nat.zero_le _, h.lengths.2⟩, h.carry, h.status, h.cause, h.info⟩

/-- A command that runs in one stretch keeps the invariant and always answers a next state, between commands; a fault
it raises is one of its causes. -/
theorem runCommand_inv {cs : List Cause} {body : State → Run Unit}
    (hb : ∀ s, Running s → (body s).Holds (fun _ t => Running t) (Raises cs)) {s : State} (h : Inv s)
    (hs : s.inFlight = false) :
    Nexts (fun t => Inv t ∧ t.inFlight = false ∧ (s.faulted = false → CauseIn cs t)) (runCommand body s) := by
  have hnb : s.busy = false := h.flags.1.trans hs
  rcases whenIdle_cases s (fun s => ((body (beginCommand s)).bind fun _ s => .ok () (endCommand s)).finish) with
    ⟨hf, he⟩ | ⟨_, hb', _⟩ | ⟨hf, _, he⟩
  · unfold runCommand; rw [he]; exact ⟨h, hs, fun h' => by simp [hf] at h'⟩
  · rw [hnb] at hb'; cases hb'
  · unfold runCommand; rw [he]
    refine Run.Holds.finish (Run.Holds.bind ((hb _ (h.begin (status_zero hf hnb))).mono (fun _ t ht => ?_)
      fun c i t ht => ⟨enterFault_inv c i t ht.1, by simp, fun _ _ => ⟨c, ht.2, rfl⟩⟩))
    exact ⟨ht.endCommand, by simp, fun _ h' => by simp [ht.faulted] at h'⟩

end Sys2Proof.Safety
end

