-- ==== Sys2Proof/Laws/Streams.lean ====
section
/-! SUPPORT. TDES and UNPACK: every token and every payload bit of a command in flight keeps the invariant, answers a
next state and brings the command nearer its end, so each command ends (70_reset_and_hazards.md rule R340). -/

namespace Sys2Proof.Safety

open Sys2Proof.Machine

theorem toNat_ofNat_le (n : Nat) (w : Nat) : (BitVec.ofNat w n).toNat ≤ n := by
  simp [BitVec.toNat_ofNat]; exact Nat.mod_le _ _

/-- How much of its stream a command in flight has still to read: bytes of TSB, or bits of the payload. -/
def pending (s : State) : Nat :=
  match s.act with
  | .idle => 0
  | .tokenising p _ => s.tsLen.toNat - p
  | .walking _ _ _ unread => unread + 8 * (s.plLen.toNat - s.plRpos.toNat)

/-- Which command is in flight. -/
def inFlightOf : Activity → Option Instr
  | .idle => none
  | .tokenising _ _ => some .tdes
  | .walking _ _ _ _ => some .unpack

/-- What a turn of a command in flight gives: the invariant, and the command over or nearer its end; a fault it
raises is one of the command's causes. -/
def Turn (cs : List Cause) (s t : State) : Prop :=
  Inv t ∧ (t.inFlight = true → pending t < pending s ∧ inFlightOf t.act = inFlightOf s.act) ∧ CauseIn cs t

theorem Turn.fault {cs : List Cause} (s : State) (c : Cause) (info : BitVec 32) {t : State} (h : t.cfg.wf = true)
    (hc : c ∈ cs) : Turn cs s (enterFault c info t) :=
  ⟨enterFault_inv c info t h, fun h' => by simp at h', fun _ => ⟨c, hc, rfl⟩⟩

theorem Turn.done {cs : List Cause} (s : State) {t : State} (h : Running t) : Turn cs s (endCommand t) :=
  ⟨h.endCommand, fun h' => by simp at h', fun h' => by simp [h.faulted] at h'⟩

theorem Running.causeIn {cs : List Cause} {t : State} (h : Running t) : CauseIn cs t :=
  fun h' => by simp [h.faulted] at h'

/-! Tokens. -/

theorem storeToken_turn {r : NodeRec} {len p ntok : Nat} {s : State} (h : Running s)
    (hact : ∃ q m, s.act = .tokenising q m ∧ q ≤ p) (hlen : 1 ≤ len) (hfit : p + len ≤ s.tsLen.toNat) :
    Nexts (Turn deserializerCauses s) (storeToken r len p ntok s).finish := by
  obtain ⟨q, m, hq, hqp⟩ := hact
  unfold storeToken
  split
  · exact Turn.fault s _ _ h.cfg (by decide)
  · rename_i hn
    have hlt : ntok < s.cfg.nn.toNat := by omega
    rw [writeNm_ok _ hlt]
    have hr : Running { s with nm := s.nm.write ntok r, act := .tokenising (p + len) (ntok + 1) } :=
      ⟨h.cfg, ⟨Memory.wf_write _ h.memories.1 hlt, h.memories.2⟩, h.lengths, h.carry, h.status, h.cause, h.info⟩
    refine ⟨hr.inv (by simp [State.inFlight]) ⟨hfit, hlt⟩, fun _ => ?_, hr.causeIn⟩
    exact ⟨by simp only [pending, hq]; omega, by rw [hq]; rfl⟩

theorem storeLeaf_turn {ok : Bool} {x : Sym} {len p ntok : Nat} {s : State} (h : Running s)
    (hact : ∃ q m, s.act = .tokenising q m ∧ q ≤ p) (hlen : 1 ≤ len) (hfit : p + len ≤ s.tsLen.toNat) :
    Nexts (Turn deserializerCauses s) (storeLeaf ok x len p ntok s).finish := by
  unfold storeLeaf
  split
  · exact Turn.fault s _ _ h.cfg (by decide)
  · split
    · exact storeToken_turn h hact hlen hfit
    · exact Turn.fault s _ _ h.cfg (by decide)

theorem rebuild_running {ntok : Nat} (fuel next : Nat) {s : State} (h : Running s)
    (hn : ntok ≤ s.cfg.nn.toNat) :
    (rebuild ntok fuel next s).Holds (fun _ t => Running t ∧ t.cfg = s.cfg) (Raises deserializerCauses) := by
  induction fuel generalizing next s with
  | zero => exact ⟨h.cfg, by decide⟩
  | succ fuel ih =>
    unfold rebuild
    split
    · exact ⟨h.cfg, by decide⟩
    · rename_i hk
      have hlt : next < s.cfg.nn.toNat := by omega
      obtain ⟨r, d, hr, _⟩ := readNm_ok (s := s) hlt
      rw [hr]
      have hd : Running { s with draws := d } := h.frame rfl
      simp only [Run.bind_ok]
      split
      · exact ⟨hd, rfl⟩
      · refine ((ih (next + 1) hd hn).mono (fun l t ht => ?_) fun _ _ _ h => h).bind
        refine ((ih l.2 ht.1 (by rw [ht.2]; exact hn)).mono (fun r u hu => ?_) fun _ _ _ h => h).bind
        have hcfg : u.cfg = s.cfg := hu.2.trans ht.2
        have hlt' : next < u.cfg.nn.toNat := by rw [hcfg]; exact hlt
        rw [writeNm_ok _ hlt']
        exact ⟨⟨hu.1.cfg, ⟨Memory.wf_write _ hu.1.memories.1 hlt', hu.1.memories.2⟩, hu.1.lengths, hu.1.carry,
          hu.1.status, hu.1.cause, hu.1.info⟩, hcfg⟩

theorem rebuildTree_running {ntok : Nat} {s : State} (h : Running s) (hn : ntok ≤ s.cfg.nn.toNat) :
    (rebuildTree ntok s).Holds (fun _ t => Running t ∧ t.cfg = s.cfg) (Raises deserializerCauses) := by
  unfold rebuildTree
  split
  · exact ⟨h, rfl⟩
  · refine ((rebuild_running _ _ h hn).mono (fun l t ht => ?_) fun _ _ _ h => h).bind
    split
    · exact ht
    · exact ⟨ht.1.cfg, by decide⟩

theorem finishTree_turn {p ntok : Nat} {s : State} (h : Running s) (hn : ntok ≤ s.cfg.nn.toNat)
    (hp : p + 1 ≤ s.cfg.tsCap.toNat) : Nexts (Turn deserializerCauses s) (finishTree p ntok s).finish := by
  refine Run.Holds.finish (Run.Holds.bind ((rebuildTree_running h hn).mono (fun root t ht => ?_)
    fun c i t ht => Turn.fault s c i ht.1 ht.2))
  refine Turn.done s ⟨ht.1.cfg, ht.1.memories, ⟨ht.1.lengths.1, ?_, ht.1.lengths.2.2.1, ht.1.lengths.2.2.2.1,
    ht.1.lengths.2.2.2.2.1, ?_⟩, ht.1.carry, ht.1.status, ht.1.cause, ht.1.info⟩
  · show (BitVec.ofNat 32 (p + 1)).toNat ≤ t.cfg.tsCap.toNat
    rw [ht.2]; exact (toNat_ofNat_le _ _).trans hp
  · show (BitVec.ofNat 32 ntok).toNat ≤ t.cfg.nn.toNat
    rw [ht.2]; exact (toNat_ofNat_le _ _).trans hn

theorem readConts_spec (n q : Nat) {s : State} (hcap : s.tsLen.toNat ≤ s.cfg.tsCap.toNat) (hq : q ≤ s.tsLen.toNat)
    {E : Cause → BitVec 32 → State → Prop} :
    (readConts n q s).Holds (fun bs t => (∃ d, t = { s with draws := d }) ∧ q + bs.length ≤ s.tsLen.toNat) E := by
  induction n generalizing q s with
  | zero => exact ⟨⟨s.draws, rfl⟩, hq⟩
  | succ n ih =>
    unfold readConts
    split
    · exact ⟨⟨s.draws, rfl⟩, by simpa using hq⟩
    · rename_i hlt
      obtain ⟨b, d, hb, _⟩ := readTsb_ok (s := s) (i := q) (by omega)
      rw [hb]
      simp only [Run.bind_ok]
      split
      · refine ((ih (q + 1) (s := { s with draws := d }) hcap (by show q + 1 ≤ s.tsLen.toNat; omega)).mono
          (fun bs t ht => ?_) fun _ _ _ h => h).bind
        obtain ⟨⟨d', rfl⟩, hl⟩ := ht
        refine ⟨⟨d', rfl⟩, ?_⟩
        have : q + 1 + bs.length ≤ s.tsLen.toNat := hl
        simp; omega
      · exact ⟨⟨d, rfl⟩, by simp; omega⟩

/-- A fetch draws free values at most, and what it answers is a token that ends within the valid bytes. -/
theorem fetchToken_spec {p ntok : Nat} {s : State} (hw : s.cfg.wf = true)
    (hcap : s.tsLen.toNat ≤ s.cfg.tsCap.toNat) :
    (fetchToken p ntok s).Holds (fun i t => (∃ d, t = { s with draws := d }) ∧ 1 ≤ tokenLen i ∧
      p + tokenLen i ≤ s.tsLen.toNat ∧ (∀ x, i = .tokLeaf1 x → 2 ≤ x.toNat)) (Raises deserializerCauses) := by
  unfold fetchToken
  split
  · exact ⟨hw, by decide⟩
  · rename_i hp
    obtain ⟨b0, d, hb, _⟩ := readTsb_ok (s := s) (i := p) (by omega)
    rw [hb]
    simp only [Run.bind_ok]
    split
    · exact ⟨hw, by decide⟩
    · refine ((readConts_spec ((contCount b0).getD 0) (p + 1) (s := { s with draws := d }) hcap
        (by show p + 1 ≤ s.tsLen.toNat; omega)).mono (fun bs t ht => ?_) fun _ _ _ h => h).bind
      obtain ⟨⟨d', rfl⟩, hl⟩ := ht
      have hl' : p + 1 + bs.length ≤ s.tsLen.toNat := hl
      split
      · rename_i i rest hdec
        obtain ⟨h1, h2⟩ := decodeToken_length hdec
        rw [List.length_cons] at h2
        exact ⟨⟨d', rfl⟩, h1, by omega, fun x hx => by subst hx; exact decodeToken_leaf1 hdec⟩
      · rename_i e hdec
        cases e <;> exact ⟨hw, by decide⟩

theorem inTokens_flight {body : Nat → Nat → State → Run Unit} {s : State} {p ntok : Nat}
    (h : s.act = .tokenising p ntok) : inTokens body s = (body p ntok s).finish := by
  simp [inTokens, h]

/-- Running a decoded token is a turn of TDES. -/
theorem runToken_turn {i : Instr} {p ntok : Nat} {s : State} (h : Running s) (hact : s.act = .tokenising p ntok)
    (hn : ntok ≤ s.cfg.nn.toNat) (h1 : 1 ≤ tokenLen i) (hfit : p + tokenLen i ≤ s.tsLen.toNat)
    (hx : ∀ x, i = .tokLeaf1 x → 2 ≤ x.toNat) : Nexts (Turn deserializerCauses s) (runToken i s) := by
  have ha : ∃ q m, s.act = .tokenising q m ∧ q ≤ p := ⟨p, ntok, hact, le_refl _⟩
  cases i with
  | tokEnd =>
    show Nexts _ (inTokens _ s)
    rw [inTokens_flight hact]
    exact finishTree_turn h hn (hfit.trans h.lengths.1)
  | tokInternal =>
    show Nexts _ (inTokens _ s)
    rw [inTokens_flight hact]
    exact storeToken_turn h ha (le_refl _) hfit
  | tokLeaf1 x =>
    have hx' := hx x rfl
    have hlt : ¬ x.toNat < 0x02 := by omega
    show Nexts _ (execTokLeaf1 x s)
    unfold execTokLeaf1
    rw [if_neg hlt, inTokens_flight hact]
    exact storeLeaf_turn h ha (le_refl _) hfit
  | tokLeaf2 x =>
    show Nexts _ (inTokens _ s)
    rw [inTokens_flight hact]
    exact storeLeaf_turn h ha (by decide) hfit
  | tokLeaf3 x =>
    show Nexts _ (inTokens _ s)
    rw [inTokens_flight hact]
    exact storeLeaf_turn h ha (by decide) hfit
  | tokLeaf4 x =>
    show Nexts _ (inTokens _ s)
    rw [inTokens_flight hact]
    exact storeLeaf_turn h ha (by decide) hfit
  | nop | reset | pkinit | pkput | unpack | tser | tend | tdes | bitLeft | bitRight =>
    simp [tokenLen] at h1

/-- A turn from a state that differs in free values drawn only is a turn. -/
theorem Turn.ofDraws {cs : List Cause} {s t : State} {d : Nat} (h : Turn cs { s with draws := d } t) : Turn cs s t := h

/-- One token of a TDES in flight. -/
theorem tokenStep_turn {s : State} (h : Inv s) {p ntok : Nat} (hact : s.act = .tokenising p ntok) :
    Nexts (Turn deserializerCauses s) (tokenStep s) := by
  have hr : Running s := h.running (by simp [State.inFlight, hact])
  have hsc : p ≤ s.tsLen.toNat ∧ ntok ≤ s.cfg.nn.toNat := by have := h.scratch; simpa [scratchOk, hact] using this
  unfold tokenStep
  rw [hact]
  simp only
  rcases (fetchToken_spec (p := p) (ntok := ntok) hr.cfg hr.lengths.1).cases with
    ⟨i, t, he, ⟨d, rfl⟩, h1, h2, h3⟩ | ⟨c, info, t, he, ht⟩
  · rw [he]
    exact (runToken_turn (s := { s with draws := d }) (hr.frame rfl) hact hsc.2 h1 h2 h3).mono fun _ h => Turn.ofDraws h
  · rw [he]
    exact Turn.fault s c info ht.1 ht.2

/-! Payload bits. -/

theorem emitSym_ok {x : Sym} {s : State} (h : s.syLen.toNat < s.cfg.syCap.toNat) :
    emitSym x s = .ok () { s with syb := s.syb.write s.syLen.toNat x, syLen := s.syLen + 1#32 } := by
  simp [emitSym, writeSyb_ok _ h]

theorem emit_running {x : Sym} {s : State} (h : Running s) (hlt : s.syLen.toNat < s.cfg.syCap.toNat) :
    Running { s with syb := s.syb.write s.syLen.toNat x, syLen := s.syLen + 1#32 } := by
  refine ⟨h.cfg, ⟨h.memories.1, h.memories.2.1, h.memories.2.2.1, Memory.wf_write _ h.memories.2.2.2 hlt⟩,
    ⟨h.lengths.1, h.lengths.2.1, h.lengths.2.2.1, h.lengths.2.2.2.1, ?_, h.lengths.2.2.2.2.2⟩, h.carry, h.status,
    h.cause, h.info⟩
  show (s.syLen + 1#32).toNat ≤ _
  rw [toNat_add_one hlt cap_le]; exact hlt

/-- One payload bit, the byte it stands in being in hand. -/
theorem walkTo_turn {right : Bool} {t : Operand} {cur : Idx} {byte : Byte} {unread : Nat} {s : State}
    (h : Running s) (hsc : scratchOk s) (hact : s.act = .walking t cur byte (unread + 1)) :
    Nexts (Turn unpackerCauses s) (walkTo right t cur byte unread s).finish := by
  rw [scratchOk, hact] at hsc
  obtain ⟨hcur, hroot, hun, hpl, hsy, ht⟩ := hsc
  unfold walkTo
  obtain ⟨r, d, hr, _⟩ := readNm_ok (s := s) hcur
  rw [hr]
  simp only [Run.bind_ok]
  split
  · exact Turn.fault s _ _ h.cfg (by decide)
  · rename_i hc
    obtain ⟨rc, d', hrc, _⟩ := readNm_ok (s := { s with draws := d })
      (n := (childOf right r).toNat) (by show _ < s.cfg.nn.toNat; omega)
    rw [hrc]
    simp only [Run.bind_ok]
    have hd : Running { s with draws := d' } := h.frame rfl
    split
    · refine ⟨Running.inv (h.frame rfl) (by simp [State.inFlight]) ?_, fun _ => ?_, (h.frame rfl).causeIn⟩
      · exact ⟨by show _ < s.cfg.nn.toNat; omega, hroot, by show unread ≤ 8; omega, hpl, hsy, ht⟩
      · exact ⟨by simp only [pending, hact]; omega, by rw [hact]; rfl⟩
    · have hlt : ({ s with draws := d' } : State).syLen.toNat < ({ s with draws := d' } : State).cfg.syCap.toNat := by
        show s.syLen.toNat < s.cfg.syCap.toNat; omega
      rw [emitSym_ok hlt]
      have he := emit_running (x := rc.sym) hd hlt
      have hlen : (s.syLen + 1#32).toNat = s.syLen.toNat + 1 :=
        toNat_add_one (n := s.cfg.syCap.toNat) (by omega) cap_le
      simp only [Run.bind_ok]
      split
      · exact Turn.done s he
      · rename_i hne
        refine ⟨Running.inv (he.frame rfl) (by simp [State.inFlight]) ?_, fun _ => ?_, (he.frame rfl).causeIn⟩
        · refine ⟨hroot, hroot, by show unread ≤ 8; omega, hpl, ?_, ht⟩
          have hne' : ¬ (s.syLen + 1#32).toNat = t.toNat := hne
          show (s.syLen + 1#32).toNat < t.toNat
          omega
        · exact ⟨by simp only [pending, hact]; omega, by rw [hact]; rfl⟩

theorem runBit_turn {b : Bool} {t : Operand} {cur : Idx} {byte : Byte} {unread : Nat} {s : State}
    (h : Running s) (hsc : scratchOk s) (hact : s.act = .walking t cur byte (unread + 1)) :
    Nexts (Turn unpackerCauses s) (runBit (decodeBit b) s) := by
  cases b with
  | false =>
    show Nexts _ (inWalk false s)
    simp only [inWalk, hact]
    exact walkTo_turn h hsc hact
  | true =>
    show Nexts _ (inWalk true s)
    simp only [inWalk, hact]
    exact walkTo_turn h hsc hact

/-- One payload bit of an UNPACK in flight. -/
theorem bitStep_turn {s : State} (h : Inv s) {t : Operand} {cur : Idx} {byte : Byte} {unread : Nat}
    (hact : s.act = .walking t cur byte unread) : Nexts (Turn unpackerCauses s) (bitStep s) := by
  have hr : Running s := h.running (by simp [State.inFlight, hact])
  have hsc := h.scratch
  unfold bitStep
  rw [hact]
  simp only
  unfold fetchBit
  cases unread with
  | succ k =>
    rw [if_neg (by omega)]
    exact runBit_turn hr hsc hact
  | zero =>
    rw [if_pos rfl]
    have hsc' := hsc
    rw [scratchOk, hact] at hsc'
    obtain ⟨hcur, hroot, -, hpl, hsy, ht⟩ := hsc'
    split
    · exact Turn.fault s _ _ hr.cfg (by decide)
    · rename_i hlt
      have hlt' : s.plRpos.toNat < s.plLen.toNat := by omega
      obtain ⟨b, d, hb, _⟩ := readPlb_ok (s := s) (i := s.plRpos.toNat) (by have := hr.lengths.2.2.1; omega)
      rw [hb]
      have hpos : (s.plRpos + 1#32).toNat = s.plRpos.toNat + 1 :=
        toNat_add_one (n := s.plLen.toNat) hlt' cap_le
      have hcapp : (s.plRpos + 1#32).toNat ≤ s.cfg.plCap.toNat := by have := hr.lengths.2.2.1; omega
      simp only [Run.bind_ok, runFetched]
      have hrun : Running
          { s with draws := d, plRpos := s.plRpos + 1#32, act := Activity.walking t cur b 8 } :=
        ⟨hr.cfg, hr.memories, ⟨hr.lengths.1, hr.lengths.2.1, hr.lengths.2.2.1, hcapp, hr.lengths.2.2.2.2⟩, hr.carry,
          hr.status, hr.cause, hr.info⟩
      refine (runBit_turn (unread := 7) hrun ?_ rfl).mono fun u hu => ⟨hu.1, fun hf => ?_, hu.2.2⟩
      · exact ⟨hcur, hroot, le_refl _, by show (s.plRpos + 1#32).toNat ≤ s.plLen.toNat; omega, hsy, ht⟩
      · have := hu.2.1 hf
        refine ⟨?_, by rw [this.2, hact]; rfl⟩
        have h1 := this.1
        simp only [pending, hact] at h1 ⊢
        rw [hpos] at h1
        omega

/-! The whole commands. -/

theorem flight_tdes {s : State} (h : inFlightOf s.act = some .tdes) : ∃ p n, s.act = .tokenising p n := by
  cases hs : s.act with
  | idle => simp [hs, inFlightOf] at h
  | tokenising p n => exact ⟨p, n, rfl⟩
  | walking t c b u => simp [hs, inFlightOf] at h

theorem flight_unpack {s : State} (h : inFlightOf s.act = some .unpack) : ∃ t c b u, s.act = .walking t c b u := by
  cases hs : s.act with
  | idle => simp [hs, inFlightOf] at h
  | tokenising p n => simp [hs, inFlightOf] at h
  | walking t c b u => exact ⟨t, c, b, u, rfl⟩

/-- What the loop of a stream-reading command ends in. -/
def Ended (cs : List Cause) (t : State) : Prop := Inv t ∧ t.inFlight = false ∧ CauseIn cs t

/-- The loop of a command in flight ends in the invariant, between commands, within the bits or bytes pending. -/
theorem drive_turns {f : State → Answer} {cmd : Instr} {cs : List Cause}
    (hf : ∀ s, Inv s → inFlightOf s.act = some cmd → Nexts (Turn cs s) (f s)) (n : Nat) {s : State} (h : Inv s)
    (hcmd : s.inFlight = true → inFlightOf s.act = some cmd) (hc : CauseIn cs s) (hn : pending s ≤ n) :
    Nexts (Ended cs) (drive f n s) := by
  refine (drive_nexts
    (I := fun t => Inv t ∧ (t.inFlight = true → inFlightOf t.act = some cmd) ∧ CauseIn cs t) (μ := pending)
    (fun t ht hfl => ?_) n s ⟨h, hcmd, hc⟩ hn).mono fun t ht => ⟨ht.1.1, ht.2, ht.1.2.2⟩
  exact (hf t ht.1 (ht.2.1 hfl)).mono fun u hu =>
    ⟨⟨hu.1, fun hfu => (hu.2.1 hfu).2.trans (ht.2.1 hfl), hu.2.2⟩, fun hfu => (hu.2.1 hfu).1⟩

/-- TDES ends, in a state of the invariant (R340). -/
theorem execTdes_inv {s : State} (h : Inv s) (hs : s.inFlight = false) :
    Nexts (fun t => Inv t ∧ t.inFlight = false ∧ (s.faulted = false → CauseIn deserializerCauses t))
      (execTdes s) := by
  have hnb : s.busy = false := h.flags.1.trans hs
  unfold execTdes
  rcases whenIdle_cases s (fun s => drive tokenStep s.tsLen.toNat { beginCommand s with act := .tokenising 0 0 }) with
    ⟨hf, he⟩ | ⟨_, hb', _⟩ | ⟨hf, _, he⟩
  · rw [he]; exact ⟨h, hs, fun h' => by simp [hf] at h'⟩
  · rw [hnb] at hb'; cases hb'
  · rw [he]
    have hr := (h.begin (status_zero hf hnb)).frame (t := { beginCommand s with act := .tokenising 0 0 }) rfl
    refine (drive_turns (cmd := .tdes) (cs := deserializerCauses) (fun t ht hfl => ?_) _
      (hr.inv (by simp [State.inFlight]) ⟨Nat.zero_le _, Nat.zero_le _⟩) (fun _ => rfl) hr.causeIn
      (by simp [pending])).mono fun t ht => ⟨ht.1, ht.2.1, fun _ => ht.2.2⟩
    obtain ⟨p, n, hact⟩ := flight_tdes hfl
    exact tokenStep_turn ht hact

theorem emitRoot_running (n : Nat) {s : State} (h : Running s) (hroot : s.root.toNat < s.cfg.nn.toNat)
    (hfit : s.syLen.toNat + n ≤ s.cfg.syCap.toNat) :
    (emitRoot n s).Holds (fun _ t => Running t) (Raises unpackerCauses) := by
  induction n generalizing s with
  | zero => exact h
  | succ n ih =>
    unfold emitRoot
    obtain ⟨r, d, hr, _⟩ := readNm_ok (s := s) hroot
    rw [hr]
    simp only [Run.bind_ok]
    have hlt : s.syLen.toNat < s.cfg.syCap.toNat := by omega
    rw [emitSym_ok (s := { s with draws := d }) hlt]
    refine ih (emit_running (s := { s with draws := d }) (h.frame rfl) hlt) hroot ?_
    show (s.syLen + 1#32).toNat + n ≤ s.cfg.syCap.toNat
    rw [toNat_add_one hlt cap_le]; omega

/-- What UNPACK's start leaves: the command is over, or its walk begins with the whole payload pending. -/
def Started (s t : State) : Prop :=
  Inv t ∧ (t.inFlight = true → inFlightOf t.act = some .unpack ∧ pending t ≤ 8 * s.plLen.toNat) ∧
  CauseIn unpackerCauses t

theorem startUnpack_started {s : State} (h : Running s) : Nexts (Started s) (startUnpack s).finish := by
  have h0 : Running { s with syLen := 0#32, plRpos := 0#32 } :=
    ⟨h.cfg, h.memories, ⟨h.lengths.1, h.lengths.2.1, h.lengths.2.2.1, Nat.zero_le _, Nat.zero_le _,
      h.lengths.2.2.2.2.2⟩, h.carry, h.status, h.cause, h.info⟩
  have hdone : ∀ {t : State}, Running t → Started s (endCommand t) :=
    fun ht => ⟨ht.endCommand, fun h' => by simp at h', fun h' => by simp [ht.faulted] at h'⟩
  have hfault : ∀ {t : State} (c : Cause) (i : BitVec 32), Raises unpackerCauses c i t →
      Started s (enterFault c i t) :=
    fun c i ht => ⟨enterFault_inv c i _ ht.1, fun h' => by simp at h', fun _ => ⟨c, ht.2, rfl⟩⟩
  unfold startUnpack
  simp only
  split
  · exact hdone h0
  · split
    · exact hfault _ _ ⟨h.cfg, by decide⟩
    · split
      · exact hfault _ _ ⟨h.cfg, by decide⟩
      · rename_i hT hcap hroot
        have hroot' : s.root.toNat < s.cfg.nn.toNat := by omega
        obtain ⟨r, d, hr, _⟩ := readNm_ok (s := { s with syLen := 0#32, plRpos := 0#32 }) (n := s.root.toNat) hroot'
        rw [hr]
        simp only [Run.bind_ok]
        have hd : Running { s with syLen := 0#32, plRpos := 0#32, draws := d } := h0.frame rfl
        split
        · exact Run.Holds.finish (Run.Holds.bind ((emitRoot_running _ hd hroot' (by
            show 0 + s.arg.toNat ≤ s.cfg.syCap.toNat; omega)).mono (fun _ t ht => hdone ht)
            fun c i t ht => hfault c i ht))
        · refine ⟨Running.inv (h0.frame rfl) (by simp [State.inFlight]) ?_, fun _ => ⟨rfl, ?_⟩, (h0.frame rfl).causeIn⟩
          · refine ⟨hroot', hroot', Nat.zero_le _, Nat.zero_le _, ?_, ?_⟩
            · have : s.arg.toNat ≠ 0 := fun h => hT (BitVec.eq_of_toNat_eq (by simpa using h))
              show 0 < s.arg.toNat
              omega
            · show s.arg.toNat ≤ s.cfg.syCap.toNat
              omega
          · simp [pending]

/-- UNPACK ends, in a state of the invariant (R340). -/
theorem execUnpack_inv {s : State} (h : Inv s) (hs : s.inFlight = false) :
    Nexts (fun t => Inv t ∧ t.inFlight = false ∧ (s.faulted = false → CauseIn unpackerCauses t)) (execUnpack s) := by
  have hnb : s.busy = false := h.flags.1.trans hs
  unfold execUnpack
  rcases whenIdle_cases s (fun s => andThen (startUnpack (beginCommand s)).finish (drive bitStep (8 * s.plLen.toNat)))
    with ⟨hf, he⟩ | ⟨_, hb', _⟩ | ⟨hf, _, he⟩
  · rw [he]; exact ⟨h, hs, fun h' => by simp [hf] at h'⟩
  · rw [hnb] at hb'; cases hb'
  · rw [he]
    refine Nexts.andThen ((startUnpack_started (h.begin (status_zero hf hnb))).mono fun t ht => ?_)
    refine (drive_turns (cmd := .unpack) (cs := unpackerCauses) (fun u hu hfl => ?_) _ ht.1
      (fun hfl => (ht.2.1 hfl).1) ht.2.2 ?_).mono fun t ht => ⟨ht.1, ht.2.1, fun _ => ht.2.2⟩
    · obtain ⟨_, _, _, _, ha⟩ := flight_unpack hfl
      exact bitStep_turn hu ha
    · cases hfl : t.inFlight with
      | true => exact (ht.2.1 hfl).2
      | false =>
        have : t.act = .idle := by simpa [State.inFlight] using hfl
        simp [pending, this]

end Sys2Proof.Safety
end

