-- ==== Sys2Proof/Laws/Tokens.lean ====
section
/-! SUPPORT. Tokens of a stream whose bytes are defined: what a fetch reads, and that TDES then runs the token or, where
there is none, raises the fault of its bytes. -/

namespace Sys2Proof

/-- A token is a first byte and as many continuation bytes as it announces. -/
theorem decodeToken_shape {b0 : Byte} {bs rest : List Byte} {i : Instr}
    (h : decodeToken (b0 :: bs) = .ok (i, rest)) :
    (∃ cs, bs = cs ++ rest ∧ (contCount b0).getD 0 = cs.length ∧ ∀ b ∈ cs, isCont b = true) ∧
      (b0 = 0x00#8 ↔ i = .tokEnd) := by
  simp only [decodeToken] at h
  split at h
  · rename_i h0; cases h; subst h0
    exact ⟨⟨[], rfl, rfl, by simp⟩, by simp⟩
  · rename_i h0
    split at h
    · rename_i h1; cases h; subst h1
      exact ⟨⟨[], rfl, rfl, by simp⟩, by simp⟩
    · split at h
      · simp at h
      · rename_i n hn
        split at h
        · simp at h
        · rename_i cs rest' hc
          split at h
          · rename_i i' hi
            simp only [Except.ok.injEq, Prod.mk.injEq] at h
            obtain ⟨rfl, rfl⟩ := h
            refine ⟨⟨cs, (takeConts_length hc).2, by rw [hn]; exact (takeConts_length hc).1.symm,
              takeConts_isCont hc⟩, by simp [h0], fun he => ?_⟩
            subst he
            have := leafOfBytes_isSome b0 cs (by rw [(takeConts_length hc).1]; exact contCount_le hn)
            match cs, hi with
            | [], hi => cases hi
            | [_], hi => cases hi
            | [_, _], hi => cases hi
            | [_, _, _], hi => cases hi
            | _ :: _ :: _ :: _ :: _, hi => cases hi
          · simp at h

end Sys2Proof

namespace Sys2Proof.Safety

open Sys2Proof.Machine

variable {α : Type}

theorem holdsAt_nil (m : Memory α) (i : Nat) : holdsAt m i [] := fun k v h => by simp at h

theorem holdsAt_cons {m : Memory α} {i : Nat} {v : α} {vs : List α} :
    holdsAt m i (v :: vs) ↔ m.read i = some v ∧ holdsAt m (i + 1) vs := by
  constructor
  · intro h
    refine ⟨h 0 v rfl, fun k w hk => ?_⟩
    have := h (k + 1) w (by simpa using hk)
    rwa [show i + (k + 1) = i + 1 + k by omega] at this
  · rintro ⟨h0, h⟩ k w hk
    cases k with
    | zero => simp at hk; subst hk; exact h0
    | succ k =>
      have := h k w (by simpa using hk)
      rwa [show i + (k + 1) = i + 1 + k by omega]

theorem holdsAt_append {m : Memory α} {i : Nat} {vs ws : List α} :
    holdsAt m i (vs ++ ws) ↔ holdsAt m i vs ∧ holdsAt m (i + vs.length) ws := by
  induction vs generalizing i with
  | nil => simp [holdsAt_nil]
  | cons v vs ih =>
    rw [List.cons_append, holdsAt_cons, holdsAt_cons, ih, and_assoc, List.length_cons,
      show i + 1 + vs.length = i + (vs.length + 1) by omega]

theorem holdsAt_of_outside {m m' : Memory α} {lo hi i : Nat} {vs : List α} (h : holdsAt m i vs)
    (hs : sameOutside m m' lo hi) (ho : i + vs.length ≤ lo ∨ hi ≤ i) : holdsAt m' i vs := by
  intro k v hk
  have hlt : k < vs.length := by
    rcases Nat.lt_or_ge k vs.length with h | h
    · exact h
    · rw [List.getElem?_eq_none h] at hk; simp at hk
  rw [hs (i + k) (by omega)]
  exact h k v hk

theorem sameOutside_refl (m : Memory α) (lo hi : Nat) : sameOutside m m lo hi := fun _ _ => rfl

theorem sameOutside_write (m : Memory α) (a : Nat) (v : α) : sameOutside m (m.write a v) a (a + 1) :=
  fun _ hb => Memory.read_write_other m v (by omega)

theorem sameOutside_trans {m m' m'' : Memory α} {lo hi lo' hi' : Nat} (h : sameOutside m m' lo hi)
    (h' : sameOutside m' m'' lo' hi') : sameOutside m m'' (min lo lo') (max hi hi') := by
  intro a ha
  rw [h' a (by omega), h a (by omega)]

theorem sameOutside_mono {m m' : Memory α} {lo hi lo' hi' : Nat} (h : sameOutside m m' lo hi) (hlo : lo' ≤ lo)
    (hhi : hi ≤ hi') : sameOutside m m' lo' hi' := fun a ha => h a (by omega)

theorem streamAt_append {s : State} {p : Nat} {bs cs : List Byte} :
    streamAt s p (bs ++ cs) ↔ streamAt s p bs ∧ streamAt s (p + bs.length) cs := by
  unfold streamAt
  rw [holdsAt_append, List.length_append]
  constructor
  · rintro ⟨⟨h1, h2⟩, h3, h4⟩
    exact ⟨⟨h1, by omega, h4⟩, h2, by omega, h4⟩
  · rintro ⟨⟨h1, h2, h3⟩, h4, h5, _⟩
    exact ⟨⟨h1, h4⟩, by omega, h3⟩

/-- Defined continuation bytes are all read. -/
theorem readConts_defined {cs : List Byte} {q : Nat} {s : State} (h : streamAt s q cs)
    (hc : ∀ b ∈ cs, isCont b = true) : readConts cs.length q s = .ok cs s := by
  induction cs generalizing q with
  | nil => rfl
  | cons b cs ih =>
    obtain ⟨h1, h2, h3⟩ := h
    obtain ⟨h4, h5⟩ := holdsAt_cons.mp h1
    rw [List.length_cons] at h2
    have ih' := ih (q := q + 1) ⟨h5, by omega, h3⟩ fun c hc' => hc c (by simp [hc'])
    rw [List.length_cons, readConts]
    rw [if_neg (by omega), readTsb_defined h4 (by omega)]
    simp only [Run.bind_ok, hc b (by simp), if_true, ih']

/-- A defined token is fetched as it is. -/
theorem fetchToken_defined {p ntok : Nat} {bs : List Byte} {i : Instr} {s : State} (h : streamAt s p bs)
    (hd : decodeToken bs = .ok (i, [])) (hn : i = .tokEnd ∨ ntok < s.cfg.nn.toNat) :
    fetchToken p ntok s = .ok i s := by
  cases bs with
  | nil => simp [decodeToken] at hd
  | cons b0 bs =>
    obtain ⟨⟨cs, h1, h2, h3⟩, h4⟩ := decodeToken_shape hd
    rw [List.append_nil] at h1
    subst h1
    obtain ⟨h5, h6, h7⟩ := h
    obtain ⟨h8, h9⟩ := holdsAt_cons.mp h5
    rw [List.length_cons] at h6
    unfold fetchToken
    rw [if_neg (by omega), readTsb_defined h8 (by omega)]
    simp only [Run.bind_ok]
    have hno : ¬ (b0 ≠ 0x00#8 ∧ s.cfg.nn.toNat ≤ ntok) := by
      rintro ⟨hb, hle⟩
      rcases hn with rfl | hn
      · exact hb (h4.mpr rfl)
      · omega
    rw [if_neg hno, h2, readConts_defined ⟨h9, by omega, h7⟩ h3]
    simp only [Run.bind_ok, hd]

/-- A decoded token is a token. -/
theorem runToken_exec {i : Instr} (h : 1 ≤ tokenLen i) (s : State) : runToken i s = exec i s := by
  cases i with
  | tokEnd | tokInternal | tokLeaf1 | tokLeaf2 | tokLeaf3 | tokLeaf4 => rfl
  | _ => simp [tokenLen] at h

theorem tokenStep_defined {p ntok : Nat} {bs : List Byte} {i : Instr} {s : State} (ha : s.act = .tokenising p ntok)
    (h : streamAt s p bs) (hd : decodeToken bs = .ok (i, [])) (hn : i = .tokEnd ∨ ntok < s.cfg.nn.toNat) :
    tokenStep s = exec i s := by
  unfold tokenStep
  rw [ha]
  simp only [fetchToken_defined h hd hn, runFetched]
  exact runToken_exec (decodeToken_length hd).1 s

/-! Tokens that cannot be fetched. -/

/-- The first byte of a token of more than one byte announces the bytes that follow it (R108). -/
theorem multiByte_contCount {b : Byte} {n : Nat} (h : multiByte b n) :
    contCount b = some (n - 1) ∧ b ≠ 0x00#8 ∧ b ≠ 0x01#8 := by
  have key : ∀ b : Byte, (0xC2 ≤ b.toNat ∧ b.toNat ≤ 0xDF → contCount b = some 1) ∧
      (0xE0 ≤ b.toNat ∧ b.toNat ≤ 0xEF → contCount b = some 2) ∧
      (0xF0 ≤ b.toNat ∧ b.toNat ≤ 0xF4 → contCount b = some 3) ∧
      (0xC2 ≤ b.toNat → b ≠ 0x00#8 ∧ b ≠ 0x01#8) := by decide
  obtain ⟨k1, k2, k3, k4⟩ := key b
  rcases h with ⟨h1, h2, rfl⟩ | ⟨h1, h2, rfl⟩ | ⟨h1, h2, rfl⟩
  · exact ⟨k1 ⟨h1, h2⟩, k4 (by omega)⟩
  · exact ⟨k2 ⟨h1, h2⟩, k4 (by omega)⟩
  · exact ⟨k3 ⟨h1, h2⟩, k4 (by omega)⟩

theorem continues_isCont : ∀ b : Byte, isCont b = true ↔ continues b := by unfold continues; decide

/-- A fetched first byte of a token of `n + 1` bytes, where it is no END and a record is left. -/
theorem fetchToken_start {p ntok n : Nat} {b0 : Byte} {s : State} (h0 : s.tsb.read p = some b0)
    (hp : p < s.tsLen.toNat) (hc : s.tsLen.toNat ≤ s.cfg.tsCap.toNat) (hn : ntok < s.cfg.nn.toNat)
    (hb : contCount b0 = some n) :
    fetchToken p ntok s = (readConts n (p + 1) s).bind fun bs s =>
      match decodeToken (b0 :: bs) with
      | .ok (i, _) => .ok i s
      | .error e => rejectToken e p s := by
  unfold fetchToken
  rw [if_neg (by omega), readTsb_defined h0 (by omega)]
  simp only [Run.bind_ok]
  rw [if_neg (by omega), hb]
  rfl

/-- With NN tokens stored every first byte but END's raises NodeOverflow (R153, R286). -/
theorem tokenStep_full {p ntok : Nat} {b : Byte} {s : State} (ha : s.act = .tokenising p ntok)
    (hst : streamAt s p [b]) (hb : b ≠ 0x00#8) (hn : s.cfg.nn.toNat ≤ ntok) :
    tokenStep s = .next (enterFault .nodeOverflow (BitVec.ofNat 32 p) s) := by
  obtain ⟨h1, h2, h3⟩ := hst
  simp only [List.length_singleton] at h2
  simp only [tokenStep, ha, fetchToken]
  rw [if_neg (by omega), readTsb_defined (holdsAt_cons.mp h1).1 (by omega)]
  simp only [Run.bind_ok]
  rw [if_pos ⟨hb, hn⟩]; rfl

/-- Where the valid bytes end before a token, TreeNoTerm is raised (R153). -/
theorem tokenStep_none {p ntok : Nat} {s : State} (ha : s.act = .tokenising p ntok) (h : s.tsLen.toNat ≤ p) :
    tokenStep s = .next (enterFault .treeNoTerm (BitVec.ofNat 32 p) s) := by
  simp only [tokenStep, ha, fetchToken]
  rw [if_pos h]; rfl

/-- Continuation bytes up to the end of the valid bytes are read, and no more. -/
theorem readConts_cut {cs : List Byte} {n q : Nat} {s : State} (h : streamAt s q cs) (hc : ∀ b ∈ cs, isCont b = true)
    (hn : cs.length ≤ n) (he : q + cs.length = s.tsLen.toNat) : readConts n q s = .ok cs s := by
  induction cs generalizing n q with
  | nil =>
    cases n with
    | zero => rfl
    | succ n => rw [readConts, if_pos (by simpa using he.ge)]
  | cons b cs ih =>
    cases n with
    | zero => simp at hn
    | succ n =>
      obtain ⟨h1, h2, h3⟩ := h
      obtain ⟨h4, h5⟩ := holdsAt_cons.mp h1
      rw [List.length_cons] at h2 hn he
      rw [readConts, if_neg (by omega), readTsb_defined h4 (by omega)]
      simp only [Run.bind_ok, hc b (by simp), if_true,
        ih (n := n) (q := q + 1) ⟨h5, by omega, h3⟩ (fun c hc' => hc c (by simp [hc'])) (by omega) (by omega)]

/-- A byte that is no continuation byte is the last one read. -/
theorem readConts_bad {cs : List Byte} {b : Byte} {n q : Nat} {s : State} (h : streamAt s q (cs ++ [b]))
    (hc : ∀ c ∈ cs, isCont c = true) (hb : isCont b = false) (hn : cs.length < n) :
    readConts n q s = .ok (cs ++ [b]) s := by
  induction cs generalizing n q with
  | nil =>
    cases n with
    | zero => simp at hn
    | succ n =>
      obtain ⟨h1, h2, h3⟩ := h
      simp only [List.nil_append, List.length_singleton] at h1 h2 ⊢
      rw [readConts, if_neg (by omega), readTsb_defined (holdsAt_cons.mp h1).1 (by omega)]
      simp [hb]
  | cons c cs ih =>
    cases n with
    | zero => simp at hn
    | succ n =>
      obtain ⟨h1, h2, h3⟩ := h
      obtain ⟨h4, h5⟩ := holdsAt_cons.mp h1
      rw [List.cons_append, List.length_cons] at h2
      rw [List.length_cons] at hn
      rw [readConts, if_neg (by omega), readTsb_defined h4 (by omega)]
      simp only [Run.bind_ok, hc c (by simp), if_true,
        ih (n := n) (q := q + 1) ⟨h5, by omega, h3⟩ (fun d hd => hc d (by simp [hd])) (by omega), List.cons_append]

theorem takeConts_cut {cs : List Byte} {n : Nat} (hc : ∀ b ∈ cs, isCont b = true) (hn : cs.length < n) :
    takeConts n cs = .error .truncated := by
  induction cs generalizing n with
  | nil => cases n with
    | zero => simp at hn
    | succ n => rfl
  | cons b cs ih => cases n with
    | zero => simp at hn
    | succ n =>
      rw [List.length_cons] at hn
      simp [takeConts, hc b (by simp), ih (n := n) (fun c hc' => hc c (by simp [hc'])) (by omega)]

theorem takeConts_bad {cs : List Byte} {b : Byte} {n : Nat} (hc : ∀ c ∈ cs, isCont c = true) (hb : isCont b = false)
    (hn : cs.length < n) : takeConts n (cs ++ [b]) = .error .badContinuation := by
  induction cs generalizing n with
  | nil => cases n with
    | zero => simp at hn
    | succ n => simp [takeConts, hb]
  | cons c cs ih => cases n with
    | zero => simp at hn
    | succ n =>
      rw [List.length_cons] at hn
      simp [takeConts, hc c (by simp), ih (n := n) (fun d hd => hc d (by simp [hd])) (by omega)]

/-- Valid bytes that end inside a token raise TreeNoTerm(TS_LEN) (R105). -/
theorem tokenStep_cut {p ntok n : Nat} {b0 : Byte} {cs : List Byte} {s : State} (ha : s.act = .tokenising p ntok)
    (hst : streamAt s p (b0 :: cs)) (hb : multiByte b0 n) (hc : ∀ c ∈ cs, continues c) (hl : cs.length + 1 < n)
    (he : p + 1 + cs.length = s.tsLen.toNat) (hn : ntok < s.cfg.nn.toNat) :
    tokenStep s = .next (enterFault .treeNoTerm s.tsLen s) := by
  obtain ⟨h0, hz, h1⟩ := multiByte_contCount hb
  have hc' : ∀ c ∈ cs, isCont c = true := fun c h => (continues_isCont c).mpr (hc c h)
  obtain ⟨h4, h5⟩ := holdsAt_cons.mp hst.1
  have hd : decodeToken (b0 :: cs) = .error .truncated := by
    simp only [decodeToken, hz, h1, if_false, h0, takeConts_cut hc' (show cs.length < n - 1 by omega)]
  simp only [tokenStep, ha]
  rw [fetchToken_start h4 (by omega) hst.2.2 hn h0,
    readConts_cut ⟨h5, by omega, hst.2.2⟩ hc' (by omega) he]
  simp only [Run.bind_ok, hd, rejectToken, runFetched]

/-- A byte of a token that is no continuation byte raises Utf8Malformed at the token's first byte (R105). -/
theorem tokenStep_bad {p ntok n : Nat} {b0 b : Byte} {cs : List Byte} {s : State} (ha : s.act = .tokenising p ntok)
    (hst : streamAt s p (b0 :: (cs ++ [b]))) (hb : multiByte b0 n) (hc : ∀ c ∈ cs, continues c) (hbad : ¬ continues b)
    (hl : cs.length + 1 < n) (hn : ntok < s.cfg.nn.toNat) :
    tokenStep s = .next (enterFault .utf8Malformed (BitVec.ofNat 32 p) s) := by
  obtain ⟨h0, hz, h1⟩ := multiByte_contCount hb
  have hc' : ∀ c ∈ cs, isCont c = true := fun c h => (continues_isCont c).mpr (hc c h)
  have hb' : isCont b = false := by
    cases h : isCont b with
    | false => rfl
    | true => exact absurd ((continues_isCont b).mp h) hbad
  obtain ⟨h4, h5⟩ := holdsAt_cons.mp hst.1
  have h6 := hst.2.1
  rw [List.length_cons] at h6
  have hd : decodeToken (b0 :: (cs ++ [b])) = .error .badContinuation := by
    simp only [decodeToken, hz, h1, if_false, h0, takeConts_bad hc' hb' (show cs.length < n - 1 by omega)]
  simp only [tokenStep, ha]
  rw [fetchToken_start h4 (by omega) hst.2.2 hn h0,
    readConts_bad ⟨h5, by omega, hst.2.2⟩ hc' hb' (by omega)]
  simp only [Run.bind_ok, hd, rejectToken, runFetched]

end Sys2Proof.Safety
end

