-- ==== Sys2Proof/Laws/Frames.lean ====
section
/-! SUPPORT. Frames: what each unit's pseudocode may change where it goes on, in every state, also in those no run
reaches. -/

namespace Sys2Proof.Machine

variable {α β : Type}

/-- Where the run goes on, `Q` holds. -/
def Run.Oks (Q : α → State → Prop) : Run α → Prop
  | .ok a s => Q a s
  | .raise _ _ _ => True
  | .stop _ => True

@[simp] theorem Run.oks_ok (Q : α → State → Prop) (a : α) (s : State) : (Run.ok a s).Oks Q = Q a s := rfl

@[simp] theorem Run.oks_raise (Q : α → State → Prop) (c : Cause) (i : BitVec 32) (s : State) :
    (Run.raise c i s).Oks Q = True := rfl

@[simp] theorem Run.oks_stop (Q : α → State → Prop) (r : Fault) : (Run.stop r).Oks Q = True := rfl

theorem Run.Oks.bind {m : Run α} {k : α → State → Run β} {Q : β → State → Prop}
    (h : m.Oks fun a s => (k a s).Oks Q) : (m.bind k).Oks Q := by
  cases m <;> exact h

theorem Run.Oks.mono {m : Run α} {Q Q' : α → State → Prop} (h : m.Oks Q) (hq : ∀ a s, Q a s → Q' a s) :
    m.Oks Q' := by
  cases m <;> first | exact hq _ _ h | exact trivial

/-- A next state that holds no fault comes from a run that went on. -/
theorem Run.Oks.out {m : Run Unit} {Q : State → Prop} {t : State} (h : m.Oks fun _ t => Q t) (he : m.finish = .next t)
    (hf : t.faulted = false) : Q t := by
  cases m with
  | ok a s => cases he; exact h
  | raise c i s => cases he; simp at hf
  | stop r => cases he

end Sys2Proof.Machine

namespace Sys2Proof.Safety

open Sys2Proof.Machine

/-! Accesses. -/

theorem readNm_oks (n : Nat) (s : State) :
    (readNm n s).Oks fun _ t => t = { s with draws := t.draws } ∧ n < s.cfg.nn.toNat := by
  unfold readNm
  split
  · rename_i h
    cases hr : s.nm.read n <;> exact ⟨rfl, h⟩
  · exact trivial

theorem readTsb_oks (n : Nat) (s : State) : (readTsb n s).Oks fun _ t => t = { s with draws := t.draws } := by
  unfold readTsb
  split
  · cases hr : s.tsb.read n <;> rfl
  · exact trivial

theorem readPlb_oks (n : Nat) (s : State) : (readPlb n s).Oks fun _ t => t = { s with draws := t.draws } := by
  unfold readPlb
  split
  · cases hr : s.plb.read n <;> rfl
  · exact trivial

/-! The packer. -/

/-- What packing may change: the payload from the byte that holds the next bit up to the last byte. -/
def PackFrame (s t : State) : Prop :=
  t = { s with plLen := t.plLen, free := t.free, plb := t.plb, draws := t.draws } ∧
    sameOutside s.plb t.plb (packedBits s / 8) t.plLen.toNat ∧ packedBits s ≤ packedBits t ∧
    s.plLen.toNat ≤ t.plLen.toNat

theorem PackFrame.refl (s : State) : PackFrame s s :=
  ⟨rfl, sameOutside_refl _ _ _, Nat.le_refl _, Nat.le_refl _⟩

theorem PackFrame.trans {s t u : State} (h : PackFrame s t) (h' : PackFrame t u) : PackFrame s u := by
  obtain ⟨h1, h2, h3, h4⟩ := h
  obtain ⟨g1, g2, g3, g4⟩ := h'
  refine ⟨by rw [g1, h1], sameOutside_mono (sameOutside_trans h2 g2) ?_ ?_, Nat.le_trans h3 g3, Nat.le_trans h4 g4⟩
  · have := Nat.div_le_div_right (c := 8) h3; omega
  · omega

theorem packBit_frame (b : Bool) (s : State) : (packBit b s).Oks fun _ t => PackFrame s t := by
  have hfree := s.free.isLt
  unfold packBit openByte
  split
  · rename_i h0
    have hf0 : s.free.toNat = 0 := by rw [h0]; rfl
    split
    · exact trivial
    · rename_i hcap
      have hlt : s.plLen.toNat < s.cfg.plCap.toNat := by omega
      have hlen : (s.plLen + 1#32).toNat = s.plLen.toNat + 1 := toNat_add_one hlt cap_le
      have hne : ¬ (s.plLen + 1#32 = 0#32) := fun h' => by rw [h'] at hlen; simp at hlen
      rw [writePlb_ok _ hlt]
      simp only [Run.bind_ok, placeBit]
      rw [if_neg hne]
      refine Run.Oks.bind ((readPlb_oks _ _).mono fun byte t ht => ?_)
      rw [ht]
      refine Run.Oks.bind ?_
      unfold writePlb
      split
      · refine ⟨rfl, ?_, ?_, ?_⟩
        · show sameOutside s.plb ((s.plb.write s.plLen.toNat _).write ((s.plLen + 1#32).toNat - 1) _) _
            (s.plLen + 1#32).toNat
          rw [show (s.plLen + 1#32).toNat - 1 = s.plLen.toNat by omega]
          refine sameOutside_mono (sameOutside_trans (sameOutside_write _ _ _) (sameOutside_write _ _ _)) ?_ ?_
          · unfold packedBits; omega
          · omega
        · show packedBits s ≤ 8 * (s.plLen + 1#32).toNat - (BitVec.ofNat 3 (8 - 1)).toNat
          unfold packedBits; simp; omega
        · show s.plLen.toNat ≤ (s.plLen + 1#32).toNat
          omega
      · exact trivial
  · rename_i h0
    have hf1 : s.free.toNat ≠ 0 := fun h' => h0 (BitVec.eq_of_toNat_eq h')
    simp only [Run.bind_ok, placeBit]
    split
    · exact trivial
    · rename_i hne
      have hl : s.plLen.toNat ≠ 0 := fun h' => hne (BitVec.eq_of_toNat_eq h')
      refine Run.Oks.bind ((readPlb_oks _ _).mono fun byte t ht => ?_)
      rw [ht]
      refine Run.Oks.bind ?_
      unfold writePlb
      split
      · refine ⟨rfl, ?_, ?_, Nat.le_refl _⟩
        · refine sameOutside_mono (sameOutside_write _ _ _) ?_ ?_
          · unfold packedBits; show _ ≤ s.plLen.toNat - 1; omega
          · show s.plLen.toNat - 1 + 1 ≤ s.plLen.toNat; omega
        · show packedBits s ≤ 8 * s.plLen.toNat - (BitVec.ofNat 3 (s.free.toNat - 1)).toNat
          unfold packedBits
          have : (BitVec.ofNat 3 (s.free.toNat - 1)).toNat ≤ s.free.toNat - 1 := toNat_ofNat_le _ _
          omega
      · exact trivial

theorem packBits_frame (code : Operand) (n i : Nat) (s : State) :
    (packBits code n i s).Oks fun _ t => PackFrame s t := by
  induction n generalizing i s with
  | zero => exact PackFrame.refl s
  | succ n ih =>
    exact Run.Oks.bind ((packBit_frame _ s).mono fun _ t ht => (ih (i + 1) t).mono fun _ u hu => ht.trans hu)

theorem packCode_frame (s : State) : (packCode s).Oks fun _ t => PackFrame s t := by
  unfold packCode
  split
  · exact trivial
  · exact packBits_frame _ _ _ _

/-! The serializer. -/

/-- What writing the stream may change: TSB from TS_LEN up to the new TS_LEN. -/
def StreamFrame (s t : State) : Prop :=
  t = { s with tsLen := t.tsLen, tsb := t.tsb, draws := t.draws } ∧
    sameOutside s.tsb t.tsb s.tsLen.toNat t.tsLen.toNat ∧ s.tsLen.toNat ≤ t.tsLen.toNat

theorem StreamFrame.refl (s : State) : StreamFrame s s := ⟨rfl, sameOutside_refl _ _ _, Nat.le_refl _⟩

theorem StreamFrame.trans {s t u : State} (h : StreamFrame s t) (h' : StreamFrame t u) : StreamFrame s u := by
  obtain ⟨h1, h2, h3⟩ := h
  obtain ⟨g1, g2, g3⟩ := h'
  exact ⟨by rw [g1, h1], sameOutside_mono (sameOutside_trans h2 g2) (by omega) (by omega), Nat.le_trans h3 g3⟩

theorem StreamFrame.ofDraws {s t u : State} (h : t = { s with draws := t.draws }) (h' : StreamFrame t u) :
    StreamFrame s u := by
  rw [h] at h'; exact h'

theorem appendTsb_frame (b : Byte) (s : State) : (appendTsb b s).Oks fun _ t => StreamFrame s t := by
  unfold appendTsb writeTsb
  split
  · rename_i h
    have hlen : (s.tsLen + 1#32).toNat = s.tsLen.toNat + 1 := toNat_add_one h cap_le
    refine ⟨rfl, ?_, ?_⟩
    · show sameOutside s.tsb _ s.tsLen.toNat (s.tsLen + 1#32).toNat
      rw [hlen]; exact sameOutside_write _ _ _
    · show s.tsLen.toNat ≤ (s.tsLen + 1#32).toNat
      omega
  · exact trivial

theorem appendAll_frame (bs : List Byte) (s : State) : (appendAll bs s).Oks fun _ t => StreamFrame s t := by
  induction bs generalizing s with
  | nil => exact StreamFrame.refl s
  | cons b bs ih =>
    exact Run.Oks.bind ((appendTsb_frame b s).mono fun _ t ht => (ih t).mono fun _ u hu => ht.trans hu)

theorem emitToken_frame (bs : List Byte) (s : State) : (emitToken bs s).Oks fun _ t => StreamFrame s t := by
  unfold emitToken
  split
  · exact trivial
  · exact appendAll_frame bs s

theorem emitLeaf_frame (n : Idx) (x : Sym) (s : State) : (emitLeaf n x s).Oks fun _ t => StreamFrame s t := by
  unfold emitLeaf
  split
  · exact trivial
  · split
    · exact trivial
    · exact emitToken_frame _ s

theorem serialize_frame (budget : Nat) (stack : List Idx) (s : State) :
    (serialize budget stack s).Oks fun _ t => StreamFrame s t := by
  induction budget generalizing stack s with
  | zero =>
    cases stack with
    | nil => exact StreamFrame.refl s
    | cons n stack => exact trivial
  | succ budget ih =>
    cases stack with
    | nil => exact StreamFrame.refl s
    | cons n stack =>
      unfold serialize
      split
      · exact trivial
      · refine Run.Oks.bind ((readNm_oks _ s).mono fun r t ht => ?_)
        split
        · exact Run.Oks.bind ((emitLeaf_frame n r.sym t).mono fun _ u hu =>
            (ih stack u).mono fun _ w hw => StreamFrame.ofDraws ht.1 (hu.trans hw))
        · exact Run.Oks.bind ((emitToken_frame [0x01#8] t).mono fun _ u hu =>
            (ih _ u).mono fun _ w hw => StreamFrame.ofDraws ht.1 (hu.trans hw))

/-! Tokens. -/

theorem rebuild_frame (ntok fuel next : Nat) (s : State) :
    (rebuild ntok fuel next s).Oks fun _ t =>
      t = { s with nm := t.nm, draws := t.draws } ∧ sameOutside s.nm t.nm 0 ntok := by
  induction fuel generalizing next s with
  | zero => exact trivial
  | succ fuel ih =>
    unfold rebuild
    split
    · exact trivial
    · rename_i hk
      refine Run.Oks.bind ((readNm_oks _ s).mono fun r t ht => ?_)
      have htn : t.nm = s.nm := by rw [ht.1]
      split
      · exact ⟨by rw [ht.1], by rw [htn]; exact sameOutside_refl _ _ _⟩
      · refine Run.Oks.bind ((ih (next + 1) t).mono fun l u hu => ?_)
        refine Run.Oks.bind ((ih l.2 u).mono fun r w hw => ?_)
        refine Run.Oks.bind ?_
        unfold writeNm
        split
        · refine ⟨?_, ?_⟩
          · rw [hw.1, hu.1, ht.1]
          · have h1 := hu.2
            rw [htn] at h1
            refine sameOutside_mono (sameOutside_trans (sameOutside_trans h1 hw.2) (sameOutside_write _ next _)) ?_ ?_
            · omega
            · omega
        · exact trivial

/-- What END may change. -/
theorem finishTree_frame (p ntok : Nat) (s : State) :
    (finishTree p ntok s).Oks fun _ t =>
      (t = { s with nm := t.nm, root := t.root, tsRpos := BitVec.ofNat 32 (p + 1), nodeCnt := BitVec.ofNat 32 ntok,
                    status := statusEnded s.status, act := .idle, draws := t.draws }) ∧
        sameOutside s.nm t.nm 0 ntok := by
  unfold finishTree
  have key : (rebuildTree ntok s).Oks fun _ t =>
      t = { s with nm := t.nm, draws := t.draws } ∧ sameOutside s.nm t.nm 0 ntok := by
    unfold rebuildTree
    split
    · exact ⟨rfl, sameOutside_refl _ _ _⟩
    · refine Run.Oks.bind ((rebuild_frame ntok _ 0 s).mono fun l t ht => ?_)
      split
      · exact ht
      · exact trivial
  refine Run.Oks.bind (key.mono fun root t ht => ⟨?_, ht.2⟩)
  rw [ht.1]; rfl

/-- What a token that becomes a record may change. -/
theorem storeToken_frame (r : NodeRec) (len p ntok : Nat) (s : State) :
    (storeToken r len p ntok s).Oks fun _ t =>
      (t = { s with nm := t.nm, act := .tokenising (p + len) (ntok + 1) }) ∧
        sameOutside s.nm t.nm ntok (ntok + 1) ∧ ntok < s.cfg.nn.toNat := by
  unfold storeToken
  split
  · exact trivial
  · rename_i h
    rw [writeNm_ok _ (by omega)]
    exact ⟨rfl, sameOutside_write _ _ _, by omega⟩

theorem storeLeaf_frame (ok : Bool) (x : Sym) (len p ntok : Nat) (s : State) :
    (storeLeaf ok x len p ntok s).Oks fun _ t =>
      (t = { s with nm := t.nm, act := .tokenising (p + len) (ntok + 1) }) ∧
        sameOutside s.nm t.nm ntok (ntok + 1) ∧ ntok < s.cfg.nn.toNat := by
  unfold storeLeaf
  split
  · exact trivial
  · split
    · exact storeToken_frame _ _ _ _ _
    · exact trivial

/-- What a token other than END may change when it raises nothing. -/
theorem token_frame {i : Instr} {p ntok : Nat} {s t : State} (ha : s.act = .tokenising p ntok)
    (hc : isCommand i = false) (hi : i ≠ .tokEnd) (he : exec i s = .next t) (hf : t.faulted = false) :
    (t = { s with nm := t.nm, act := .tokenising (p + tokenLen i) (ntok + 1) }) ∧
      sameOutside s.nm t.nm ntok (ntok + 1) ∧ ntok < s.cfg.nn.toNat := by
  cases i with
  | tokEnd => exact absurd rfl hi
  | tokInternal =>
    have he' : inTokens _ s = .next t := he
    simp only [inTokens, ha] at he'
    exact (storeToken_frame _ _ _ _ _).out he' hf
  | tokLeaf1 x =>
    have he' : execTokLeaf1 x s = .next t := he
    unfold execTokLeaf1 at he'
    split at he'
    · cases he'
    · simp only [inTokens, ha] at he'
      exact (storeLeaf_frame _ _ _ _ _ _).out he' hf
  | tokLeaf2 x =>
    have he' : inTokens _ s = .next t := he
    simp only [inTokens, ha] at he'
    exact (storeLeaf_frame _ _ _ _ _ _).out he' hf
  | tokLeaf3 x =>
    have he' : inTokens _ s = .next t := he
    simp only [inTokens, ha] at he'
    exact (storeLeaf_frame _ _ _ _ _ _).out he' hf
  | tokLeaf4 x =>
    have he' : inTokens _ s = .next t := he
    simp only [inTokens, ha] at he'
    exact (storeLeaf_frame _ _ _ _ _ _).out he' hf
  | bitLeft =>
    have he' : inWalk _ s = .next t := he
    simp only [inWalk, ha] at he'
    cases he'
  | bitRight =>
    have he' : inWalk _ s = .next t := he
    simp only [inWalk, ha] at he'
    cases he'
  | _ => cases hc

/-! Payload bits. -/

theorem emitSym_frame (x : Sym) (s : State) :
    (emitSym x s).Oks fun _ t =>
      t = { s with syb := t.syb, syLen := t.syLen } ∧ t.syLen.toNat = s.syLen.toNat + 1 ∧
        sameOutside s.syb t.syb s.syLen.toNat (s.syLen.toNat + 1) := by
  unfold emitSym writeSyb
  split
  · rename_i h
    exact ⟨rfl, toNat_add_one h cap_le, sameOutside_write _ _ _⟩
  · exact trivial

/-- What a payload bit may change when it raises nothing: at most one symbol comes out, and UNPACK has ended or holds
one bit less. -/
theorem walkTo_frame (right : Bool) (T : Operand) (cur : Idx) (byte : Byte) (k : Nat) (s : State) :
    (walkTo right T cur byte k s).Oks fun _ t =>
      t = { s with syb := t.syb, syLen := t.syLen, status := t.status, act := t.act, draws := t.draws } ∧
        sameOutside s.syb t.syb s.syLen.toNat (s.syLen.toNat + 1) ∧ s.syLen.toNat ≤ t.syLen.toNat ∧
        sameOutside s.syb t.syb s.syLen.toNat t.syLen.toNat ∧
        ((t.act = .idle ∧ t.status = statusEnded s.status) ∨
          ((∃ c, t.act = .walking T c byte k) ∧ t.status = s.status)) := by
  unfold walkTo
  refine Run.Oks.bind ((readNm_oks _ s).mono fun r t ht => ?_)
  split
  · exact trivial
  · refine Run.Oks.bind ((readNm_oks _ t).mono fun rc u hu => ?_)
    have hus : u = { s with draws := u.draws } := by rw [hu.1, ht.1]
    have hsyb : u.syb = s.syb := by rw [hus]
    have hsyl : u.syLen = s.syLen := by rw [hus]
    have hst : u.status = s.status := by rw [hus]
    split
    · refine ⟨?_, ?_, ?_, ?_, Or.inr ⟨⟨_, rfl⟩, hst⟩⟩
      · rw [hus]
      · show sameOutside s.syb u.syb _ _
        rw [hsyb]; exact sameOutside_refl _ _ _
      · show s.syLen.toNat ≤ u.syLen.toNat
        rw [hsyl]
      · show sameOutside s.syb u.syb _ _
        rw [hsyb]; exact sameOutside_refl _ _ _
    · refine Run.Oks.bind ((emitSym_frame rc.sym u).mono fun _ w hw => ?_)
      obtain ⟨hw1, hw2, hw3⟩ := hw
      rw [hsyl] at hw2
      rw [hsyb, hsyl] at hw3
      have hws : w.status = s.status := by rw [hw1]; exact hst
      have hw3' : sameOutside s.syb w.syb s.syLen.toNat w.syLen.toNat := by rw [hw2]; exact hw3
      split
      · refine ⟨?_, hw3, ?_, hw3', Or.inl ⟨rfl, ?_⟩⟩
        · rw [hw1, hus]; rfl
        · show s.syLen.toNat ≤ w.syLen.toNat
          omega
        · show statusEnded w.status = _
          rw [hws]
      · refine ⟨?_, hw3, ?_, hw3', Or.inr ⟨⟨_, rfl⟩, hws⟩⟩
        · rw [hw1, hus]
        · show s.syLen.toNat ≤ w.syLen.toNat
          omega

theorem emitRoot_frame (n : Nat) (s : State) :
    (emitRoot n s).Oks fun _ t =>
      t = { s with syb := t.syb, syLen := t.syLen, draws := t.draws } ∧ s.syLen.toNat ≤ t.syLen.toNat ∧
        sameOutside s.syb t.syb s.syLen.toNat t.syLen.toNat := by
  induction n generalizing s with
  | zero => exact ⟨rfl, Nat.le_refl _, sameOutside_refl _ _ _⟩
  | succ n ih =>
    unfold emitRoot
    refine Run.Oks.bind ((readNm_oks _ s).mono fun r t ht => ?_)
    refine Run.Oks.bind ((emitSym_frame r.sym t).mono fun _ u hu => ?_)
    refine (ih u).mono fun _ w hw => ?_
    obtain ⟨hu1, hu2, hu3⟩ := hu
    obtain ⟨hw1, hw2, hw3⟩ := hw
    have hsyb : t.syb = s.syb := by rw [ht.1]
    have hsyl : t.syLen = s.syLen := by rw [ht.1]
    rw [hsyb, hsyl] at hu3
    rw [hsyl] at hu2
    refine ⟨by rw [hw1, hu1, ht.1], by omega, ?_⟩
    exact sameOutside_mono (sameOutside_trans hu3 hw3) (by omega) (by omega)

end Sys2Proof.Safety
end

