-- ==== Sys2Proof/Laws/Packing.lean ====
section
/-! SUPPORT. The packer: what appending bits does to the payload, said once for any number of bits. -/

namespace Sys2Proof.Safety

open Sys2Proof.Machine

/-- The packer's part of the invariant. -/
structure Packable (s : State) : Prop where
  fits  : s.plLen.toNat ≤ s.cfg.plCap.toNat
  carry : carryOk s

/-- PL_LEN and FREE are told by the number of bits packed. -/
theorem packed_lengths {s : State} (h : carryOk s) :
    s.plLen.toNat = bytesFor (packedBits s) ∧ s.free.toNat = (8 - packedBits s % 8) % 8 := by
  have hf := s.free.isLt
  unfold bytesFor packedBits
  by_cases h0 : s.free = 0#3
  · have : s.free.toNat = 0 := by rw [h0]; rfl
    omega
  · have := (h h0).1
    omega

/-- `t` is `s` with these bits appended to the payload. The free bits of the last byte must hold 0 for the new bits to
be read back: PKPUT ors them in (R182). -/
structure Packed (s : State) (bs : List Bool) (t : State) : Prop where
  frame   : t = { s with plLen := t.plLen, free := t.free, plb := t.plb }
  count   : packedBits t = packedBits s + bs.length
  old     : ∀ j, j < packedBits s → bitAt t.plb j = bitAt s.plb j
  new     : freeBitsZero s → holdsBits t.plb (packedBits s) bs
  zero    : freeBitsZero s → freeBitsZero t
  ok      : Packable t
  outside : sameOutside s.plb t.plb (packedBits s / 8) (bytesFor (packedBits s + bs.length))

theorem holdsBits_nil (m : Memory Byte) (j : Nat) : holdsBits m j [] := fun k b h => by simp at h

theorem holdsBits_append {m : Memory Byte} {j : Nat} {bs cs : List Bool} :
    holdsBits m j (bs ++ cs) ↔ holdsBits m j bs ∧ holdsBits m (j + bs.length) cs := by
  constructor
  · intro h
    refine ⟨fun k b hk => h k b ?_, fun k b hk => ?_⟩
    · have hlt : k < bs.length := (List.getElem?_eq_some_iff.mp hk).1
      rw [List.getElem?_append_left hlt]; exact hk
    · have := h (bs.length + k) b (by rw [List.getElem?_append_right (by omega), Nat.add_sub_cancel_left]; exact hk)
      rwa [show j + (bs.length + k) = j + bs.length + k by omega] at this
  · rintro ⟨h1, h2⟩ k b hk
    rcases Nat.lt_or_ge k bs.length with hlt | hge
    · rw [List.getElem?_append_left hlt] at hk; exact h1 k b hk
    · rw [List.getElem?_append_right hge] at hk
      have := h2 (k - bs.length) b hk
      rwa [show j + bs.length + (k - bs.length) = j + k by omega] at this

theorem holdsBits_congr {m m' : Memory Byte} {j : Nat} {bs : List Bool} (h : holdsBits m j bs)
    (he : ∀ i, i < j + bs.length → bitAt m' i = bitAt m i) : holdsBits m' j bs := by
  intro k b hk
  have hlt : k < bs.length := (List.getElem?_eq_some_iff.mp hk).1
  rw [he (j + k) (by omega)]; exact h k b hk

theorem Packed.refl {s : State} (h : Packable s) : Packed s [] s where
  frame := rfl
  count := rfl
  old := fun _ _ => rfl
  new := fun _ => holdsBits_nil _ _
  zero := id
  ok := h
  outside := sameOutside_refl _ _ _

theorem Packed.trans {s t u : State} {bs cs : List Bool} (h : Packed s bs t) (h' : Packed t cs u) :
    Packed s (bs ++ cs) u where
  frame := by
    have h1 := h.frame
    have h2 := h'.frame
    rw [h1] at h2
    exact h2
  count := by rw [h'.count, h.count, List.length_append, Nat.add_assoc]
  old := fun j hj => by rw [h'.old j (by rw [h.count]; omega), h.old j hj]
  new := fun hz => by
    refine holdsBits_append.mpr ⟨holdsBits_congr (h.new hz) fun i hi => h'.old i (by rw [h.count]; exact hi), ?_⟩
    rw [← h.count]; exact h'.new (h.zero hz)
  zero := fun hz => h'.zero (h.zero hz)
  ok := h'.ok
  outside := by
    have h2 := h'.outside
    rw [h.count] at h2
    have h1 := h.outside
    unfold bytesFor at h1 h2 ⊢
    rw [List.length_append]
    exact sameOutside_mono (sameOutside_trans h1 h2) (by omega) (by omega)

theorem orBit_get (byte : Byte) (pos : Nat) (b : Bool) (i : Nat) (hi : i < 8) :
    (orBit byte pos b).getLsbD i = (byte.getLsbD i || (decide (i = pos) && b)) := by
  unfold orBit
  rw [BitVec.getLsbD_or, BitVec.getLsbD_shiftLeft, BitVec.getLsbD_setWidth, BitVec.getLsbD_ofBool]
  by_cases h : i = pos
  · subst h; simp [hi]
  · by_cases h2 : i < pos
    · simp [h, h2]
    · have h3 : ¬ i - pos = 0 := by omega
      simp [h, h3]

theorem bitAt_write {m : Memory Byte} {a : Nat} {b : Byte} {j : Nat} :
    bitAt (m.write a b) j = if a = j / 8 then some (b.getLsbD (7 - j % 8)) else bitAt m j := by
  unfold bitAt
  rw [Memory.read_write]
  split <;> rfl

/-- One bit is appended where it fits (R182). -/
theorem packBit_fits (b : Bool) {s : State} (h : Packable s) (hfit : packedBits s + 1 ≤ 8 * s.cfg.plCap.toNat) :
    ∃ t, packBit b s = .ok () t ∧ Packed s [b] t := by
  have hfree := s.free.isLt
  unfold packBit openByte
  by_cases h0 : s.free = 0#3
  · have hf0 : s.free.toNat = 0 := by rw [h0]; rfl
    have hpk : packedBits s = 8 * s.plLen.toNat := by unfold packedBits; omega
    have hlt : s.plLen.toNat < s.cfg.plCap.toNat := by omega
    have hlen : (s.plLen + 1#32).toNat = s.plLen.toNat + 1 := toNat_add_one hlt cap_le
    have hsub : (s.plLen + 1#32).toNat - 1 = s.plLen.toNat := by omega
    have hne : ¬ (s.plLen + 1#32 = 0#32) := fun h' => by rw [h'] at hlen; simp at hlen
    rw [if_pos h0, if_neg (by omega), writePlb_ok _ hlt]
    simp only [Run.bind_ok, placeBit]
    rw [if_neg hne, readPlb_defined (b := 0x00#8) (by
      show (s.plb.write s.plLen.toNat 0x00#8).read ((s.plLen + 1#32).toNat - 1) = _
      rw [hsub, Memory.read_write_same]) (by show (s.plLen + 1#32).toNat - 1 < s.cfg.plCap.toNat; omega)]
    simp only [Run.bind_ok]
    rw [writePlb_ok _ (by show (s.plLen + 1#32).toNat - 1 < s.cfg.plCap.toNat; omega)]
    simp only [Run.bind_ok]
    rw [hsub]
    have hcount : 8 * (s.plLen + 1#32).toNat - (BitVec.ofNat 3 (8 - 1)).toNat = packedBits s + 1 := by
      rw [hlen, hpk]; simp; omega
    refine ⟨_, rfl, rfl, hcount, ?_, ?_, ?_, ⟨?_, ?_⟩, ?_⟩
    · intro j hj
      show bitAt ((s.plb.write s.plLen.toNat 0x00#8).write s.plLen.toNat _) j = _
      rw [bitAt_write, if_neg (by omega), bitAt_write, if_neg (by omega)]
    · intro hz k c hk
      obtain ⟨hk1, hk2⟩ := List.getElem?_eq_some_iff.mp hk
      simp only [List.length_cons, List.length_nil] at hk1
      obtain rfl : k = 0 := by omega
      simp only [List.getElem_cons_zero] at hk2
      show bitAt ((s.plb.write s.plLen.toNat 0x00#8).write s.plLen.toNat _) _ = _
      rw [bitAt_write, if_pos (by omega), orBit_get _ _ _ _ (by omega),
        show 7 - (packedBits s + 0) % 8 = 8 - 1 by omega]
      simp [hk2]
    · intro _ c _ hc i hi
      have hc' : ((s.plb.write s.plLen.toNat 0x00#8).write s.plLen.toNat
        (orBit 0x00#8 (8 - 1) b)).read ((s.plLen + 1#32).toNat - 1) = some c := hc
      rw [hsub, Memory.read_write_same] at hc'
      have hi' : i < 7 := hi
      rw [← Option.some.inj hc', orBit_get _ _ _ _ (by omega)]
      have : ¬ i = 8 - 1 := by omega
      simp [this]
    · show (s.plLen + 1#32).toNat ≤ s.cfg.plCap.toNat
      omega
    · intro _
      refine ⟨by show 1 ≤ (s.plLen + 1#32).toNat; omega, ?_⟩
      show (((s.plb.write s.plLen.toNat 0x00#8).write s.plLen.toNat _).read ((s.plLen + 1#32).toNat - 1)).isSome = true
      rw [hsub, Memory.read_write_same]; rfl
    · show sameOutside s.plb ((s.plb.write s.plLen.toNat 0x00#8).write s.plLen.toNat _) _ _
      refine sameOutside_mono (sameOutside_trans (sameOutside_write _ _ _) (sameOutside_write _ _ _)) ?_ ?_
      · rw [hpk]; omega
      · unfold bytesFor; rw [hpk]; simp; omega
  · obtain ⟨hl, hd⟩ := h.carry h0
    obtain ⟨byte, hbyte⟩ := Option.isSome_iff_exists.mp hd
    have hf1 : 1 ≤ s.free.toNat := by
      rcases Nat.eq_zero_or_pos s.free.toNat with h' | h'
      · exact absurd (BitVec.eq_of_toNat_eq h') h0
      · exact h'
    have hpk : packedBits s = 8 * s.plLen.toNat - s.free.toNat := rfl
    have hfit' := h.fits
    have hne : ¬ (s.plLen = 0#32) := fun h' => by rw [h'] at hl; simp at hl
    have hlt : s.plLen.toNat - 1 < s.cfg.plCap.toNat := by omega
    rw [if_neg h0]
    simp only [Run.bind_ok, placeBit]
    rw [if_neg hne, readPlb_defined hbyte hlt]
    simp only [Run.bind_ok]
    rw [writePlb_ok _ hlt]
    simp only [Run.bind_ok]
    have hfr : (BitVec.ofNat 3 (s.free.toNat - 1)).toNat = s.free.toNat - 1 := by
      rw [BitVec.toNat_ofNat, Nat.mod_eq_of_lt (by omega)]
    refine ⟨_, rfl, rfl, ?_, ?_, ?_, ?_, ⟨h.fits, ?_⟩, ?_⟩
    · show 8 * s.plLen.toNat - (BitVec.ofNat 3 (s.free.toNat - 1)).toNat = _
      rw [hfr, hpk]; simp; omega
    · intro j hj
      show bitAt (s.plb.write (s.plLen.toNat - 1) _) j = _
      rw [bitAt_write]
      split
      · rename_i he
        rw [orBit_get _ _ _ _ (by omega)]
        have hne' : ¬ (7 - j % 8 = s.free.toNat - 1) := by omega
        unfold bitAt
        rw [← he, hbyte]
        simp [hne']
      · rfl
    · intro hz k c hk
      obtain ⟨hk1, hk2⟩ := List.getElem?_eq_some_iff.mp hk
      simp only [List.length_cons, List.length_nil] at hk1
      obtain rfl : k = 0 := by omega
      simp only [List.getElem_cons_zero] at hk2
      show bitAt (s.plb.write (s.plLen.toNat - 1) _) _ = _
      rw [bitAt_write, if_pos (by omega), orBit_get _ _ _ _ (by omega),
        show 7 - (packedBits s + 0) % 8 = s.free.toNat - 1 by omega, hz byte h0 hbyte _ (by omega)]
      simp [hk2]
    · intro hz c _ hc i hi
      have hc' : (s.plb.write (s.plLen.toNat - 1) (orBit byte (s.free.toNat - 1) b)).read (s.plLen.toNat - 1) =
        some c := hc
      rw [Memory.read_write_same] at hc'
      have hi' : i < s.free.toNat - 1 := by rw [← hfr]; exact hi
      rw [← Option.some.inj hc', orBit_get _ _ _ _ (by omega), hz byte h0 hbyte i (by omega)]
      have : ¬ i = s.free.toNat - 1 := by omega
      simp [this]
    · intro _
      refine ⟨hl, ?_⟩
      show ((s.plb.write (s.plLen.toNat - 1) _).read (s.plLen.toNat - 1)).isSome = true
      rw [Memory.read_write_same]; rfl
    · refine sameOutside_mono (sameOutside_write _ _ _) ?_ ?_
      · rw [hpk]; omega
      · unfold bytesFor; rw [hpk]; simp; omega

/-- Where the payload is full the next bit raises BufOverflow(2) (R182). -/
theorem packBit_full (b : Bool) {s : State} (h : Packable s) (hfull : 8 * s.cfg.plCap.toNat < packedBits s + 1) :
    packBit b s = .raise .bufOverflow 2#32 s := by
  have h1 := h.fits
  have hfree := s.free.isLt
  unfold packedBits at hfull
  have h0 : s.free = 0#3 := by
    refine Decidable.byContradiction fun h0 => ?_
    have hl := (h.carry h0).1
    have : s.free.toNat ≠ 0 := fun h' => h0 (BitVec.eq_of_toNat_eq h')
    omega
  unfold packBit openByte
  rw [if_pos h0, if_pos (by omega)]; rfl

/-- Data bits `i` to `i + n - 1` of a code word are appended where they fit. -/
theorem packBits_fits (code : Operand) (n i : Nat) {s : State} (h : Packable s)
    (hfit : packedBits s + n ≤ 8 * s.cfg.plCap.toNat) :
    ∃ t, packBits code n i s = .ok () t ∧ Packed s ((List.range' i n).map (codeBit code)) t := by
  induction n generalizing i s with
  | zero => exact ⟨s, rfl, Packed.refl h⟩
  | succ n ih =>
    obtain ⟨t, h1, h2⟩ := packBit_fits (codeBit code i) h (by omega)
    have hcfg : t.cfg = s.cfg := by rw [h2.frame]
    obtain ⟨u, h3, h4⟩ := ih (i + 1) h2.ok (by
      rw [h2.count, hcfg]; simp only [List.length_cons, List.length_nil]; omega)
    refine ⟨u, ?_, ?_⟩
    · simp only [packBits, h1, Run.bind_ok, h3]
    · have := h2.trans h4
      rwa [List.range'_succ, List.map_cons]

/-- Data bits that do not all fit raise BufOverflow(2). -/
theorem packBits_full (code : Operand) (n i : Nat) {s : State} (h : Packable s)
    (hfull : 8 * s.cfg.plCap.toNat < packedBits s + n) (hle : packedBits s ≤ 8 * s.cfg.plCap.toNat) :
    ∃ t, packBits code n i s = .raise .bufOverflow 2#32 t := by
  induction n generalizing i s with
  | zero => omega
  | succ n ih =>
    by_cases hf : packedBits s + 1 ≤ 8 * s.cfg.plCap.toNat
    · obtain ⟨t, h1, h2⟩ := packBit_fits (codeBit code i) h hf
      have hcfg : t.cfg = s.cfg := by rw [h2.frame]
      have hc := h2.count
      simp only [List.length_cons, List.length_nil] at hc
      obtain ⟨u, h3⟩ := ih (i + 1) h2.ok (by rw [hc, hcfg]; omega) (by rw [hc, hcfg]; omega)
      exact ⟨u, by simp only [packBits, h1, Run.bind_ok, h3]⟩
    · exact ⟨s, by simp only [packBits, packBit_full _ h (by omega), Run.bind_raise]⟩

theorem length_dataBits (code : Operand) : (dataBits code).length = codeLength code := by simp [dataBits]

end Sys2Proof.Safety
end

