-- ==== Sys2Proof/Laws/PerInstr.lean ====
section
/-! SUPPORT. One statement per instruction: the stream its words stand in, and how many of them there are
(30_encoding.md rules R90, R91, R103, R108, R111). -/

namespace Sys2Proof.Laws.Stream

open Sys2Proof Sys2Proof.Safety

/-- The instruction's words stand in the stream of its format, and in no other: one byte of the opcode map for a
command, as many bytes as the token's form has for a token, one bit for a payload bit. -/
def Statement (i : Instr) : Prop :=
  match encode i with
  | .command b => isCommand i = true ∧ b ∈ opcodes ∧ tokenLen i = 0
  | .token bs => isCommand i = false ∧ bs.length = tokenLen i ∧ 1 ≤ tokenLen i ∧ tokenLen i ≤ 4
  | .bit b => isCommand i = false ∧ tokenLen i = 0 ∧ i = decodeBit b

theorem nop : Statement .nop := by simp [Statement, encode, isCommand, opcodes, tokenLen]
theorem reset : Statement .reset := by simp [Statement, encode, isCommand, opcodes, tokenLen]
theorem pkinit : Statement .pkinit := by simp [Statement, encode, isCommand, opcodes, tokenLen]
theorem pkput : Statement .pkput := by simp [Statement, encode, isCommand, opcodes, tokenLen]
theorem unpack : Statement .unpack := by simp [Statement, encode, isCommand, opcodes, tokenLen]
theorem tser : Statement .tser := by simp [Statement, encode, isCommand, opcodes, tokenLen]
theorem tend : Statement .tend := by simp [Statement, encode, isCommand, opcodes, tokenLen]
theorem tdes : Statement .tdes := by simp [Statement, encode, isCommand, opcodes, tokenLen]
theorem tokEnd : Statement .tokEnd := by simp [Statement, encode, isCommand, tokenLen]
theorem tokInternal : Statement .tokInternal := by simp [Statement, encode, isCommand, tokenLen]
theorem tokLeaf1 (x : BitVec 7) : Statement (.tokLeaf1 x) := by simp [Statement, encode, isCommand, tokenLen]
theorem tokLeaf2 (x : BitVec 11) : Statement (.tokLeaf2 x) := by simp [Statement, encode, isCommand, tokenLen]
theorem tokLeaf3 (x : BitVec 16) : Statement (.tokLeaf3 x) := by simp [Statement, encode, isCommand, tokenLen]
theorem tokLeaf4 (x : BitVec 21) : Statement (.tokLeaf4 x) := by simp [Statement, encode, isCommand, tokenLen]
theorem bitLeft : Statement .bitLeft := by simp [Statement, encode, isCommand, tokenLen, decodeBit]
theorem bitRight : Statement .bitRight := by simp [Statement, encode, isCommand, tokenLen, decodeBit]

end Sys2Proof.Laws.Stream
end

