-- ==== Sys2Proof/Laws/Trees.lean ====
section
/-! SUPPORT. Trees in the node memory: reading their tokens, rebuilding them and writing their streams, each for a tree
met anywhere in a stream or in NM. -/

namespace Sys2Proof.Safety

open Sys2Proof.Machine

/-! Sizes and numbering. -/

theorem CodeTree.size_pos (t : CodeTree) : 1 ≤ t.size := by cases t <;> simp [CodeTree.size]

theorem CodeTree.length_nodes (t : CodeTree) : t.nodes.length = t.size := by
  induction t with
  | leaf => rfl
  | node n l r hl hr => simp [CodeTree.nodes, CodeTree.size, hl, hr]

theorem CodeTree.length_records (t : CodeTree) : t.records.length = t.size := by
  induction t with
  | leaf => rfl
  | node n l r hl hr => simp [CodeTree.records, CodeTree.size, hl, hr]

theorem CodeTree.length_tokens (t : CodeTree) : t.tokens.length = t.size := by
  induction t with
  | leaf => rfl
  | node n l r hl hr => simp [CodeTree.tokens, CodeTree.size, hl, hr]

theorem CodeTree.length_linked (t : CodeTree) : t.linked.length = t.size := by
  induction t with
  | leaf => rfl
  | node n l r hl hr => simp [CodeTree.linked, CodeTree.size, hl, hr]

theorem streamOf_cons (k : Tok) (ts : List Tok) : streamOf (k :: ts) = k.bytes ++ streamOf ts := rfl

theorem streamOf_append (ts us : List Tok) : streamOf (ts ++ us) = streamOf ts ++ streamOf us := by
  simp [streamOf]

/-- A tree's stream is its tokens' bytes (R131). -/
theorem CodeTree.streamOf_tokens (t : CodeTree) : streamOf t.tokens = t.stream := by
  induction t with
  | leaf => simp [CodeTree.tokens, CodeTree.stream, streamOf, Tok.bytes]
  | node n l r hl hr => simp [CodeTree.tokens, CodeTree.stream, streamOf_cons, streamOf_append, hl, hr, Tok.bytes]

theorem CodeTree.record_tokens (t : CodeTree) : t.tokens.map Tok.record = t.records := by
  induction t with
  | leaf => rfl
  | node n l r hl hr => simp [CodeTree.tokens, CodeTree.records, hl, hr, Tok.record]

theorem CodeTree.streamable_tokens (t : CodeTree) : (∀ k ∈ t.tokens, k.streamable) ↔ t.streamable := by
  unfold CodeTree.streamable
  induction t with
  | leaf => simp [CodeTree.tokens, CodeTree.symbols, Tok.streamable]
  | node n l r hl hr =>
    rw [CodeTree.tokens, CodeTree.symbols, List.forall_mem_cons, List.forall_mem_append, List.forall_mem_append, hl, hr]
    simp [Tok.streamable]

theorem CodeTree.size_renumber (t : CodeTree) (k : Nat) : (t.renumber k).size = t.size := by
  induction t generalizing k with
  | leaf => rfl
  | node n l r hl hr => simp [CodeTree.renumber, CodeTree.size, hl, hr]

theorem CodeTree.stream_renumber (t : CodeTree) (k : Nat) : (t.renumber k).stream = t.stream := by
  induction t generalizing k with
  | leaf => rfl
  | node n l r hl hr => simp [CodeTree.renumber, CodeTree.stream, hl, hr]

theorem CodeTree.symbols_renumber (t : CodeTree) (k : Nat) : (t.renumber k).symbols = t.symbols := by
  induction t generalizing k with
  | leaf => rfl
  | node n l r hl hr => simp [CodeTree.renumber, CodeTree.symbols, hl, hr]

theorem CodeTree.index_renumber (t : CodeTree) (k : Nat) : (t.renumber k).index = BitVec.ofNat 32 k := by
  cases t <;> rfl

theorem CodeTree.size_symbols (t : CodeTree) : t.size + 1 = 2 * t.symbols.length := by
  induction t with
  | leaf => rfl
  | node n l r hl hr => simp only [CodeTree.size, CodeTree.symbols, List.length_append]; omega

theorem CodeTree.nodes_renumber (t : CodeTree) {k : Nat} (h : k + t.size ≤ 2 ^ 32) {n : Idx} (hn :
    n ∈ (t.renumber k).nodes) :
    k ≤ n.toNat ∧ n.toNat < k + t.size := by
  have hk : k < 2 ^ 32 := by have := t.size_pos; omega
  induction t generalizing k with
  | leaf m x =>
    simp only [CodeTree.renumber, CodeTree.nodes, List.mem_singleton] at hn
    subst hn
    rw [BitVec.toNat_ofNat, Nat.mod_eq_of_lt hk]
    simp [CodeTree.size]
  | node m l r hl hr =>
    have hsl := l.size_pos
    have hsr := r.size_pos
    simp only [CodeTree.size] at h ⊢
    simp only [CodeTree.renumber, CodeTree.nodes, List.mem_cons, List.mem_append] at hn
    rcases hn with rfl | hn | hn
    · rw [BitVec.toNat_ofNat, Nat.mod_eq_of_lt hk]; omega
    · have := hl (k := k + 1) (by omega) hn (by omega); omega
    · have := hr (k := k + 1 + l.size) (by omega) hn (by omega); omega

/-! Trees held in NM. -/

theorem CodeTree.heldIn_leaf {s : State} {n : Idx} {x : Sym} :
    (CodeTree.leaf n x).heldIn s = true ↔
      n.toNat < s.cfg.nn.toNat ∧ ∃ r, s.nm.read n.toNat = some r ∧ r.kind = .leaf ∧ r.sym = x := by
  simp only [CodeTree.heldIn]
  cases s.nm.read n.toNat <;> simp

theorem CodeTree.heldIn_node {s : State} {n : Idx} {l r : CodeTree} :
    (CodeTree.node n l r).heldIn s = true ↔
      n.toNat < s.cfg.nn.toNat ∧ l.heldIn s = true ∧ r.heldIn s = true ∧
        ∃ q, s.nm.read n.toNat = some q ∧ q.kind = .internal ∧ q.left = l.index ∧ q.right = r.index := by
  simp only [CodeTree.heldIn]
  cases s.nm.read n.toNat <;> simp [and_assoc]

/-- A held tree is told by the capacity and the records at its own nodes. -/
theorem CodeTree.heldIn_congr {s u : State} (t : CodeTree) (hc : u.cfg = s.cfg)
    (h : ∀ n ∈ t.nodes, u.nm.read n.toNat = s.nm.read n.toNat) : t.heldIn u = t.heldIn s := by
  induction t with
  | leaf n x =>
    have := h n (by simp [CodeTree.nodes])
    simp only [CodeTree.heldIn, hc, this]
  | node n l r hl hr =>
    have h0 := h n (by simp [CodeTree.nodes])
    have h1 := hl fun m hm => h m (by simp [CodeTree.nodes, hm])
    have h2 := hr fun m hm => h m (by simp [CodeTree.nodes, hm])
    simp only [CodeTree.heldIn, hc, h0, h1, h2]

theorem CodeTree.heldIn_same {s u : State} {t : CodeTree} (h : t.heldIn s = true) (hc : u.cfg = s.cfg) (hn :
    u.nm = s.nm) :
    t.heldIn u = true :=
  (CodeTree.heldIn_congr t hc fun _ _ => by rw [hn]).trans h

theorem CodeTree.heldIn_index {s : State} {t : CodeTree} (h : t.heldIn s = true) :
    ∀ n ∈ t.nodes, n.toNat < s.cfg.nn.toNat := by
  induction t with
  | leaf n x =>
    intro m hm
    simp only [CodeTree.nodes, List.mem_singleton] at hm
    subst hm; exact (heldIn_leaf.mp h).1
  | node n l r hl hr =>
    obtain ⟨h0, h1, h2, _⟩ := heldIn_node.mp h
    intro m hm
    simp only [CodeTree.nodes, List.mem_cons, List.mem_append] at hm
    rcases hm with rfl | hm | hm
    · exact h0
    · exact hl h1 m hm
    · exact hr h2 m hm

/-- A tree without sharing has no more nodes than NM has records (R117). -/
theorem CodeTree.size_le {s : State} {t : CodeTree} (h : t.heldIn s = true) (hu :
    t.unshared ∨ t.size ≤ s.cfg.nn.toNat) :
    t.size ≤ s.cfg.nn.toNat := by
  rcases hu with hu | hu
  · have hnd : (t.nodes.map BitVec.toNat).Nodup := by
      refine List.Nodup.map (fun a b hab => BitVec.eq_of_toNat_eq hab) hu
    have hsub : t.nodes.map BitVec.toNat ⊆ List.range s.cfg.nn.toNat := by
      intro m hm
      obtain ⟨n, hn, rfl⟩ := List.mem_map.mp hm
      exact List.mem_range.mpr (heldIn_index h n hn)
    have := (List.subperm_of_subset hnd hsub).length_le
    rwa [List.length_map, CodeTree.length_nodes, List.length_range] at this
  · exact hu

/-! Rebuilding (R152). -/

/-- The subtree whose tokens stand in NM from `k` on is rebuilt there, under its pre-order numbers. -/
theorem rebuild_tree {ntok : Nat} (t : CodeTree) (fuel k : Nat) {s : State} (hrec : holdsAt s.nm k t.records)
    (hk : k + t.size ≤ ntok) (hn : ntok ≤ s.cfg.nn.toNat) (hf : t.size ≤ fuel) :
    ∃ m, rebuild ntok fuel k s = .ok (k, k + t.size) { s with nm := m } ∧ sameOutside s.nm m k (k + t.size) ∧
      (t.renumber k).heldIn { s with nm := m } = true ∧ holdsAt m k (t.renumber k).linked := by
  have hcap := (s.cfg.nn).isLt
  induction t generalizing fuel k s with
  | leaf n x =>
    cases fuel with
    | zero => simp [CodeTree.size] at hf
    | succ fuel =>
      simp only [CodeTree.size] at hk ⊢
      obtain ⟨h0, -⟩ := holdsAt_cons.mp hrec
      refine ⟨s.nm, ?_, sameOutside_refl _ _ _, ?_, hrec⟩
      · unfold rebuild
        rw [if_neg (by omega), readNm_defined h0 (by omega)]
        rfl
      · have hkn : (BitVec.ofNat 32 k).toNat = k := by rw [BitVec.toNat_ofNat, Nat.mod_eq_of_lt (by omega)]
        exact CodeTree.heldIn_leaf.mpr ⟨by rw [hkn]; show k < s.cfg.nn.toNat; omega, _, by rw [hkn]; exact h0, rfl, rfl⟩
  | node n l r hl hr =>
    cases fuel with
    | zero => simp [CodeTree.size] at hf
    | succ fuel =>
      simp only [CodeTree.size] at hk hf ⊢
      have hsl := l.size_pos
      have hsr := r.size_pos
      obtain ⟨h0, h1⟩ := holdsAt_cons.mp hrec
      obtain ⟨h1, h2⟩ := holdsAt_append.mp h1
      rw [CodeTree.length_records] at h2
      obtain ⟨ml, hl1, hl2, hl3, hl4⟩ := hl fuel (k + 1) h1 (by omega) hn (by omega) hcap
      have h2' : holdsAt ml (k + 1 + l.size) r.records :=
        holdsAt_of_outside h2 hl2 (Or.inr (Nat.le_refl _))
      obtain ⟨mr, hr1, hr2, hr3, hr4⟩ :=
        hr fuel (k + 1 + l.size) (s := { s with nm := ml }) h2' (by omega) hn (by omega) hcap
      have hkn : (BitVec.ofNat 32 k).toNat = k := by rw [BitVec.toNat_ofNat, Nat.mod_eq_of_lt (by omega)]
      refine ⟨mr.write k ⟨.internal, 0#21, BitVec.ofNat 32 (k + 1), BitVec.ofNat 32 (k + 1 + l.size)⟩, ?_, ?_, ?_, ?_⟩
      · unfold rebuild
        rw [if_neg (by omega), readNm_defined h0 (by omega)]
        simp only [Run.bind_ok, hl1, hr1]
        rw [writeNm_ok _ (by show k < s.cfg.nn.toNat; omega)]
        simp only [Run.bind_ok]
        rw [show k + 1 + l.size + r.size = k + (l.size + r.size + 1) by omega]
      · have h3 : sameOutside s.nm mr k (k + (l.size + r.size + 1)) :=
          sameOutside_mono (sameOutside_trans hl2 hr2) (by omega) (by omega)
        exact sameOutside_mono (sameOutside_trans h3 (sameOutside_write mr k _)) (by omega) (by omega)
      · refine CodeTree.heldIn_node.mpr ⟨by rw [hkn]; show k < s.cfg.nn.toNat; omega, ?_, ?_,
          ⟨.internal, 0#21, BitVec.ofNat 32 (k + 1), BitVec.ofNat 32 (k + 1 + l.size)⟩, ?_, rfl, ?_, ?_⟩
        · rw [CodeTree.heldIn_congr (s := { s with nm := ml })]
          · exact hl3
          · rfl
          · intro m hm
            have := l.nodes_renumber (k := k + 1) (by omega) hm
            show (mr.write k _).read m.toNat = ml.read m.toNat
            rw [Memory.read_write_other _ _ (by omega), hr2 _ (by omega)]
        · rw [CodeTree.heldIn_congr (s := { s with nm := mr })]
          · exact hr3
          · rfl
          · intro m hm
            have := r.nodes_renumber (k := k + 1 + l.size) (by omega) hm
            show (mr.write k _).read m.toNat = mr.read m.toNat
            rw [Memory.read_write_other _ _ (by omega)]
        · rw [hkn]; exact Memory.read_write_same _ _ _
        · rw [CodeTree.index_renumber]
        · rw [CodeTree.index_renumber]
      · have hw := sameOutside_write mr k
          ⟨.internal, 0#21, BitVec.ofNat 32 (k + 1), BitVec.ofNat 32 (k + 1 + l.size)⟩
        refine holdsAt_cons.mpr ⟨?_, holdsAt_append.mpr ⟨?_, ?_⟩⟩
        · rw [CodeTree.index_renumber, CodeTree.index_renumber]; exact Memory.read_write_same _ _ _
        · refine holdsAt_of_outside (holdsAt_of_outside hl4 hr2 (Or.inl ?_)) hw (Or.inr (Nat.le_refl _))
          rw [CodeTree.length_linked, CodeTree.size_renumber]
        · rw [CodeTree.length_linked, CodeTree.size_renumber]
          exact holdsAt_of_outside hr4 hw (Or.inr (by omega))

/-- With some but not all of a subtree's tokens in NM, and none after them, rebuilding runs out of tokens (R152). -/
theorem rebuild_short (t : CodeTree) (fuel k : Nat) {s : State} {ts more : List Tok} (ht : ts ++ more = t.tokens)
    (hm : more ≠ []) (hrec : holdsAt s.nm k (ts.map Tok.record)) (hn : k + ts.length ≤ s.cfg.nn.toNat)
    (hf : ts.length ≤ fuel) :
    ∃ u, rebuild (k + ts.length) fuel k s = .raise .treeShort (BitVec.ofNat 32 (k + ts.length)) u := by
  induction t generalizing fuel k s ts more with
  | leaf n x =>
    have : ts = [] := by
      cases ts with
      | nil => rfl
      | cons a ts =>
        simp only [CodeTree.tokens, List.cons_append, List.cons.injEq, List.append_eq_nil_iff] at ht
        exact absurd ht.2.2 hm
    subst this
    refine ⟨s, ?_⟩
    cases fuel with
    | zero => rfl
    | succ fuel => unfold rebuild; rw [if_pos (by simp)]
  | node n l r hl hr =>
    cases ts with
    | nil =>
      refine ⟨s, ?_⟩
      cases fuel with
      | zero => rfl
      | succ fuel => unfold rebuild; rw [if_pos (by simp)]
    | cons a ts =>
      cases fuel with
      | zero => simp at hf
      | succ fuel =>
        simp only [CodeTree.tokens, List.cons_append, List.cons.injEq] at ht
        obtain ⟨rfl, ht⟩ := ht
        simp only [List.length_cons] at hn hf ⊢
        obtain ⟨h0, h1⟩ := holdsAt_cons.mp hrec
        have start : ∀ u, rebuild (k + (ts.length + 1)) fuel (k + 1) s =
            .raise .treeShort (BitVec.ofNat 32 (k + (ts.length + 1))) u →
            rebuild (k + (ts.length + 1)) (fuel + 1) k s =
              .raise .treeShort (BitVec.ofNat 32 (k + (ts.length + 1))) u := fun u hu => by
          conv_lhs => unfold rebuild
          rw [if_neg (by omega), readNm_defined h0 (by omega)]
          simp only [Run.bind_ok, Tok.record, hu, Run.bind_raise]
        rw [show k + (ts.length + 1) = k + 1 + ts.length by omega] at start ⊢
        have right : ∀ c, ts = l.tokens ++ c → c ++ more = r.tokens → ∃ u, rebuild (k + 1 + ts.length) (fuel + 1) k s =
            .raise .treeShort (BitVec.ofNat 32 (k + 1 + ts.length)) u := by
          rintro c rfl hc
          rw [List.map_append, CodeTree.record_tokens] at h1
          obtain ⟨h1, h2⟩ := holdsAt_append.mp h1
          rw [CodeTree.length_records] at h2
          simp only [List.length_append, CodeTree.length_tokens] at hn hf ⊢
          obtain ⟨ml, e1, e2, -, -⟩ := rebuild_tree (ntok := k + 1 + (l.size + c.length)) l fuel (k + 1) h1
            (by omega) (by omega) (by omega)
          obtain ⟨u, hu⟩ := hr fuel (k + 1 + l.size) (s := { s with nm := ml }) hc hm
            (holdsAt_of_outside h2 e2 (Or.inr (Nat.le_refl _)))
            (by show k + 1 + l.size + c.length ≤ s.cfg.nn.toNat; omega) (by omega)
          refine ⟨u, ?_⟩
          conv_lhs => unfold rebuild
          rw [if_neg (by omega), readNm_defined h0 (by omega)]
          rw [show k + 1 + l.size + c.length = k + 1 + (l.size + c.length) by omega] at hu
          simp only [Run.bind_ok, Tok.record, e1, hu, Run.bind_raise]
        rcases List.append_eq_append_iff.mp ht with ⟨c, hc, rfl⟩ | ⟨c, hc, hc'⟩
        · cases c with
          | nil => exact right [] (by simpa using hc.symm) rfl
          | cons b c =>
            obtain ⟨u, hu⟩ := hl fuel (k + 1) hc.symm (by simp) h1 (by omega) (by omega)
            exact ⟨u, start u hu⟩
        · exact right c hc hc'.symm

/-! Reading tokens (R153). -/

theorem storeToken_next {r : NodeRec} {len p ntok : Nat} {s : State} (h : ntok < s.cfg.nn.toNat) :
    storeToken r len p ntok s =
      .ok () { s with nm := s.nm.write ntok r, act := .tokenising (p + len) (ntok + 1) } := by
  unfold storeToken
  rw [if_neg (by omega), writeNm_ok _ h]
  rfl

theorem exec_tokInternal {p ntok : Nat} {s : State} (ha : s.act = .tokenising p ntok) (h : ntok < s.cfg.nn.toNat) :
    exec .tokInternal s =
      .next { s with nm := s.nm.write ntok internalRec, act := .tokenising (p + 1) (ntok + 1) } := by
  show inTokens _ s = _
  simp only [inTokens, ha, storeToken_next h, Run.finish_ok]

/-- A leaf token whose symbol is in its form's range is stored (R103, R151). -/
theorem exec_leaf {i : Instr} {x : Sym} {p ntok : Nat} {s : State} (ha : s.act = .tokenising p ntok)
    (h : ntok < s.cfg.nn.toNat) (hx : leafSym i = some x) (hw : i.wellFormed = true) :
    exec i s =
      .next { s with nm := s.nm.write ntok (leafRec x), act := .tokenising (p + tokenLen i) (ntok + 1) } := by
  have key : ∀ (y : Sym) (len : Nat), (storeLeaf true y len p ntok s).finish =
      .next { s with nm := s.nm.write ntok (leafRec y), act := .tokenising (p + len) (ntok + 1) } := fun y len => by
    unfold storeLeaf
    rw [if_neg (by omega), if_pos rfl, storeToken_next h]; rfl
  cases i with
  | tokLeaf1 y =>
    cases hx
    have hy : 2 ≤ y.toNat := by simpa [Instr.wellFormed] using hw
    show execTokLeaf1 y s = _
    unfold execTokLeaf1
    rw [if_neg (by omega)]
    simp only [inTokens, ha, key, tokenLen]
  | tokLeaf2 y =>
    cases hx
    have hy : 0x80 ≤ y.toNat := by simpa [Instr.wellFormed] using hw
    show inTokens _ s = _
    simp only [inTokens, ha, hy, decide_true, key, tokenLen]
  | tokLeaf3 y =>
    cases hx
    have hy : (decide (0x800 ≤ y.toNat) && isScalar (y.setWidth 21)) = true := by
      have e : (y.setWidth 21 : Sym).toNat = y.toNat := by
        rw [BitVec.toNat_setWidth, Nat.mod_eq_of_lt (by have := y.isLt; omega)]
      have := y.isLt
      simp only [Instr.wellFormed, Bool.and_eq_true, decide_eq_true_eq, Bool.not_eq_true', Bool.and_eq_false_iff,
        decide_eq_false_iff_not] at hw
      simp only [isScalar, e, Bool.and_eq_true, decide_eq_true_eq, Bool.not_eq_true', Bool.and_eq_false_iff,
        decide_eq_false_iff_not]
      omega
    show inTokens _ s = _
    simp only [inTokens, ha, hy, key, tokenLen]
  | tokLeaf4 _ =>
    cases hx
    have hy : (decide (0x10000 ≤ x.toNat) && isScalar x) = true := by
      simp only [Instr.wellFormed, Bool.and_eq_true, decide_eq_true_eq] at hw
      simp only [isScalar, Bool.and_eq_true, decide_eq_true_eq, Bool.not_eq_true', Bool.and_eq_false_iff,
        decide_eq_false_iff_not]
      omega
    show inTokens _ s = _
    simp only [inTokens, ha, hy, key, tokenLen]
  | _ => cases hx

theorem Tok.streamable_leaf {x : Sym} (h : (Tok.leaf x).streamable) : isScalar x = true ∧ 2 ≤ x.toNat := by
  obtain ⟨h1, h2⟩ := h
  refine ⟨h1, ?_⟩
  simp only [isReserved, Bool.or_eq_false_iff, decide_eq_false_iff_not] at h2
  omega

theorem CodeTree.streamable_leaf {n : Idx} {x : Sym} (h : (CodeTree.leaf n x).streamable) :
    isScalar x = true ∧ 2 ≤ x.toNat :=
  Tok.streamable_leaf (h x (by simp [CodeTree.symbols]))

theorem CodeTree.streamable_node {n : Idx} {l r : CodeTree} (h : (CodeTree.node n l r).streamable) :
    l.streamable ∧ r.streamable :=
  ⟨fun x hx => h x (by simp [CodeTree.symbols, hx]), fun x hx => h x (by simp [CodeTree.symbols, hx])⟩

/-- One token of a TDES in flight becomes the next record (R153). -/
theorem tokenStep_tok (k : Tok) {p ntok : Nat} {s : State} (ha : s.act = .tokenising p ntok) (hs : k.streamable)
    (hst : streamAt s p k.bytes) (hn : ntok < s.cfg.nn.toNat) :
    tokenStep s =
      .next { s with nm := s.nm.write ntok k.record, act := .tokenising (p + k.bytes.length) (ntok + 1) } := by
  cases k with
  | internal => rw [tokenStep_defined ha hst (i := .tokInternal) rfl (Or.inr hn), exec_tokInternal ha hn]; rfl
  | leaf x =>
    obtain ⟨hx, h2⟩ := Tok.streamable_leaf hs
    obtain ⟨he, hw, hsym, hlen, -⟩ := leafToken_spec hx h2
    have hd : decodeToken (utf8Enc x) = .ok (leafToken x, []) := by
      have := decodeToken_encode [] hw he
      rwa [List.append_nil] at this
    rw [tokenStep_defined ha hst hd (Or.inr hn), exec_leaf ha hn hsym hw, hlen]; rfl

/-- TDES reads tokens into NM, one record each. -/
theorem drive_tokens (ts : List Tok) (n p ntok : Nat) {s : State} (ha : s.act = .tokenising p ntok)
    (hs : ∀ k ∈ ts, k.streamable) (hst : streamAt s p (streamOf ts)) (hn : ntok + ts.length ≤ s.cfg.nn.toNat) :
    ∃ m, drive tokenStep (n + ts.length) s =
        drive tokenStep n { s with nm := m, act := .tokenising (p + (streamOf ts).length) (ntok + ts.length) } ∧
      sameOutside s.nm m ntok (ntok + ts.length) ∧ holdsAt m ntok (ts.map Tok.record) := by
  induction ts generalizing p ntok s with
  | nil =>
    refine ⟨s.nm, ?_, sameOutside_refl _ _ _, holdsAt_nil _ _⟩
    simp only [streamOf, List.flatMap_nil, List.length_nil, Nat.add_zero, ← ha]
  | cons k ts ih =>
    simp only [streamOf_cons, List.length_cons, List.length_append] at hst hn ⊢
    obtain ⟨h0, h1⟩ := streamAt_append.mp hst
    obtain ⟨m, e1, e2, e3⟩ := ih (p + k.bytes.length) (ntok + 1)
      (s := { s with nm := s.nm.write ntok k.record, act := .tokenising (p + k.bytes.length) (ntok + 1) }) rfl
      (fun q hq => hs q (List.mem_cons_of_mem _ hq)) h1 (by show ntok + 1 + ts.length ≤ s.cfg.nn.toNat; omega)
    have e2' : sameOutside (s.nm.write ntok k.record) m (ntok + 1) (ntok + 1 + ts.length) := e2
    refine ⟨m, ?_, sameOutside_mono (sameOutside_trans (sameOutside_write s.nm ntok k.record) e2') (by omega)
      (by omega), holdsAt_cons.mpr ⟨?_, e3⟩⟩
    · rw [← Nat.add_assoc, drive_flight _ _ (by simp [State.inFlight, ha]),
        tokenStep_tok k ha (hs k List.mem_cons_self) h0 (by omega), andThen_next, e1]
      simp only [Nat.add_assoc, Nat.add_comm 1]
    · rw [e2' ntok (by omega)]; exact Memory.read_write_same _ _ _

theorem streamOf_length {ts : List Tok} (hs : ∀ k ∈ ts, k.streamable) : ts.length ≤ (streamOf ts).length := by
  induction ts with
  | nil => simp
  | cons k ts ih =>
    have hk : 1 ≤ k.bytes.length := by
      cases k with
      | internal => simp [Tok.bytes]
      | leaf x =>
        obtain ⟨hx, h2⟩ := Tok.streamable_leaf (hs _ List.mem_cons_self)
        exact List.length_pos_iff.mpr (leafToken_spec hx h2).2.2.2.2
    have := ih fun q hq => hs q (List.mem_cons_of_mem _ hq)
    rw [streamOf_cons, List.length_cons, List.length_append]; omega

theorem tdes_idle {s : State} (hi : idle s) :
    exec .tdes s = drive tokenStep s.tsLen.toNat { beginCommand s with act := .tokenising 0 0 } := by
  show execTdes s = _
  unfold execTdes
  rw [hi.accepts]

/-- TDES comes to what follows the tokens that TSB begins with. -/
theorem tdes_tokens {s : State} (ts : List Tok) (hi : idle s) (hs : ∀ k ∈ ts, k.streamable)
    (hst : streamAt s 0 (streamOf ts)) (hn : ts.length ≤ s.cfg.nn.toNat) :
    ∃ m, exec .tdes s = drive tokenStep (s.tsLen.toNat - ts.length)
        { beginCommand s with nm := m, act := .tokenising (streamOf ts).length ts.length } ∧
      sameOutside s.nm m 0 ts.length ∧ holdsAt m 0 (ts.map Tok.record) := by
  have hle := streamOf_length hs
  have hl := hst.2.1
  obtain ⟨m, h1, h2, h3⟩ := drive_tokens ts (s.tsLen.toNat - ts.length) 0 0
    (s := { beginCommand s with act := .tokenising 0 0 }) rfl hs hst (by simpa using hn)
  simp only [Nat.zero_add] at h1 h2
  exact ⟨m, by rw [tdes_idle hi, ← h1, Nat.sub_add_cancel (by omega)], h2, h3⟩

/-- A token step that ends the command ends the run. -/
theorem drive_last {s t : State} (n : Nat) (h : s.inFlight = true) (hs : tokenStep s = .next t)
    (ht : t.inFlight = false) : drive tokenStep n s = .next t := by
  cases n with
  | zero => rw [drive, if_pos h, hs]
  | succ n => rw [drive_flight _ _ h, hs, andThen_next, drive_idle _ _ ht]

/-- A fault of the token after those that TSB begins with is TDES's. -/
theorem tdes_raises {s : State} {ts : List Tok} {c : Cause} {info : BitVec 32} (hi : idle s)
    (hs : ∀ k ∈ ts, k.streamable) (hst : streamAt s 0 (streamOf ts)) (hn : ts.length ≤ s.cfg.nn.toNat)
    (h : ∀ m, tokenStep { beginCommand s with nm := m, act := .tokenising (streamOf ts).length ts.length } =
      .next (enterFault c info { beginCommand s with nm := m, act := .tokenising (streamOf ts).length ts.length })) :
    ∃ u, exec .tdes s = .next (enterFault c info u) := by
  obtain ⟨m, h1, -, -⟩ := tdes_tokens ts hi hs hst hn
  exact ⟨_, h1.trans (drive_last _ (by simp [State.inFlight]) (h m) (by simp))⟩

end Sys2Proof.Safety
end

