-- ==== Sys2Proof/Laws/Serialize.lean ====
section
/-! SUPPORT. The serializer on a tree held in NM: the whole stream where it fits and every leaf can be carried, else
the fault of the first leaf that cannot, or of the buffer; and its walk over any part of what NM unfolds to. -/

namespace Sys2Proof.Safety

open Sys2Proof.Machine

/-- Bytes that fit are appended to TSB in order. -/
theorem appendAll_fits (bs : List Byte) {s : State} (h : s.tsLen.toNat + bs.length ≤ s.cfg.tsCap.toNat) :
    ∃ m n, appendAll bs s = .ok () { s with tsb := m, tsLen := n } ∧ n.toNat = s.tsLen.toNat + bs.length ∧
      holdsAt m s.tsLen.toNat bs ∧ sameOutside s.tsb m s.tsLen.toNat (s.tsLen.toNat + bs.length) := by
  induction bs generalizing s with
  | nil => exact ⟨s.tsb, s.tsLen, rfl, rfl, holdsAt_nil _ _, sameOutside_refl _ _ _⟩
  | cons b bs ih =>
    rw [List.length_cons] at h ⊢
    have hlt : s.tsLen.toNat < s.cfg.tsCap.toNat := by omega
    have hlen : (s.tsLen + 1#32).toNat = s.tsLen.toNat + 1 := toNat_add_one hlt cap_le
    obtain ⟨m, n, h1, h2, h3, h4⟩ :=
      ih (s := { s with tsb := s.tsb.write s.tsLen.toNat b, tsLen := s.tsLen + 1#32 })
        (by show (s.tsLen + 1#32).toNat + bs.length ≤ s.cfg.tsCap.toNat; omega)
    have h2' : n.toNat = (s.tsLen + 1#32).toNat + bs.length := h2
    have h3' : holdsAt m (s.tsLen + 1#32).toNat bs := h3
    have h4' : sameOutside (s.tsb.write s.tsLen.toNat b) m (s.tsLen + 1#32).toNat
        ((s.tsLen + 1#32).toNat + bs.length) := h4
    refine ⟨m, n, ?_, by omega, holdsAt_cons.mpr ⟨?_, ?_⟩, ?_⟩
    · simp only [appendAll, appendTsb, writeTsb_ok b hlt, Run.bind_ok]
      exact h1
    · rw [h4' _ (by omega)]; exact Memory.read_write_same _ _ _
    · rw [← hlen]; exact h3'
    · exact sameOutside_mono (sameOutside_trans (sameOutside_write s.tsb s.tsLen.toNat b) h4') (by omega) (by omega)

theorem emitToken_fits (bs : List Byte) {s : State} (h : s.tsLen.toNat + bs.length ≤ s.cfg.tsCap.toNat) :
    ∃ m n, emitToken bs s = .ok () { s with tsb := m, tsLen := n } ∧ n.toNat = s.tsLen.toNat + bs.length ∧
      holdsAt m s.tsLen.toNat bs ∧ sameOutside s.tsb m s.tsLen.toNat (s.tsLen.toNat + bs.length) := by
  unfold emitToken
  rw [if_neg (by omega)]
  exact appendAll_fits bs h

theorem emitToken_full (bs : List Byte) {s : State} (h : s.cfg.tsCap.toNat < s.tsLen.toNat + bs.length) :
    emitToken bs s = .raise .bufOverflow 1#32 s := by
  unfold emitToken
  rw [if_pos h]; rfl

theorem emitLeaf_good {n : Idx} {x : Sym} {s : State} (h1 : isScalar x = true) (h2 : isReserved x = false) :
    emitLeaf n x s = emitToken (utf8Enc x) s := by
  simp [emitLeaf, h1, h2]

/-- TSER's loop comes to a node that NM holds. -/
theorem serialize_leaf {n : Idx} {x : Sym} {s : State} (budget : Nat) (stack : List Idx)
    (h : (CodeTree.leaf n x).heldIn s = true) :
    serialize (budget + 1) (n :: stack) s = (emitLeaf n x s).bind fun _ s => serialize budget stack s := by
  obtain ⟨h0, r, h1, h2, h3⟩ := CodeTree.heldIn_leaf.mp h
  conv_lhs => unfold serialize
  rw [if_neg (by omega), readNm_defined h1 h0]
  simp only [Run.bind_ok, h2, h3]

theorem serialize_node {n : Idx} {l r : CodeTree} {s : State} (budget : Nat) (stack : List Idx)
    (h : (CodeTree.node n l r).heldIn s = true) :
    serialize (budget + 1) (n :: stack) s =
      (emitToken [0x01#8] s).bind fun _ s => serialize budget (l.index :: r.index :: stack) s := by
  obtain ⟨h0, -, -, q, h1, h2, h3, h4⟩ := CodeTree.heldIn_node.mp h
  conv_lhs => unfold serialize
  rw [if_neg (by omega), readNm_defined h1 h0]
  simp only [Run.bind_ok, h2, h3, h4]

/-- A held tree whose stream fits is written whole, and the loop goes on with what else is on the stack. -/
theorem serialize_tree (t : CodeTree) (budget : Nat) (stack : List Idx) {s : State} (h : t.heldIn s = true)
    (hs : t.streamable) (hfit : s.tsLen.toNat + t.stream.length ≤ s.cfg.tsCap.toNat) :
    ∃ m n, serialize (budget + t.size) (t.index :: stack) s = serialize budget stack { s with tsb := m, tsLen := n } ∧
      n.toNat = s.tsLen.toNat + t.stream.length ∧ holdsAt m s.tsLen.toNat t.stream ∧
      sameOutside s.tsb m s.tsLen.toNat (s.tsLen.toNat + t.stream.length) := by
  induction t generalizing budget stack s with
  | leaf n x =>
    obtain ⟨hx, hr⟩ := hs x (by simp [CodeTree.symbols])
    obtain ⟨m, k, h1, h2⟩ := emitToken_fits (utf8Enc x) hfit
    refine ⟨m, k, ?_, h2⟩
    show serialize (budget + 1) (n :: stack) s = _
    rw [serialize_leaf budget stack h, emitLeaf_good hx hr, h1]; rfl
  | node n l r hl hr =>
    obtain ⟨hsl, hsr⟩ := CodeTree.streamable_node hs
    simp only [CodeTree.stream, List.length_cons, List.length_append, CodeTree.size] at hfit ⊢
    obtain ⟨m0, k0, e0, n0, d0, o0⟩ := emitToken_fits [0x01#8] (s := s) (by simp; omega)
    simp only [List.length_cons, List.length_nil, Nat.zero_add] at n0 o0
    obtain ⟨-, hhl, hhr, -⟩ := CodeTree.heldIn_node.mp h
    obtain ⟨ml, kl, el, nl, dl, ol⟩ := hl (budget + r.size) (r.index :: stack) (s := { s with tsb := m0, tsLen := k0 })
      (by rw [← hhl]; exact CodeTree.heldIn_congr l rfl fun _ _ => rfl) hsl
      (by show k0.toNat + l.stream.length ≤ s.cfg.tsCap.toNat; omega)
    have nl' : kl.toNat = k0.toNat + l.stream.length := nl
    have dl' : holdsAt ml k0.toNat l.stream := dl
    have ol' : sameOutside m0 ml k0.toNat (k0.toNat + l.stream.length) := ol
    obtain ⟨mr, kr, er, nr, dr, or⟩ := hr budget stack (s := { s with tsb := ml, tsLen := kl })
      (by rw [← hhr]; exact CodeTree.heldIn_congr r rfl fun _ _ => rfl) hsr
      (by show kl.toNat + r.stream.length ≤ s.cfg.tsCap.toNat; omega)
    have nr' : kr.toNat = kl.toNat + r.stream.length := nr
    have dr' : holdsAt mr kl.toNat r.stream := dr
    have or' : sameOutside ml mr kl.toNat (kl.toNat + r.stream.length) := or
    refine ⟨mr, kr, ?_, by omega, holdsAt_cons.mpr ⟨?_, holdsAt_append.mpr ⟨?_, ?_⟩⟩, ?_⟩
    · show serialize ((budget + (l.size + r.size)) + 1) (n :: stack) s = _
      rw [serialize_node _ _ h, e0, Run.bind_ok, show budget + (l.size + r.size) = budget + r.size + l.size by omega,
        el, er]
    · rw [or' _ (by omega), ol' _ (by omega)]
      exact (holdsAt_cons.mp d0).1
    · rw [← n0]; exact holdsAt_of_outside dl' or' (Or.inl (by omega))
    · rw [← n0, ← nl']; exact dr'
    · exact sameOutside_mono (sameOutside_trans (sameOutside_trans o0 ol') or') (by omega) (by omega)

/-- A held tree of streamable leaves whose stream does not fit raises BufOverflow(1) (R132). -/
theorem serialize_full (t : CodeTree) (budget : Nat) (stack : List Idx) {s : State} (h : t.heldIn s = true)
    (hs : t.streamable) (hcap : s.cfg.tsCap.toNat < s.tsLen.toNat + t.stream.length) :
    ∃ u, serialize (budget + t.size) (t.index :: stack) s = .raise .bufOverflow 1#32 u := by
  induction t generalizing budget stack s with
  | leaf n x =>
    obtain ⟨hx, hr⟩ := hs x (by simp [CodeTree.symbols])
    refine ⟨s, ?_⟩
    show serialize (budget + 1) (n :: stack) s = _
    rw [serialize_leaf budget stack h, emitLeaf_good hx hr, emitToken_full (utf8Enc x) hcap]; rfl
  | node n l r hl hr =>
    obtain ⟨hsl, hsr⟩ := CodeTree.streamable_node hs
    simp only [CodeTree.stream, List.length_cons, List.length_append, CodeTree.size] at hcap ⊢
    obtain ⟨-, hhl, hhr, -⟩ := CodeTree.heldIn_node.mp h
    have e : serialize (budget + (l.size + r.size + 1)) ((CodeTree.node n l r).index :: stack) s =
        (emitToken [0x01#8] s).bind fun _ s => serialize (budget + r.size + l.size) (l.index :: r.index :: stack) s := by
      show serialize ((budget + (l.size + r.size)) + 1) (n :: stack) s = _
      rw [serialize_node _ _ h, show budget + (l.size + r.size) = budget + r.size + l.size by omega]
    by_cases h0 : s.tsLen.toNat + 1 ≤ s.cfg.tsCap.toNat
    · obtain ⟨m0, k0, e0, n0, -, -⟩ := emitToken_fits [0x01#8] (s := s) h0
      simp only [List.length_cons, List.length_nil, Nat.zero_add] at n0
      have hhl' : l.heldIn { s with tsb := m0, tsLen := k0 } = true := by
        rw [← hhl]; exact CodeTree.heldIn_congr l rfl fun _ _ => rfl
      rw [e, e0, Run.bind_ok]
      by_cases h1 : k0.toNat + l.stream.length ≤ s.cfg.tsCap.toNat
      · obtain ⟨ml, kl, el, nl, -, -⟩ :=
          serialize_tree l (budget + r.size) (r.index :: stack) (s := { s with tsb := m0, tsLen := k0 }) hhl' hsl h1
        have nl' : kl.toNat = k0.toNat + l.stream.length := nl
        rw [el]
        exact hr budget stack (by rw [← hhr]; exact CodeTree.heldIn_congr r rfl fun _ _ => rfl) hsr
          (by show s.cfg.tsCap.toNat < kl.toNat + r.stream.length; omega)
      · exact hl _ _ hhl' hsl (by show s.cfg.tsCap.toNat < k0.toNat + l.stream.length; omega)
    · exact ⟨s, by rw [e, emitToken_full [0x01#8] (by simp; omega)]; rfl⟩

/-- A leaf that the stream cannot carry (R106, R132). -/
def badLeaf (l : Idx × Sym) : Bool := !isScalar l.2 || isReserved l.2

theorem streamable_of_leaves {t : CodeTree} (h : t.leaves.find? badLeaf = none) : t.streamable := by
  have key : ∀ t : CodeTree, ∀ x ∈ t.symbols, ∃ l ∈ t.leaves, l.2 = x := by
    intro t
    induction t with
    | leaf n y => intro x hx; simp only [CodeTree.symbols, List.mem_singleton] at hx; exact ⟨(n, y),
      by simp [CodeTree.leaves], hx.symm⟩
    | node n l r hl hr =>
      intro x hx
      rcases List.mem_append.mp hx with hx | hx
      · obtain ⟨q, hq, he⟩ := hl x hx; exact ⟨q, List.mem_append_left _ hq, he⟩
      · obtain ⟨q, hq, he⟩ := hr x hx; exact ⟨q, List.mem_append_right _ hq, he⟩
  intro x hx
  obtain ⟨q, hq, rfl⟩ := key t x hx
  have := List.find?_eq_none.mp h q hq
  simpa [badLeaf] using this

/-- The first leaf in pre-order that the stream cannot carry raises SymReserved or SymInvalid at its node (R132). -/
theorem serialize_bad (t : CodeTree) (budget : Nat) (stack : List Idx) {s : State} {n : Idx} {x : Sym}
    (h : t.heldIn s = true) (hbad : t.leaves.find? badLeaf = some (n, x))
    (hfit : s.tsLen.toNat + t.stream.length ≤ s.cfg.tsCap.toNat) :
    ∃ u, serialize (budget + t.size) (t.index :: stack) s =
      .raise (if isReserved x then .symReserved else .symInvalid) n u := by
  induction t generalizing budget stack s with
  | leaf i y =>
    simp only [CodeTree.leaves, List.find?_singleton] at hbad
    split at hbad
    · rename_i hb
      obtain ⟨rfl, rfl⟩ := Prod.mk.inj (Option.some.inj hbad)
      refine ⟨s, ?_⟩
      show serialize (budget + 1) (i :: stack) s = _
      rw [serialize_leaf budget stack h]
      unfold emitLeaf
      simp only [badLeaf] at hb
      cases hr : isReserved y with
      | true => simp
      | false =>
        rw [hr, Bool.or_false] at hb
        simp [hb]
    · cases hbad
  | node i l r hl hr =>
    simp only [CodeTree.stream, List.length_cons, List.length_append, CodeTree.size] at hfit ⊢
    obtain ⟨-, hhl, hhr, -⟩ := CodeTree.heldIn_node.mp h
    obtain ⟨m0, k0, e0, n0, -, -⟩ := emitToken_fits [0x01#8] (s := s) (by simp; omega)
    simp only [List.length_cons, List.length_nil, Nat.zero_add] at n0
    have hhl' : l.heldIn { s with tsb := m0, tsLen := k0 } = true := by
      rw [← hhl]; exact CodeTree.heldIn_congr l rfl fun _ _ => rfl
    have e : serialize (budget + (l.size + r.size + 1)) ((CodeTree.node i l r).index :: stack) s =
        serialize (budget + r.size + l.size) (l.index :: r.index :: stack) { s with tsb := m0, tsLen := k0 } := by
      show serialize ((budget + (l.size + r.size)) + 1) (i :: stack) s = _
      rw [serialize_node _ _ h, e0, Run.bind_ok, show budget + (l.size + r.size) = budget + r.size + l.size by omega]
    rw [e]
    rw [CodeTree.leaves, List.find?_append] at hbad
    cases hf : l.leaves.find? badLeaf with
    | some q =>
      rw [hf] at hbad
      obtain rfl : q = (n, x) := by simpa using hbad
      exact hl _ _ hhl' hf (by show k0.toNat + l.stream.length ≤ s.cfg.tsCap.toNat; omega)
    | none =>
      rw [hf] at hbad
      obtain ⟨ml, kl, el, nl, -, -⟩ := serialize_tree l (budget + r.size) (r.index :: stack)
        (s := { s with tsb := m0, tsLen := k0 }) hhl' (streamable_of_leaves hf)
        (by show k0.toNat + l.stream.length ≤ s.cfg.tsCap.toNat; omega)
      have nl' : kl.toNat = k0.toNat + l.stream.length := nl
      rw [el]
      exact hr budget stack (by rw [← hhr]; exact CodeTree.heldIn_congr r rfl fun _ _ => rfl) (by simpa using hbad)
        (by show kl.toNat + r.stream.length ≤ s.cfg.tsCap.toNat; omega)

/-! Parts of what NM unfolds to: the walk up to the first stop. -/

theorem Part.heldIn_same {s u : State} {p : Part} (h : p.heldIn s = true) (hc : u.cfg = s.cfg) (hn : u.nm = s.nm) :
    p.heldIn u = true := by
  rw [← h]
  induction p with
  | stop => rfl
  | leaf => simp only [Part.heldIn, hc, hn]
  | node n l r hl hr =>
    obtain ⟨h2, h3⟩ : l.heldIn s = true ∧ r.heldIn s = true := by
      simp only [Part.heldIn, Bool.and_eq_true] at h
      exact ⟨h.1.1.2, h.1.2⟩
    simp only [Part.heldIn, hc, hn, hl h2, hr h3]

/-- A part without a stop is a tree. -/
theorem Part.whole {s : State} {p : Part} (h : p.heldIn s = true) (hp : p.firstStop = none) :
    ∃ t : CodeTree, t.index = p.index ∧ t.tokens = p.walked ∧ t.heldIn s = true := by
  induction p with
  | stop n => cases hp
  | leaf n x => exact ⟨.leaf n x, rfl, rfl, h⟩
  | node n l r hl hr =>
    simp only [Part.firstStop, Option.or_eq_none_iff] at hp
    simp only [Part.heldIn, Bool.and_eq_true] at h
    obtain ⟨⟨⟨h1, h2⟩, h3⟩, h4⟩ := h
    obtain ⟨tl, l1, l2, l3⟩ := hl h2 hp.1
    obtain ⟨tr, r1, r2, r3⟩ := hr h3 hp.2
    refine ⟨.node n tl tr, rfl, ?_, ?_⟩
    · simp [CodeTree.tokens, Part.walked, l2, r2, hp.1]
    · simp only [CodeTree.heldIn, l1, r1, l3, r3, h1, Bool.and_true, Bool.true_and]
      exact h4

/-- TSER comes to an internal node that NM holds. -/
theorem serialize_part {n : Idx} {l r : Part} {s : State} (budget : Nat) (stack : List Idx)
    (h : (Part.node n l r).heldIn s = true) :
    l.heldIn s = true ∧ r.heldIn s = true ∧ serialize (budget + 1) (n :: stack) s =
      (emitToken [0x01#8] s).bind fun _ s => serialize budget (l.index :: r.index :: stack) s := by
  simp only [Part.heldIn, Bool.and_eq_true, decide_eq_true_eq] at h
  obtain ⟨⟨⟨h1, h2⟩, h3⟩, h4⟩ := h
  refine ⟨h2, h3, ?_⟩
  cases hq : s.nm.read n.toNat with
  | none => rw [hq] at h4; cases h4
  | some q =>
    rw [hq] at h4
    simp only [Bool.and_eq_true, decide_eq_true_eq] at h4
    conv_lhs => unfold serialize
    rw [if_neg (by omega), readNm_defined hq h1]
    simp only [Run.bind_ok, h4.1.1, h4.1.2, h4.2]

/-- TSER walks to the first stop, one visit for each token written, where these fit. -/
theorem serialize_walk (p : Part) (budget : Nat) (stack : List Idx) {s : State} {n : Idx} (h : p.heldIn s = true)
    (hp : p.firstStop = some n) (hs : ∀ k ∈ p.walked, k.streamable)
    (hfit : s.tsLen.toNat + (streamOf p.walked).length ≤ s.cfg.tsCap.toNat) :
    ∃ m k rest, serialize (budget + p.walked.length) (p.index :: stack) s =
        serialize budget (n :: rest) { s with tsb := m, tsLen := k } ∧
      k.toNat = s.tsLen.toNat + (streamOf p.walked).length := by
  induction p generalizing budget stack s with
  | stop i => cases hp; exact ⟨s.tsb, s.tsLen, stack, rfl, rfl⟩
  | leaf => cases hp
  | node i l r hl hr =>
    simp only [Part.walked, streamOf_cons, Tok.bytes, List.length_append, List.length_nil, List.length_cons,
      List.forall_mem_cons, List.forall_mem_append] at hs hfit ⊢
    obtain ⟨m0, k0, e0, n0, -, -⟩ := emitToken_fits [0x01#8] (s := s) (by simp; omega)
    have n0 : k0.toNat = s.tsLen.toNat + 1 := n0
    have step := fun b => serialize_part b stack h
    obtain ⟨hhl, hhr, -⟩ := step 0
    cases hf : l.firstStop with
    | some j =>
      simp only [Part.firstStop, hf, Option.some_or, Option.some.injEq] at hp
      subst hp
      simp only [hf, Option.isSome_some, if_true, List.length_nil, streamOf_append, List.length_append, Nat.add_zero]
        at hs hfit ⊢
      simp only [show streamOf [] = [] from rfl, List.length_nil, Nat.add_zero] at hfit ⊢
      obtain ⟨m, k, rest, e1, n1⟩ := hl budget (r.index :: stack) (s := { s with tsb := m0, tsLen := k0 })
        (Part.heldIn_same hhl rfl rfl) hf hs.2.1
        (by show k0.toNat + _ ≤ s.cfg.tsCap.toNat; omega)
      have n1' : k.toNat = k0.toNat + (streamOf l.walked).length := n1
      refine ⟨m, k, rest, ?_, by omega⟩
      rw [← Nat.add_assoc]
      refine (step _).2.2.trans ?_
      rw [e0, Run.bind_ok, e1]
    | none =>
      simp only [Part.firstStop, hf, Option.none_or] at hp
      simp only [hf, Option.isSome_none, Bool.false_eq_true, if_false, streamOf_append, List.length_append] at hs hfit ⊢
      obtain ⟨t, t1, t2, t3⟩ := Part.whole hhl hf
      have t4 : (streamOf l.walked).length = t.stream.length := by rw [← t2, CodeTree.streamOf_tokens]
      have t5 : l.walked.length = t.size := by rw [← t2, CodeTree.length_tokens]
      obtain ⟨ml, kl, el, nl, -, -⟩ := serialize_tree t (budget + r.walked.length) (r.index :: stack)
        (s := { s with tsb := m0, tsLen := k0 }) (CodeTree.heldIn_same t3 rfl rfl)
        (t.streamable_tokens.mp (by rw [t2]; exact hs.2.1)) (by show k0.toNat + _ ≤ s.cfg.tsCap.toNat; omega)
      have nl' : kl.toNat = k0.toNat + t.stream.length := nl
      obtain ⟨m, k, rest, e1, n1⟩ := hr budget stack (s := { s with tsb := ml, tsLen := kl })
        (Part.heldIn_same hhr rfl rfl) hp hs.2.2 (by show kl.toNat + _ ≤ s.cfg.tsCap.toNat; omega)
      have n1' : k.toNat = kl.toNat + (streamOf r.walked).length := n1
      refine ⟨m, k, rest, ?_, by omega⟩
      rw [show budget + (l.walked.length + r.walked.length + 1) = (budget + r.walked.length + l.walked.length) + 1 by
        omega]
      refine (step _).2.2.trans ?_
      rw [e0, Run.bind_ok, t5, ← t1, el, e1]

/-- Where the tokens up to the first stop do not fit, TSER raises BufOverflow(1) (R132). -/
theorem serialize_walk_full (p : Part) (budget : Nat) (stack : List Idx) {s : State} (h : p.heldIn s = true)
    (hs : ∀ k ∈ p.walked, k.streamable)
    (hcap : s.cfg.tsCap.toNat < s.tsLen.toNat + (streamOf p.walked).length)
    (hle : s.tsLen.toNat ≤ s.cfg.tsCap.toNat) :
    ∃ u, serialize (budget + p.walked.length) (p.index :: stack) s = .raise .bufOverflow 1#32 u := by
  induction p generalizing budget stack s with
  | stop => simp [Part.walked, streamOf] at hcap; omega
  | leaf n x =>
    have := serialize_full (.leaf n x) budget stack h (by
      intro y hy
      cases List.mem_singleton.mp hy
      exact hs (.leaf x) (by simp [Part.walked])) (by
      rw [← CodeTree.streamOf_tokens]; exact hcap)
    exact this
  | node i l r hl hr =>
    simp only [Part.walked, streamOf_cons, Tok.bytes, List.length_append, List.length_nil, List.length_cons,
      List.forall_mem_cons, List.forall_mem_append] at hs hcap ⊢
    have step := fun b => serialize_part b stack h
    obtain ⟨hhl, hhr, -⟩ := step 0
    by_cases h0 : s.tsLen.toNat + 1 ≤ s.cfg.tsCap.toNat
    · obtain ⟨m0, k0, e0, n0, -, -⟩ := emitToken_fits [0x01#8] (s := s) h0
      have n0 : k0.toNat = s.tsLen.toNat + 1 := n0
      have hhl' : l.heldIn { s with tsb := m0, tsLen := k0 } = true := Part.heldIn_same hhl rfl rfl
      cases hf : l.firstStop with
      | some j =>
        simp only [hf, Option.isSome_some, if_true, List.length_nil, streamOf_append, List.length_append, Nat.add_zero,
          show streamOf [] = [] from rfl] at hs hcap ⊢
        obtain ⟨u, hu⟩ := hl budget (r.index :: stack) hhl' hs.2.1
          (by show s.cfg.tsCap.toNat < k0.toNat + _; omega) (by show k0.toNat ≤ s.cfg.tsCap.toNat; omega)
        refine ⟨u, ?_⟩
        rw [← Nat.add_assoc]
        refine (step _).2.2.trans ?_
        rw [e0, Run.bind_ok, hu]
      | none =>
        simp only [hf, Option.isSome_none, Bool.false_eq_true, if_false, streamOf_append, List.length_append]
          at hs hcap ⊢
        obtain ⟨t, t1, t2, t3⟩ := Part.whole hhl hf
        have t4 : (streamOf l.walked).length = t.stream.length := by rw [← t2, CodeTree.streamOf_tokens]
        have t5 : l.walked.length = t.size := by rw [← t2, CodeTree.length_tokens]
        have e : serialize (budget + (l.walked.length + r.walked.length + 1)) (i :: stack) s =
            serialize (budget + r.walked.length + l.walked.length) (l.index :: r.index :: stack)
              { s with tsb := m0, tsLen := k0 } := by
          rw [show budget + (l.walked.length + r.walked.length + 1) =
            (budget + r.walked.length + l.walked.length) + 1 by omega]
          refine (step _).2.2.trans ?_
          rw [e0, Run.bind_ok]
        by_cases h1 : k0.toNat + t.stream.length ≤ s.cfg.tsCap.toNat
        · obtain ⟨ml, kl, el, nl, -, -⟩ := serialize_tree t (budget + r.walked.length) (r.index :: stack)
            (s := { s with tsb := m0, tsLen := k0 }) (CodeTree.heldIn_same t3 rfl rfl)
            (t.streamable_tokens.mp (by rw [t2]; exact hs.2.1)) h1
          have nl' : kl.toNat = k0.toNat + t.stream.length := nl
          obtain ⟨u, hu⟩ := hr budget stack (s := { s with tsb := ml, tsLen := kl })
            (Part.heldIn_same hhr rfl rfl) hs.2.2 (by show s.cfg.tsCap.toNat < kl.toNat + _; omega)
            (by show kl.toNat ≤ s.cfg.tsCap.toNat; omega)
          exact ⟨u, by refine e.trans ?_; rw [t5, ← t1, el, hu]⟩
        · obtain ⟨u, hu⟩ := hl (budget + r.walked.length) (r.index :: stack) hhl' hs.2.1
            (by show s.cfg.tsCap.toNat < k0.toNat + _; omega) (by show k0.toNat ≤ s.cfg.tsCap.toNat; omega)
          exact ⟨u, e.trans hu⟩
    · refine ⟨s, ?_⟩
      rw [← Nat.add_assoc]
      refine (step _).2.2.trans ?_
      rw [emitToken_full [0x01#8] (by simp; omega)]; rfl

end Sys2Proof.Safety
end

