-- ==== Sys2Proof/Laws/Walk.lean ====
section
/-! SUPPORT. The unpacker on a tree held in NM: one payload bit, the bits of one path, and the bits of many. -/

namespace Sys2Proof.Safety

open Sys2Proof.Machine

/-- UNPACK is in flight with its cursor on `cur`, and the next payload bit is bit `q` (R63, R201). -/
def Walking (s : State) (T : Operand) (cur : Idx) (q : Nat) : Prop :=
  ∃ byte unread, s.act = .walking T cur byte unread ∧ unread < 8 ∧ q + unread = 8 * s.plRpos.toNat ∧
    (unread ≠ 0 → s.plb.read (s.plRpos.toNat - 1) = some byte)

theorem Walking.inFlight {s : State} {T : Operand} {cur : Idx} {q : Nat} (h : Walking s T cur q) :
    s.inFlight = true := by
  obtain ⟨_, _, ha, _⟩ := h
  simp [State.inFlight, ha]

theorem Walking.rpos {s : State} {T : Operand} {cur : Idx} {q : Nat} (h : Walking s T cur q) :
    s.plRpos.toNat = bytesFor q := by
  obtain ⟨_, _, _, h1, h2, _⟩ := h
  unfold bytesFor; omega

theorem runBit_walk {b : Bool} {T : Operand} {cur : Idx} {byte : Byte} {k : Nat} {s : State}
    (ha : s.act = .walking T cur byte (k + 1)) : runBit (decodeBit b) s = (walkTo b T cur byte k s).finish := by
  cases b with
  | false => show inWalk false s = _; simp only [inWalk, ha]
  | true => show inWalk true s = _; simp only [inWalk, ha]

/-- A defined payload bit is fetched and taken (R201). -/
theorem bitStep_bit {s : State} {T : Operand} {cur : Idx} {q : Nat} {b : Bool} (h : Walking s T cur q)
    (hb : bitAt s.plb q = some b) (hq : q < 8 * s.plLen.toNat) (hcap : s.plLen.toNat ≤ s.cfg.plCap.toNat) :
    ∃ byte k u, bitStep s = (walkTo b T cur byte k u).finish ∧ u = { s with plRpos := u.plRpos, act := u.act } ∧
      k < 8 ∧ q + 1 + k = 8 * u.plRpos.toNat ∧ (k ≠ 0 → u.plb.read (u.plRpos.toNat - 1) = some byte) := by
  obtain ⟨byte, unread, ha, h1, h2, h3⟩ := h
  unfold bitStep
  rw [ha]
  simp only [fetchBit]
  cases unread with
  | zero =>
    have hlt : s.plRpos.toNat < s.plLen.toNat := by omega
    obtain ⟨c, hc, hcb⟩ : ∃ c, s.plb.read s.plRpos.toNat = some c ∧ c.getLsbD 7 = b := by
      unfold bitAt at hb
      rw [show q / 8 = s.plRpos.toNat by omega, show 7 - q % 8 = 7 by omega] at hb
      cases hr : s.plb.read s.plRpos.toNat with
      | none => rw [hr] at hb; cases hb
      | some c => rw [hr] at hb; exact ⟨c, rfl, by simpa using hb⟩
    have hpos : (s.plRpos + 1#32).toNat = s.plRpos.toNat + 1 := toNat_add_one hlt cap_le
    rw [if_pos rfl, if_neg (by omega), readPlb_defined hc (by omega)]
    simp only [Run.bind_ok, runFetched]
    refine ⟨c, 7, { s with plRpos := s.plRpos + 1#32, act := .walking T cur c 8 }, ?_, rfl, by omega, ?_, fun _ => ?_⟩
    · rw [show payloadBit c 8 = b from hcb]; exact runBit_walk rfl
    · show q + 1 + 7 = 8 * (s.plRpos + 1#32).toNat
      omega
    · show s.plb.read ((s.plRpos + 1#32).toNat - 1) = some c
      rw [hpos, Nat.add_sub_cancel]; exact hc
  | succ k =>
    have hbyte := h3 (by omega)
    have hbb : payloadBit byte (k + 1) = b := by
      unfold bitAt at hb
      rw [show q / 8 = s.plRpos.toNat - 1 by omega, hbyte] at hb
      have hb' : byte.getLsbD (7 - q % 8) = b := by simpa using hb
      unfold payloadBit
      rw [← hb']; congr 1; omega
    rw [if_neg (by omega)]
    simp only [runFetched]
    refine ⟨byte, k, s, ?_, rfl, by omega, by omega, fun _ => hbyte⟩
    rw [hbb]; exact runBit_walk ha

/-- A bit that leads to an internal node moves the cursor there (R202). -/
theorem walkTo_internal {right : Bool} {T : Operand} {cur : Idx} {byte : Byte} {k : Nat} {s : State}
    {r rc : NodeRec} (h0 : cur.toNat < s.cfg.nn.toNat) (h1 : s.nm.read cur.toNat = some r)
    (h2 : (childOf right r).toNat < s.cfg.nn.toNat) (h3 : s.nm.read (childOf right r).toNat = some rc)
    (h4 : rc.kind = .internal) :
    walkTo right T cur byte k s = .ok () { s with act := .walking T (childOf right r) byte k } := by
  unfold walkTo
  rw [readNm_defined h1 h0]
  simp only [Run.bind_ok]
  rw [if_neg (by omega), readNm_defined h3 h2]
  simp only [Run.bind_ok, h4]

/-- A bit that leads to a leaf emits its symbol, and the cursor returns to ROOT or UNPACK ends (R202). -/
theorem walkTo_leaf {right : Bool} {T : Operand} {cur : Idx} {byte : Byte} {k : Nat} {s : State}
    {r rc : NodeRec} (h0 : cur.toNat < s.cfg.nn.toNat) (h1 : s.nm.read cur.toNat = some r)
    (h2 : (childOf right r).toNat < s.cfg.nn.toNat) (h3 : s.nm.read (childOf right r).toNat = some rc)
    (h4 : rc.kind = .leaf) (h5 : s.syLen.toNat < s.cfg.syCap.toNat) :
    walkTo right T cur byte k s = .ok ()
      (if s.syLen.toNat + 1 = T.toNat then
        endCommand { s with syb := s.syb.write s.syLen.toNat rc.sym, syLen := s.syLen + 1#32 }
      else
        { s with syb := s.syb.write s.syLen.toNat rc.sym, syLen := s.syLen + 1#32,
                 act := .walking T s.root byte k }) := by
  have hlen : (s.syLen + 1#32).toNat = s.syLen.toNat + 1 := toNat_add_one h5 cap_le
  unfold walkTo
  rw [readNm_defined h1 h0]
  simp only [Run.bind_ok]
  rw [if_neg (by omega), readNm_defined h3 h2]
  simp only [Run.bind_ok, h4, emitSym_ok h5, hlen]
  split <;> rfl

/-- A symbol came out: it is stored, `q` payload bits are taken, and UNPACK has ended or is at ROOT again. -/
structure Emitted (s : State) (T : Operand) (xs : List Sym) (q : Nat) (u : State) : Prop where
  frame : u = { s with syb := u.syb, syLen := u.syLen, plRpos := u.plRpos, act := u.act, status := u.status }
  len   : u.syLen.toNat = s.syLen.toNat + xs.length
  new   : holdsAt u.syb s.syLen.toNat xs
  rest  : sameOutside s.syb u.syb s.syLen.toNat (s.syLen.toNat + xs.length)
  rpos  : u.plRpos.toNat = bytesFor q
  ended : u.syLen.toNat = T.toNat → u.act = .idle ∧ u.status = statusEnded s.status
  goes  : u.syLen.toNat ≠ T.toNat → Walking u T s.root q ∧ u.status = s.status

/-- The record of an internal node and its chosen child. -/
theorem CodeTree.child {s : State} {n : Idx} {l r : CodeTree} (h : (CodeTree.node n l r).heldIn s = true) (b : Bool) :
    ∃ q, s.nm.read n.toNat = some q ∧ n.toNat < s.cfg.nn.toNat ∧ childOf b q = (if b then r else l).index ∧
      (if b then r else l).heldIn s = true := by
  obtain ⟨h0, hl, hr, q, h1, _, h3, h4⟩ := CodeTree.heldIn_node.mp h
  refine ⟨q, h1, h0, ?_, ?_⟩ <;> cases b <;> simp_all [childOf]

theorem CodeTree.paths_node {n : Idx} {l r : CodeTree} {p : List Bool} {x : Sym} (h : (p,
    x) ∈ (CodeTree.node n l r).paths) :
    ∃ b p', p = b :: p' ∧ (p', x) ∈ (if b then r else l).paths := by
  simp only [CodeTree.paths, List.mem_append, List.mem_map, Prod.mk.injEq] at h
  rcases h with ⟨⟨p', x'⟩, h1, h2, h3⟩ | ⟨⟨p', x'⟩, h1, h2, h3⟩
  · exact ⟨false, p', h2.symm, by simp only at h3; subst h3; simpa using h1⟩
  · exact ⟨true, p', h2.symm, by simp only at h3; subst h3; simpa using h1⟩

theorem holdsBits_cons {m : Memory Byte} {j : Nat} {b : Bool} {bs : List Bool} (h : holdsBits m j (b :: bs)) :
    bitAt m j = some b ∧ holdsBits m (j + 1) bs := by
  have := holdsBits_append.mp (show holdsBits m j ([b] ++ bs) from h)
  exact ⟨by simpa using this.1 0 b rfl, this.2⟩

/-- The bits of a path that ends above a leaf move the cursor, and emit nothing. -/
theorem drive_prefix (t : CodeTree) (n : Nat) {s : State} {T : Operand} {q : Nat} {cut rest : List Bool} {x : Sym}
    (hw : Walking s T t.index q) (hh : t.heldIn s = true) (hp : (cut ++ rest, x) ∈ t.paths) (hr : rest ≠ [])
    (hb : holdsBits s.plb q cut) (hq : q + cut.length ≤ 8 * s.plLen.toNat)
    (hcap : s.plLen.toNat ≤ s.cfg.plCap.toNat) :
    ∃ u cur, drive bitStep (n + cut.length) s = drive bitStep n u ∧ Walking u T cur (q + cut.length) ∧
      u = { s with plRpos := u.plRpos, act := u.act } := by
  induction t generalizing s q cut with
  | leaf i y =>
    simp only [CodeTree.paths, List.mem_singleton, Prod.mk.injEq, List.append_eq_nil_iff] at hp
    exact absurd hp.1.2 hr
  | node i l r hl hr' =>
    cases cut with
    | nil => exact ⟨s, i, rfl, hw, rfl⟩
    | cons b cut =>
      obtain ⟨b', p', he, hp'⟩ := CodeTree.paths_node hp
      simp only [List.cons_append, List.cons.injEq] at he
      obtain ⟨rfl, rfl⟩ := he
      obtain ⟨hb0, hb1⟩ := holdsBits_cons hb
      simp only [List.length_cons] at hq ⊢
      obtain ⟨byte, k, u, e1, e2, e3, e4, e5⟩ := bitStep_bit hw hb0 (by omega) hcap
      obtain ⟨rec, c1, c2, c3, c4⟩ := CodeTree.child hh b
      have hcfg : u.cfg = s.cfg := by rw [e2]
      have hnm : u.nm = s.nm := by rw [e2]
      have hplb : u.plb = s.plb := by rw [e2]
      -- the child is internal, since its path goes on
      have hint : ∃ j l' r', (if b then r else l) = CodeTree.node j l' r' := by
        cases ht : (if b then r else l) with
        | node j l' r' => exact ⟨j, l', r', rfl⟩
        | leaf j y =>
          rw [ht] at hp'
          simp only [CodeTree.paths, List.mem_singleton, Prod.mk.injEq, List.append_eq_nil_iff] at hp'
          exact absurd hp'.1.2 hr
      obtain ⟨j, l', r', hj⟩ := hint
      have c4' := c4
      rw [hj] at c4'
      obtain ⟨d0, -, -, rc, d1, d2, -⟩ := CodeTree.heldIn_node.mp c4'
      have hci : childOf b rec = j := by rw [c3, hj]; rfl
      have hstep : bitStep s = .next { u with act := .walking T (childOf b rec) byte k } := by
        rw [e1, walkTo_internal (r := rec) (rc := rc) (by rw [hcfg]; exact c2) (by rw [hnm]; exact c1)
          (by rw [hcfg, hci]; exact d0) (by rw [hnm, hci]; exact d1) d2]
        rfl
      let v : State := { u with act := .walking T (childOf b rec) byte k }
      have hv : v = { s with plRpos := v.plRpos, act := v.act } := by
        show ({ u with act := .walking T (childOf b rec) byte k } : State) = _
        rw [e2]
      have hwv : Walking v T (if b then r else l).index (q + 1) := by
        refine ⟨byte, k, ?_, e3, e4, e5⟩
        show Activity.walking T (childOf b rec) byte k = _
        rw [c3]
      have hhv : (if b then r else l).heldIn v = true :=
        (CodeTree.heldIn_congr (s := s) (u := v) _ (by rw [hv]) fun _ _ => by rw [hv]).trans c4
      have key : ∃ w cur, drive bitStep (n + cut.length) v = drive bitStep n w ∧ Walking w T cur (q + 1 + cut.length) ∧
          w = { v with plRpos := w.plRpos, act := w.act } := by
        have hbv : holdsBits v.plb (q + 1) cut := by rw [hv]; exact hb1
        have hqv : q + 1 + cut.length ≤ 8 * v.plLen.toNat := by rw [hv]; show _ ≤ 8 * s.plLen.toNat; omega
        have hcv : v.plLen.toNat ≤ v.cfg.plCap.toNat := by rw [hv]; exact hcap
        cases b with
        | false => exact hl hwv hhv hp' hbv hqv hcv
        | true => exact hr' hwv hhv hp' hbv hqv hcv
      obtain ⟨w, cur, g1, g2, g3⟩ := key
      refine ⟨w, cur, ?_, ?_, ?_⟩
      · rw [show n + (cut.length + 1) = (n + cut.length) + 1 by omega, drive_flight _ _ hw.inFlight, hstep,
          andThen_next, g1]
      · rw [show q + (cut.length + 1) = q + 1 + cut.length by omega]; exact g2
      · rw [g3, hv]

/-- The bits of one whole path emit its leaf's symbol (R202). -/
theorem drive_path (t : CodeTree) (n : Nat) {s : State} {T : Operand} {q : Nat} {p : List Bool} {x : Sym}
    (hw : Walking s T t.index q) (hh : t.heldIn s = true) (hp : (p, x) ∈ t.paths) (hne : p ≠ [])
    (hb : holdsBits s.plb q p) (hq : q + p.length ≤ 8 * s.plLen.toNat)
    (hcap : s.plLen.toNat ≤ s.cfg.plCap.toNat) (hsy : s.syLen.toNat < s.cfg.syCap.toNat) :
    ∃ u, drive bitStep (n + p.length) s = drive bitStep n u ∧ Emitted s T [x] (q + p.length) u := by
  induction t generalizing s q p with
  | leaf i y =>
    simp only [CodeTree.paths, List.mem_singleton, Prod.mk.injEq] at hp
    exact absurd hp.1 hne
  | node i l r hl hr =>
    obtain ⟨b, p', rfl, hp'⟩ := CodeTree.paths_node hp
    obtain ⟨hb0, hb1⟩ := holdsBits_cons hb
    simp only [List.length_cons] at hq ⊢
    obtain ⟨byte, k, u, e1, e2, e3, e4, e5⟩ := bitStep_bit hw hb0 (by omega) hcap
    obtain ⟨rec, c1, c2, c3, c4⟩ := CodeTree.child hh b
    have hcfg : u.cfg = s.cfg := by rw [e2]
    have hnm : u.nm = s.nm := by rw [e2]
    have hsyl : u.syLen = s.syLen := by rw [e2]
    cases hct : (if b then r else l) with
    | leaf j y =>
      rw [hct] at c3 c4 hp'
      simp only [CodeTree.paths, List.mem_singleton, Prod.mk.injEq] at hp'
      obtain ⟨rfl, rfl⟩ := hp'
      have hci : childOf b rec = j := c3
      obtain ⟨d0, rc, d1, d2, d3⟩ := CodeTree.heldIn_leaf.mp c4
      have hstep := walkTo_leaf (T := T) (byte := byte) (k := k) (right := b) (s := u) (r := rec) (rc := rc)
        (by rw [hcfg]; exact c2) (by rw [hnm]; exact c1) (by rw [hcfg, hci]; exact d0) (by rw [hnm, hci]; exact d1) d2
        (by rw [hcfg, hsyl]; exact hsy)
      have hlen : (s.syLen + 1#32).toNat = s.syLen.toNat + 1 := toNat_add_one hsy cap_le
      simp only [List.length_nil, Nat.zero_add]
      rw [drive_flight _ _ hw.inFlight, e1, show (CodeTree.node i l r).index = i from rfl, hstep, Run.finish_ok,
        andThen_next]
      refine ⟨_, rfl, ?_⟩
      rw [d3, hsyl]
      have hsyb : u.syb = s.syb := by rw [e2]
      have hroot : u.root = s.root := by rw [e2]
      have hstat : u.status = s.status := by rw [e2]
      rw [hsyb, hroot]
      have hnew : holdsAt (s.syb.write s.syLen.toNat x) s.syLen.toNat [x] :=
        holdsAt_cons.mpr ⟨Memory.read_write_same _ _ _, holdsAt_nil _ _⟩
      have hrp : u.plRpos.toNat = bytesFor (q + 1) := by unfold bytesFor; omega
      split
      · rename_i ht
        refine ⟨?_, hlen, hnew, sameOutside_write _ _ _, hrp, fun _ => ⟨rfl, ?_⟩, fun h => absurd ?_ h⟩
        · rw [e2]; rfl
        · show statusEnded u.status = _
          rw [hstat]
        · show (s.syLen + 1#32).toNat = T.toNat
          rw [hlen]; exact ht
      · rename_i ht
        refine ⟨?_, hlen, hnew, sameOutside_write _ _ _, hrp, fun h => absurd ?_ ht, fun _ => ⟨⟨byte, k, rfl, e3,
          e4, e5⟩, hstat⟩⟩
        · rw [e2]
        · have h' : (s.syLen + 1#32).toNat = T.toNat := h
          rw [← hlen]; exact h'
    | node j l' r' =>
      have hci : childOf b rec = j := by rw [c3, hct]; rfl
      have hp'' := hp'
      rw [hct] at hp''
      obtain ⟨b2, p2, rfl, -⟩ := CodeTree.paths_node hp''
      have c4' := c4
      rw [hct] at c4'
      obtain ⟨d0, -, -, rc, d1, d2, -⟩ := CodeTree.heldIn_node.mp c4'
      have hstep : bitStep s = .next { u with act := .walking T (childOf b rec) byte k } := by
        rw [e1, walkTo_internal (r := rec) (rc := rc) (by rw [hcfg]; exact c2) (by rw [hnm]; exact c1)
          (by rw [hcfg, hci]; exact d0) (by rw [hnm, hci]; exact d1) d2]
        rfl
      let v : State := { u with act := .walking T (childOf b rec) byte k }
      have hv : v = { s with plRpos := v.plRpos, act := v.act } := by
        show ({ u with act := .walking T (childOf b rec) byte k } : State) = _
        rw [e2]
      have hwv : Walking v T (if b then r else l).index (q + 1) := by
        refine ⟨byte, k, ?_, e3, e4, e5⟩
        show Activity.walking T (childOf b rec) byte k = _
        rw [c3]
      have hhv : (if b then r else l).heldIn v = true :=
        (CodeTree.heldIn_congr (s := s) (u := v) _ (by rw [hv]) fun _ _ => by rw [hv]).trans c4
      have key : ∃ w, drive bitStep (n + (b2 :: p2).length) v = drive bitStep n w ∧
          Emitted v T [x] (q + 1 + (b2 :: p2).length) w := by
        have hbv : holdsBits v.plb (q + 1) (b2 :: p2) := by rw [hv]; exact hb1
        have hqv : q + 1 + (b2 :: p2).length ≤ 8 * v.plLen.toNat := by
          rw [hv]; show _ ≤ 8 * s.plLen.toNat; simp only [List.length_cons] at hq ⊢; omega
        have hcv : v.plLen.toNat ≤ v.cfg.plCap.toNat := by rw [hv]; exact hcap
        have hsv : v.syLen.toNat < v.cfg.syCap.toNat := by rw [hv]; exact hsy
        cases b with
        | false => exact hl hwv hhv hp' (by simp) hbv hqv hcv hsv
        | true => exact hr hwv hhv hp' (by simp) hbv hqv hcv hsv
      obtain ⟨w, g1, g2⟩ := key
      refine ⟨w, ?_, ?_⟩
      · rw [show n + ((b2 :: p2).length + 1) = (n + (b2 :: p2).length) + 1 by omega, drive_flight _ _ hw.inFlight,
          hstep, andThen_next, g1]
      · rw [show q + ((b2 :: p2).length + 1) = q + 1 + (b2 :: p2).length by omega]
        have hvs : v.syLen = s.syLen := by rw [hv]
        have hvb : v.syb = s.syb := by rw [hv]
        have hvr : v.root = s.root := by rw [hv]
        have hvt : v.status = s.status := by rw [hv]
        obtain ⟨f1, f2, f3, f4, f5, f6, f7⟩ := g2
        rw [hvs] at f2 f3 f4
        rw [hvb] at f4
        rw [hvt] at f6 f7
        rw [hvr] at f7
        refine ⟨?_, f2, f3, f4, f5, f6, f7⟩
        rw [f1, hv]

theorem Emitted.trans {s u w : State} {T : Operand} {xs ys : List Sym} {q q' : Nat} (h : Emitted s T xs q u)
    (h' : Emitted u T ys q' w) (hs : u.status = s.status) : Emitted s T (xs ++ ys) q' w where
  frame := by rw [h'.frame, h.frame]
  len := by rw [h'.len, h.len, List.length_append, Nat.add_assoc]
  new := by
    have h2 := h'.new
    have h3 := h'.rest
    rw [h.len] at h2 h3
    exact holdsAt_append.mpr ⟨holdsAt_of_outside h.new h3 (Or.inl (Nat.le_refl _)), h2⟩
  rest := by
    have h3 := h'.rest
    rw [h.len] at h3
    rw [List.length_append]
    exact sameOutside_mono (sameOutside_trans h.rest h3) (by omega) (by omega)
  rpos := h'.rpos
  ended := fun ht => by rw [← hs]; exact h'.ended ht
  goes := fun ht => by
    have := h'.goes ht
    rw [hs] at this
    rwa [show u.root = s.root by rw [h.frame]] at this

/-- The bits of many paths emit their symbols in order, as long as no more than T come out (R201, R202). -/
theorem drive_paths (t : CodeTree) (n : Nat) (picks : List (List Bool × Sym)) {s : State} {T : Operand} {q : Nat}
    (hw : Walking s T t.index q) (hroot : s.root = t.index) (hh : t.heldIn s = true) (h2 : 2 ≤ t.size)
    (hp : ∀ p ∈ picks, p ∈ t.paths) (hne : picks ≠ [])
    (hb : holdsBits s.plb q (picks.flatMap Prod.fst))
    (hq : q + (picks.flatMap Prod.fst).length ≤ 8 * s.plLen.toNat)
    (hcap : s.plLen.toNat ≤ s.cfg.plCap.toNat) (hT : s.syLen.toNat + picks.length ≤ T.toNat)
    (hTc : T.toNat ≤ s.cfg.syCap.toNat) :
    ∃ u, drive bitStep (n + (picks.flatMap Prod.fst).length) s = drive bitStep n u ∧
      Emitted s T (picks.map Prod.snd) (q + (picks.flatMap Prod.fst).length) u := by
  induction picks generalizing s q with
  | nil => exact absurd rfl hne
  | cons p picks ih =>
    obtain ⟨p, x⟩ := p
    simp only [List.flatMap_cons, List.length_append, List.length_cons, List.map_cons] at hb hq hT ⊢
    obtain ⟨hb0, hb1⟩ := holdsBits_append.mp hb
    have hpx : (p, x) ∈ t.paths := hp _ (by simp)
    have hpne : p ≠ [] := by
      cases t with
      | leaf => simp [CodeTree.size] at h2
      | node i l r => obtain ⟨b, p', rfl, -⟩ := CodeTree.paths_node hpx; simp
    obtain ⟨u, e1, e2⟩ := drive_path t (n + (picks.flatMap Prod.fst).length) hw hh hpx hpne hb0 (by omega) hcap
      (by omega)
    have e1' : drive bitStep (n + (p.length + (picks.flatMap Prod.fst).length)) s =
        drive bitStep (n + (picks.flatMap Prod.fst).length) u := by
      rw [show n + (p.length + (picks.flatMap Prod.fst).length) = n + (picks.flatMap Prod.fst).length + p.length by omega,
        e1]
    by_cases hnil : picks = []
    · subst hnil
      exact ⟨u, e1', e2⟩
    · have hlen : 1 ≤ picks.length := List.length_pos_iff.mpr hnil
      have hul : u.syLen.toNat = s.syLen.toNat + 1 := e2.len
      obtain ⟨hwu, hsu⟩ := e2.goes (by omega)
      have hf := e2.frame
      rw [hroot] at hwu
      obtain ⟨w, g1, g2⟩ := ih hwu (by rw [hf]; exact hroot)
        (by rw [← hh]; exact CodeTree.heldIn_congr (s := s) (u := u) t (by rw [hf]) fun _ _ => by rw [hf])
        (fun p hp' => hp p (by simp [hp'])) hnil (by rw [hf]; exact hb1)
        (by rw [hf]; show _ ≤ 8 * s.plLen.toNat; omega) (by rw [hf]; exact hcap) (by omega) (by rw [hf]; exact hTc)
      refine ⟨w, e1'.trans g1, ?_⟩
      rw [← Nat.add_assoc]
      exact e2.trans g2 hsu

/-- At the end of the payload the next bit raises PayloadTrunc (R201). -/
theorem bitStep_trunc {s : State} {T : Operand} {cur : Idx} (h : Walking s T cur (8 * s.plLen.toNat)) :
    bitStep s = .next (enterFault .payloadTrunc s.syLen s) := by
  obtain ⟨byte, unread, ha, h1, h2, -⟩ := h
  obtain rfl : unread = 0 := by omega
  unfold bitStep
  rw [ha]
  simp only [fetchBit, if_true]
  rw [if_pos (by omega)]; rfl

end Sys2Proof.Safety
end

