-- ==== Sys2Proof/Machine/Script.lean ====
section
/-! DEFINITION. The host's script lines and the accesses they stand for (30_encoding.md rules R120 and R121). The wait
after a command is nothing where a command is one step; the text of a line is not parsed (log 24). -/

namespace Sys2Proof.Machine

/-- A line of a script: a host action (R120), or a pseudo-instruction or directive (R121). -/
inductive ScriptLine where
  /-- `CSRW`. -/
  | csrw (n : Nat) (v : Operand)
  /-- `CSRR`. -/
  | csrr (n : Nat)
  /-- `MEMW NM[n], rec`. -/
  | memwNode (i : Nat) (r : NodeRec)
  /-- `MEMW TSB[i], b`. -/
  | memwTsb (i : Nat) (b : Byte)
  /-- `MEMW PLB[i], b`. -/
  | memwPlb (i : Nat) (b : Byte)
  /-- `MEMW SYB[i], s`. -/
  | memwSyb (i : Nat) (x : Sym)
  /-- `MEMR`. -/
  | memr (sp : Space) (i : Nat)
  /-- `NOP`, `RESET`, `PKINIT`, `TSER`, `TEND`, `TDES`: the line's opcode (R91). -/
  | command (opcode : Byte)
  /-- `PKPUT code`. -/
  | pkput (code : Operand)
  /-- `UNPACK T`. -/
  | unpack (t : Operand)
  /-- `.leaf n, sym`. -/
  | leaf (n : Nat) (x : Sym)
  /-- `.int n, l, r`. -/
  | int (n : Nat) (l r : Idx)
  /-- `.root n`. -/
  | root (n : Idx)
  /-- `.tsb b0 b1 ...`. -/
  | tsb (bs : List Byte)
  /-- `.plb b0 b1 ...`. -/
  | plb (bs : List Byte)
  deriving DecidableEq, Repr

/-- The accesses a line stands for, in order (R120, R121; register numbers of R23). -/
def ScriptLine.expand : ScriptLine → List HostAction
  | .csrw n v => [.csrWrite n v]
  | .csrr n => [.csrRead n]
  | .memwNode i r => [.writeNode i r]
  | .memwTsb i b => [.writeTsb i b]
  | .memwPlb i b => [.writePlb i b]
  | .memwSyb i x => [.writeSyb i x]
  | .memr sp i => [.memRead sp i]
  | .command b => [.csrWrite 0 (b.setWidth 64)]
  | .pkput c => [.csrWrite 4 c, .csrWrite 0 0x11#64]
  | .unpack t => [.csrWrite 4 t, .csrWrite 0 0x20#64]
  | .leaf n x => [.writeNode n { kind := .leaf, sym := x, left := Idx.none, right := Idx.none }]
  | .int n l r => [.writeNode n { kind := .internal, sym := 0#21, left := l, right := r }]
  | .root n => [.csrWrite 5 (n.setWidth 64)]
  | .tsb bs => bs.zipIdx.map (fun p => .writeTsb p.2 p.1) ++ [.csrWrite 7 (BitVec.ofNat 64 bs.length)]
  | .plb bs => bs.zipIdx.map (fun p => .writePlb p.2 p.1) ++ [.csrWrite 9 (BitVec.ofNat 64 bs.length)]

/-- The state with a script's accesses as the host's accesses to come. -/
def loadScript (lines : List ScriptLine) (s : State) : State := { s with host := lines.flatMap ScriptLine.expand }

end Sys2Proof.Machine
end

