-- ==== Sys2Proof/Tests/Slice0.lean ====
section
/-! SUPPORT. The model's own tests: well-formedness, decoding of words written out from 30_encoding.md, single steps
with the results of 95_test_vectors.md, and for every obligation with hypotheses a state that meets them. -/

namespace Sys2Proof.Tests

open Sys2Proof Sys2Proof.Machine Sys2Proof.Safety

/-! Small states. -/

def leaf (x : Nat) : NodeRec := ⟨.leaf, BitVec.ofNat 21 x, Idx.none, Idx.none⟩
def inode (l r : Nat) : NodeRec := ⟨.internal, 0#21, BitVec.ofNat 32 l, BitVec.ofNat 32 r⟩
def bytesFrom : Nat → List Nat → Memory Byte
  | _, [] => []
  | k, b :: bs => (k, BitVec.ofNat 8 b) :: bytesFrom (k + 1) bs

/-- Capacities for boundary cases: NN, TS_CAP, PL_CAP, SY_CAP. -/
def caps (nn ts pl sy : Nat) : Config := ⟨BitVec.ofNat 32 nn, BitVec.ofNat 32 ts, BitVec.ofNat 32 pl,
    BitVec.ofNat 32 sy⟩

/-- A tree in NM. -/
def inNm (m : Memory NodeRec) (root : Nat) (s : State) : State := { s with nm := m, root := BitVec.ofNat 32 root }
/-- Bytes in TSB, with TS_LEN. -/
def inTsb (bs : List Nat) (s : State) : State := { s with tsb := bytesFrom 0 bs, tsLen := BitVec.ofNat 32 bs.length }
/-- Bytes in PLB, with PL_LEN. -/
def inPlb (bs : List Nat) (s : State) : State := { s with plb := bytesFrom 0 bs, plLen := BitVec.ofNat 32 bs.length }
/-- ARG. -/
def withArg (v : Nat) (s : State) : State := { s with arg := BitVec.ofNat 64 v }
/-- The host's accesses to come. -/
def withHost (as : List HostAction) (s : State) : State := { s with host := as }

/-- Tree T-AB of 95_test_vectors.md, section 2. -/
def treeAB : CodeTree := .node 0#32 (.leaf 1#32 0x61#21) (.leaf 2#32 0x62#21)
def sAB : State := inNm [(0, inode 1 2), (1, leaf 0x61), (2, leaf 0x62)] 0 State.reset
/-- Tree T-Z: one leaf, and no internal node. -/
def sZ : State := inNm [(0, leaf 0x7A)] 0 State.reset
/-- The shared leaf of V-TS1: `0: I(1,1), 1: L('a')`. -/
def treeShared : CodeTree := .node 0#32 (.leaf 1#32 0x61#21) (.leaf 1#32 0x61#21)
def sShared : State := inNm [(0, inode 1 1), (1, leaf 0x61)] 0 State.reset
/-- The faulted state that an opcode 0x12 leaves (V-SY4). -/
def sFault : State := enterFault .cmdIllegal 0x12#32 State.reset
/-- A TDES in flight, at byte `p` with `n` tokens stored. -/
def sTok (p n : Nat) (s : State) : State := { s with status := 0b01#2, act := .tokenising p n }
/-- An UNPACK in flight with `t` symbols to put out, its cursor on node 0. -/
def sWalk (t : Nat) (byte : Byte) (k : Nat) (s : State) : State :=
  { s with status := 0b01#2, act := .walking (BitVec.ofNat 64 t) 0#32 byte k }

/-- What a part of the next state is, if there is a next state. -/
def after {α : Type} (o : Answer) (f : State → α) : Option α :=
  match o with
  | .next s => some (f s)
  | .fault _ => none
  | .refused _ => none

theorem next_of_after {o : Answer} {P : State → Bool} (h : after o P = some true) : ∃ t, o = .next t ∧ P t = true := by
  cases o with
  | next s => exact ⟨s, rfl, by simpa [after] using h⟩
  | fault r => simp [after] at h
  | refused r => simp [after] at h

/-! Well-formedness: one ill-formed term for each check. -/

theorem test_wf_leaf1_reserved : Instr.wellFormed (.tokLeaf1 0x01#7) = false := by decide
theorem test_wf_leaf2_overlong : Instr.wellFormed (.tokLeaf2 0x7F#11) = false := by decide
theorem test_wf_leaf3_overlong : Instr.wellFormed (.tokLeaf3 0x7FF#16) = false := by decide
theorem test_wf_leaf3_surrogate :
    Instr.wellFormed (.tokLeaf3 0xD800#16) = false ∧ Instr.wellFormed (.tokLeaf3 0xDFFF#16) = false := by decide
theorem test_wf_leaf4_overlong : Instr.wellFormed (.tokLeaf4 0xFFFF#21) = false := by decide
theorem test_wf_leaf4_beyond_unicode : Instr.wellFormed (.tokLeaf4 0x110000#21) = false := by decide
theorem test_wf_config_zero_capacity :
    (caps 0 1 1 1).wf = false ∧ (caps 1 0 1 1).wf = false ∧ (caps 1 1 0 1).wf = false ∧ (caps 1 1 1 0).wf = false := by
  decide
theorem test_wf_memory_order :
    Memory.wf 4 [(1, 0#8), (1, 0#8)] = false ∧ Memory.wf 4 [(4, 0#8)] = false ∧ Memory.wf 4 [(0, 0#8), (3,
      1#8)] = true := by
  decide

/-! Decoding: every constructor's word, written out from R91, R101 to R103, R111 and the symbols of V-U1. -/

theorem test_decode_commands :
    decode (.command 0b00000000#8) = .ok .nop ∧ decode (.command 0b00000001#8) = .ok .reset ∧
    decode (.command 0b00010000#8) = .ok .pkinit ∧ decode (.command 0b00010001#8) = .ok .pkput ∧
    decode (.command 0b00100000#8) = .ok .unpack ∧ decode (.command 0b00110000#8) = .ok .tser ∧
    decode (.command 0b00110001#8) = .ok .tend ∧ decode (.command 0b01000000#8) = .ok .tdes := ⟨rfl, rfl, rfl, rfl,
      rfl, rfl, rfl, rfl⟩
theorem test_decode_end : decode (.token [0b00000000#8]) = .ok .tokEnd := rfl
theorem test_decode_internal : decode (.token [0b00000001#8]) = .ok .tokInternal := rfl
theorem test_decode_leaf1 : decode (.token [0b01111111#8]) = .ok (.tokLeaf1 0x7F#7) := rfl
theorem test_decode_leaf2 : decode (.token [0b11000011#8, 0b10101001#8]) = .ok (.tokLeaf2 0xE9#11) := rfl
theorem test_decode_leaf3 :
    decode (.token [0b11100010#8, 0b10000010#8, 0b10101100#8]) = .ok (.tokLeaf3 0x20AC#16) := rfl
theorem test_decode_leaf4 :
    decode (.token [0b11110000#8, 0b10011111#8, 0b10011000#8, 0b10000000#8]) = .ok (.tokLeaf4 0x1F600#21) := rfl
theorem test_decode_bits : decode (.bit false) = .ok .bitLeft ∧ decode (.bit true) = .ok .bitRight := ⟨rfl, rfl⟩
/-- R93, R105, R107: what is no instruction (V-SY3, V-U3). -/
theorem test_decode_rejects :
    decode (.command 0x12#8) = .error .illegalOpcode ∧ decode (.token [0x80#8]) = .error .badLead ∧
    decode (.token [0xC1#8, 0x81#8]) = .error .badLead ∧ decode (.token [0xF5#8]) = .error .badLead ∧
    decode (.token [0xC3#8, 0x41#8]) = .error .badContinuation ∧ decode (.token [0xC3#8]) = .error .truncated ∧
    decode (.token [0x61#8, 0x62#8]) = .error .trailing ∧ decode (.token []) = .error .noByte :=
  ⟨rfl, rfl, rfl, rfl, rfl, rfl, rfl, rfl⟩
/-- Words in the opcode table's own numbering, the encoding column read as one number, and one with its first byte low
(log 8). -/
theorem test_decode_table :
    decodeTableWord 8 0x11 = some .pkput ∧ decodeTableWord 8 0x61 = some (.tokLeaf1 0x61#7) ∧
    decodeTableWord 16 0xC3A9 = some (.tokLeaf2 0xE9#11) ∧ decodeTableWord 24 0xE282AC = some (.tokLeaf3 0x20AC#16) ∧
    decodeTableWord 32 0xF09F9880 = some (.tokLeaf4 0x1F600#21) ∧ decodeTableWord 1 1 = some .bitRight ∧
    decodeTableWord 16 0xA9C3 = some (.tokLeaf2 0xE9#11) ∧ decodeTableWord 16 0xC080 = none ∧
    decodeTableWord 8 0x80 = none := by decide
/-- A placed word is what the next step runs: a leaf's record, PKPUT of ARG = 0, and a bit with no child to go to
that is a leaf. -/
theorem test_fetch_word :
    after (step (State.reset.withFetchWord 16 0xC3A9)) (fun t => t.nm.read 0) = some (some (leaf 0xE9)) ∧
    after (step (State.reset.withFetchWord 8 0x11)) (fun t => (t.cause, t.info)) = some (2#8, 0#32) ∧
    after (step (State.reset.withFetchWord 1 1)) (fun t => t.act) = some (.walking 1#64 0#32 0x80#8 7) := by decide

/-! Single commands, with the results of 95_test_vectors.md. -/

/-- V-SY2. -/
theorem test_nop : exec .nop sAB = .next sAB := rfl
/-- V-SY4: RESET leaves the faulted state. -/
theorem test_reset : after (exec .reset sFault) (fun t => (t.status, t.cause, t.info, t.root, t.tsLen)) =
    some (0b00#2, 0#8, 0#32, 0xFFFFFFFF#32, 0#32) := by decide
/-- V-PK6. -/
theorem test_pkinit : after (exec .pkinit { inPlb [0xB6, 0xCE] State.reset with free := 1#3 })
    (fun t => (t.plLen, t.free)) = some (0#32, 0#3) := by decide
/-- V-PK2, step 3: five data bits split across a byte boundary. -/
theorem test_pkput_splits : after (exec .pkput (withArg 0b101101 { inPlb [0xB4] State.reset with free := 2#3 }))
    (fun t => (t.plb, t.plLen, t.free)) = some ([(0, 0xB6#8), (1, 0xC0#8)], 2#32, 5#3) := by decide
/-- V-PK5: one bit too many for PL_CAP = 1. -/
theorem test_pkput_overflow : after (exec .pkput (withArg 0x3FF { State.reset with cfg := caps 1 1 1 1 }))
    (fun t => (t.status, t.cause, t.info)) = some (0b10#2, 3#8, 2#32) := by decide
/-- V-TS1, T-AB with NN = 3 and TS_CAP = 3. -/
theorem test_tser : after (exec .tser { sAB with cfg := caps 3 3 1 1 }) (fun t => (t.tsb, t.tsLen)) =
    some ([(0, 0x01#8), (1, 0x61#8), (2, 0x62#8)], 3#32) := by decide
/-- V-TS2: a cycle is caught by the visit bound. -/
theorem test_tser_cycle : after (exec .tser (inNm [(0, inode 0 0)] 0 { State.reset with cfg := caps 4 16 1 1 }))
    (fun t => (t.status, t.cause, t.info)) = some (0b10#2, 9#8, 0#32) := by decide
/-- V-TS1: the terminator after T-Z's stream. -/
theorem test_tend : after (exec .tend (inTsb [0x7A] State.reset)) (fun t => (t.tsb, t.tsLen)) =
    some ([(0, 0x7A#8), (1, 0x00#8)], 2#32) := by decide
/-- V-TS2: TS_LEN = TS_CAP. -/
theorem test_tend_full : after (exec .tend (inTsb [0x7A] { State.reset with cfg := caps 1 1 1 1 }))
    (fun t => (t.status, t.cause, t.info)) = some (0b10#2, 3#8, 1#32) := by decide
/-- V-TD1: `01 61 62 00`, NN = 3. -/
theorem test_tdes : after (exec .tdes (inTsb [0x01, 0x61, 0x62, 0x00] { State.reset with cfg := caps 3 9 1 1 }))
    (fun t => (t.nm, t.root, t.nodeCnt, t.tsRpos)) = some (sAB.nm, 0#32, 3#32, 4#32) := by decide
/-- V-TD2: NodeOverflow before Utf8Malformed on the same token. -/
theorem test_tdes_overflow :
    after (exec .tdes (inTsb [0x01, 0x61, 0x62, 0xFF, 0x00] { State.reset with cfg := caps 3 9 1 1 }))
      (fun t => (t.status, t.cause, t.info)) = some (0b10#2, 6#8, 3#32) := by decide
/-- V-UN1: T-AB, payload `60`, T = 3. -/
theorem test_unpack : after (exec .unpack (withArg 3 (inPlb [0x60] sAB))) (fun t => (t.syb, t.syLen, t.plRpos)) =
    some ([(0, 0x61#21), (1, 0x62#21), (2, 0x62#21)], 3#32, 1#32) := by decide
/-- V-UN2: T-AB, payload `60`, T = 9. -/
theorem test_unpack_truncated : after (exec .unpack (withArg 9 (inPlb [0x60] sAB)))
    (fun t => (t.status, t.cause, t.info)) = some (0b10#2, 10#8, 8#32) := by decide

/-! Single tokens and payload bits. -/

/-- V-TD1, row `7A 00`, at its END. -/
theorem test_end : after (exec .tokEnd (sTok 1 1 sZ)) (fun t => (t.status, t.root, t.nodeCnt, t.tsRpos)) =
    some (0b00#2, 0#32, 1#32, 2#32) := by decide
/-- V-TD2, row `01 61 00`, at its END: corner case (e). -/
theorem test_end_short :
    after (exec .tokEnd (sTok 2 2 (inNm [(0, inode 0xFFFFFFFF 0xFFFFFFFF), (1, leaf 0x61)] 0 State.reset)))
      (fun t => (t.cause, t.info)) = some (7#8, 2#32) := by decide
/-- R151: an INTERNAL token's record. -/
theorem test_internal : after (exec .tokInternal (sTok 0 0 State.reset)) (fun t => (t.nm, t.act)) =
    some ([(0, inode 0xFFFFFFFF 0xFFFFFFFF)], .tokenising 1 1) := by decide
/-- V-TD2, row `01 01 61 62 63 00` with NN = 3, at its fourth token. -/
theorem test_leaf1_overflow : after (exec (.tokLeaf1 0x63#7) (sTok 3 3 { State.reset with cfg := caps 3 9 1 1 }))
    (fun t => (t.cause, t.info)) = some (6#8, 3#32) := by decide
/-- V-U2: 0x61 takes one byte. -/
theorem test_leaf1 : after (exec (.tokLeaf1 0x61#7) (sTok 0 0 State.reset)) (fun t => (t.nm, t.act)) =
    some ([(0, leaf 0x61)], .tokenising 1 1) := by decide
/-- V-U2: U+0080, the lowest of its form. -/
theorem test_leaf2 : after (exec (.tokLeaf2 0x80#11) (sTok 0 0 State.reset)) (fun t => (t.nm, t.act)) =
    some ([(0, leaf 0x80)], .tokenising 2 1) := by decide
/-- V-U2: U+E000, the first after the surrogates. -/
theorem test_leaf3 : after (exec (.tokLeaf3 0xE000#16) (sTok 0 0 State.reset)) (fun t => (t.nm, t.act)) =
    some ([(0, leaf 0xE000)], .tokenising 3 1) := by decide
/-- V-U3, row `ED A0 80 00`: a surrogate. -/
theorem test_leaf3_surrogate : after (exec (.tokLeaf3 0xD800#16) (sTok 0 0 State.reset))
    (fun t => (t.cause, t.info)) = some (5#8, 0#32) := by decide
/-- V-U2: U+10FFFF, the highest. -/
theorem test_leaf4 : after (exec (.tokLeaf4 0x10FFFF#21) (sTok 0 0 State.reset)) (fun t => (t.nm, t.act)) =
    some ([(0, leaf 0x10FFFF)], .tokenising 4 1) := by decide
/-- V-U3, row `F4 90 80 80 00`: beyond Unicode. -/
theorem test_leaf4_beyond : after (exec (.tokLeaf4 0x110000#21) (sTok 0 0 State.reset))
    (fun t => (t.cause, t.info)) = some (5#8, 0#32) := by decide
/-- R201's example, first bit: left to 'a', and the cursor returns to ROOT. -/
theorem test_left : after (exec .bitLeft (sWalk 3 0x60#8 8 sAB)) (fun t => (t.syb, t.act)) =
    some ([(0, 0x61#21)], .walking 3#64 0#32 0x60#8 7) := by decide
/-- The same, with T = 1 and a 1 bit: right to 'b', and UNPACK ends. -/
theorem test_right : after (exec .bitRight (sWalk 1 0x80#8 8 sAB)) (fun t => (t.syb, t.act, t.status)) =
    some ([(0, 0x62#21)], .idle, 0b00#2) := by decide
/-- V-UN2, T-H with payload `80`: the missing right child. -/
theorem test_right_missing :
    after (exec .bitRight (sWalk 1 0x80#8 8 (inNm [(0, inode 1 0xFFFFFFFF), (1, leaf 0x61)] 0 State.reset)))
      (fun t => (t.cause, t.info)) = some (9#8, 0#32) := by decide

/-! The host's accesses. -/

/-- V-SY1: ROOT, CMD and a number that is no register. -/
theorem test_csr_read :
    after (step (withHost [.csrRead 5] State.reset)) State.seen = some [.csr 0xFFFFFFFF#64] ∧
    after (step (withHost [.csrRead 0] State.reset)) State.seen = some [.csr 0#64] ∧
    after (step (withHost [.csrRead 255] State.reset)) State.seen = some [.csr 0#64] := by decide
/-- R37: a number that is no register reads 0 in the faulted state too. -/
theorem test_csr_read_faulted :
    after (step (withHost [.csrRead 13] sFault)) State.seen = some [.csr 0#64] ∧
    after (step (withHost [.csrRead 2] sFault)) State.seen = some [.csr 1#64] := by decide
/-- R67: there is no entry at the capacity, in the faulted state either. -/
theorem test_mem_read_faulted :
    after (step (withHost [.memRead .plb 65536] sFault)) State.seen = some [.byte 0#8] := by decide
/-- R233: in the faulted state 0x01 is RESET and 0x101 is ignored. -/
theorem test_cmd_write_faulted :
    after (step (withHost [.csrWrite 0 0x101#64] sFault)) (fun t => (t.status, t.cause)) = some (0b10#2, 1#8) ∧
    after (step (withHost [.csrWrite 0 0x01#64] sFault)) (fun t => (t.status, t.cause)) = some (0b00#2, 0#8) := by
  decide
/-- V-SY5: saturated and ignored writes. -/
theorem test_csr_write :
    after (step (withHost [.csrWrite 7 0xFFFFFFFF#64] State.reset)) State.tsLen = some 16384#32 ∧
    after (step (withHost [.csrWrite 6 5#64] State.reset)) State.free = some 0#3 ∧
    after (step (withHost [.memRead .tsb 16384] State.reset)) State.seen = some [.byte 0#8] := by decide
/-- V-SY3: 0x111 is truncated to 0x11 and starts PKPUT; 0xFF is no opcode. -/
theorem test_cmd_write :
    after (step (withHost [.csrWrite 0 0x111#64] (withArg 0b11 State.reset))) State.plb = some [(0, 0x80#8)] ∧
    after (step (withHost [.csrWrite 0 0xFF#64] State.reset)) (fun t => (t.cause, t.info)) = some (1#8, 0xFF#32) := by
  decide

/-- 95_test_vectors.md, section 2: L('a') and I(1,4) as words. -/
theorem test_node_words :
    nodeWords (leaf 0x61) = [0x00000061#32, 0xFFFFFFFF#32, 0xFFFFFFFF#32] ∧
    nodeWords (inode 1 4) = [0x80000000#32, 0x00000001#32, 0x00000004#32] := by decide
/-- P2's second load, `.plb 37 80`. -/
theorem test_script_plb :
    ScriptLine.expand (.plb [0x37#8, 0x80#8]) = [.writePlb 0 0x37#8, .writePlb 1 0x80#8, .csrWrite 9 2#64] := by decide
/-- P1's line 12, `PKPUT 0b111`. -/
theorem test_script_pkput : ScriptLine.expand (.pkput 0b111#64) = [.csrWrite 4 7#64, .csrWrite 0 0x11#64] := by decide

/-! Witnesses: for every obligation with hypotheses, states and operands that meet them, one for each clause, at the
boundary values of the clause's ranges. -/

def holdsCheck {α : Type} [DecidableEq α] : Memory α → Nat → List α → Bool
  | _, _, [] => true
  | m, i, v :: vs => m.read i = some v && holdsCheck m (i + 1) vs

theorem holds_of_check {α : Type} [DecidableEq α] {m : Memory α} {i : Nat} {vs : List α}
    (h : holdsCheck m i vs = true) : holdsAt m i vs := by
  induction vs generalizing i with
  | nil => exact holdsAt_nil m i
  | cons v vs ih =>
    simp only [holdsCheck, Bool.and_eq_true, decide_eq_true_eq] at h
    exact holdsAt_cons.mpr ⟨h.1, ih h.2⟩

def bitsCheck : Memory Byte → Nat → List Bool → Bool
  | _, _, [] => true
  | m, j, b :: bs => bitAt m j = some b && bitsCheck m (j + 1) bs

theorem bits_of_check {m : Memory Byte} {j : Nat} {bs : List Bool} (h : bitsCheck m j bs = true) :
    holdsBits m j bs := by
  induction bs generalizing j with
  | nil => exact holdsBits_nil m j
  | cons b bs ih =>
    simp only [bitsCheck, Bool.and_eq_true, decide_eq_true_eq] at h
    intro k c hk
    cases k with
    | zero => simpa [← hk] using h.1
    | succ k =>
      have := ih h.2 k c (by simpa using hk)
      rwa [Nat.add_assoc, Nat.add_comm 1 k] at this

theorem forall_of_check {α : Type} {l : List α} {P : α → Prop} [DecidablePred P]
    (h : (l.all fun x => decide (P x)) = true) : ∀ x, x ∈ l → P x := by
  simpa [List.all_eq_true] using h

def tokCheck : Tok → Bool
  | .internal => true
  | .leaf x => isScalar x && !isReserved x

theorem toks_of_check {ts : List Tok} (h : ts.all tokCheck = true) : ∀ k, k ∈ ts → k.streamable := by
  intro k hk
  have := List.all_eq_true.mp h k hk
  cases k with
  | internal => trivial
  | leaf x => simpa [tokCheck, Tok.streamable] using this

theorem waits_of_none {s : State} (h : s.host = []) : hostWaits s := by simp [hostWaits, h]

def invCheck (s : State) : Bool :=
  s.cfg.wf && Memory.wf s.cfg.nn.toNat s.nm && Memory.wf s.cfg.tsCap.toNat s.tsb &&
  Memory.wf s.cfg.plCap.toNat s.plb && Memory.wf s.cfg.syCap.toNat s.syb &&
  s.tsLen.toNat ≤ s.cfg.tsCap.toNat && s.tsRpos.toNat ≤ s.cfg.tsCap.toNat &&
  s.plLen.toNat ≤ s.cfg.plCap.toNat && s.plRpos.toNat ≤ s.cfg.plCap.toNat &&
  s.syLen.toNat ≤ s.cfg.syCap.toNat && s.nodeCnt.toNat ≤ s.cfg.nn.toNat &&
  (s.free = 0#3 || 1 ≤ s.plLen.toNat && (s.plb.read (s.plLen.toNat - 1)).isSome) &&
  s.status = 0b00#2 && s.cause = 0#8 && s.info = 0#32 && s.act = .idle

theorem inv_of_check {s : State} (h : invCheck s = true) : Inv s := by
  simp only [invCheck, Bool.and_eq_true, Bool.or_eq_true, decide_eq_true_eq] at h
  obtain ⟨⟨⟨⟨⟨⟨⟨⟨⟨⟨⟨⟨⟨⟨⟨hc, h1⟩, h2⟩, h3⟩, h4⟩, l1⟩, l2⟩, l3⟩, l4⟩, l5⟩, l6⟩, hcar⟩, hst⟩, hca⟩, hin⟩, hact⟩ := h
  refine ⟨hc, ⟨h1, h2, h3, h4⟩, ⟨?_, ?_, fun _ => ⟨hca, hin⟩, ?_⟩, fun _ => ⟨l1, l2, l3, l4, l5, l6⟩,
    fun _ hf => hcar.resolve_left hf, ?_⟩
  · simp [State.busy, State.inFlight, hst, hact]
  · simp [State.busy, hst]
  · simp [State.faulted, hst]
  · simp [scratchOk, hact]

theorem inv_reset : Inv State.reset := inv_of_check (by decide +kernel)
theorem idle_reset : idle State.reset := ⟨rfl, rfl⟩

theorem inv_fault : Inv sFault := by
  refine ⟨by decide +kernel, ⟨rfl, rfl, rfl, rfl⟩, ⟨by decide +kernel, by decide +kernel, fun h => ?_, fun _ => ?_⟩,
    fun h => ?_, fun h => ?_,
    trivial⟩
  · exact absurd h (by decide +kernel)
  · exact ⟨by decide +kernel, by decide +kernel, rfl, rfl, rfl, rfl⟩
  · exact absurd h (by decide +kernel)
  · exact absurd h (by decide +kernel)

/-! Reset and what a step runs. -/

theorem witness_ResetCommandRestoresResetState :
    (State.reset.busy = false ∨ State.reset.faulted = true) ∧ (sFault.busy = false ∨ sFault.faulted = true) :=
      by decide +kernel
theorem witness_HardwareResetAtAnyTime :
    (withHost [.hwReset] (sTok 1 1 sZ)).host = .hwReset :: [] ∧ (withHost [.hwReset] sFault).host = .hwReset :: [] :=
  ⟨rfl, rfl⟩
def s1 : State := withHost [.csrWrite 0 0x140#64] State.reset
def s1a : State := withHost [.csrWrite 0 0x40#64] sFault
theorem witness_StepRunsWrittenCommand :
    (s1.act = .idle ∧ s1.host = .csrWrite 0 0x140#64 :: [] ∧ s1.faulted = false ∧
      decode (.command ((0x140#64 : Operand).setWidth 8)) = .ok .tdes) ∧
    (s1a.act = .idle ∧ s1a.host = .csrWrite 0 0x40#64 :: [] ∧ s1a.faulted = true ∧ (0x40#64 : Operand).toNat < 256 ∧
      decode (.command ((0x40#64 : Operand).setWidth 8)) = .ok .tdes) :=
  ⟨⟨rfl, rfl, by decide +kernel, rfl⟩, rfl, rfl, by decide +kernel, by decide +kernel, rfl⟩
def s2 : State := sTok 0 0 (inTsb [0x61] State.reset)
def s2a : State := sTok 0 4096 (inTsb [0x00] State.reset)
/-- A token below NN, and END with NN tokens stored. -/
theorem witness_StepRunsNextToken :
    (s2.act = .tokenising 0 0 ∧ hostWaits s2 ∧ streamAt s2 0 [0x61#8] ∧
      decode (.token [0x61#8]) = .ok (.tokLeaf1 0x61#7) ∧ 0 < s2.cfg.nn.toNat) ∧
    (s2a.act = .tokenising 0 4096 ∧ hostWaits s2a ∧ streamAt s2a 0 [0x00#8] ∧
      decode (.token [0x00#8]) = .ok .tokEnd ∧ s2a.cfg.nn.toNat = 4096) :=
  ⟨⟨rfl, waits_of_none rfl, ⟨holds_of_check (by decide +kernel), by decide +kernel, by decide +kernel⟩, rfl,
    by decide +kernel⟩,
    ⟨rfl, waits_of_none rfl, ⟨holds_of_check (by decide +kernel), by decide +kernel, by decide +kernel⟩, rfl,
      by decide +kernel⟩⟩
def s3 : State := sWalk 1 0x60#8 8 sAB
def s3a : State := sWalk 1 0x60#8 0 (inPlb [0x80] { sAB with cfg := caps 3 1 1 1 })
theorem witness_StepRunsNextBit :
    (s3.act = .walking 1#64 0#32 0x60#8 (7 + 1) ∧ hostWaits s3) ∧
    (s3a.act = .walking 1#64 0#32 0x60#8 0 ∧ hostWaits s3a ∧ s3a.plRpos.toNat < s3a.plLen.toNat ∧
      s3a.plLen.toNat ≤ s3a.cfg.plCap.toNat ∧ s3a.plb.read s3a.plRpos.toNat = some 0x80#8) :=
  ⟨⟨rfl, waits_of_none rfl⟩, rfl, waits_of_none rfl, by decide +kernel, by decide +kernel, by decide +kernel⟩
def s4 : State := withHost [.csrRead 1] (sTok 0 0 sZ)
theorem witness_StepWaitsAndPolls :
    (State.reset.act = .idle ∧ State.reset.host = []) ∧
    (s4.busy = true ∧ s4.faulted = false ∧ s4.host = .csrRead 1 :: []) := ⟨⟨rfl, rfl⟩, by decide +kernel,
      by decide +kernel, rfl⟩
/-- The opcodes next to the map's on either side, and 0xFF. -/
theorem witness_IllegalOpcodeRaisesCmdIllegal :
    (∀ v ∈ [0x02#64, 0x0F#64, 0x12#64, 0x41#64, 0xFF#64],
      idle (withHost [.csrWrite 0 v] State.reset) ∧
        (withHost [.csrWrite 0 v] State.reset).host = .csrWrite 0 v :: []) ∧
    (∀ v ∈ [0x02#64, 0x0F#64, 0x12#64, 0x41#64, 0xFF#64], (v.setWidth 8 : Byte) ∉ opcodes) :=
  ⟨fun _ _ => ⟨⟨rfl, rfl⟩, rfl⟩, forall_of_check (by decide +kernel)⟩

/-! The faulted state. -/

theorem host_fault (as : List HostAction) : (withHost as sFault).faulted = true := by
  show sFault.faulted = true
  decide

theorem witness_FaultedIgnoresOtherWrites :
    ∀ a ∈ [HostAction.csrWrite 0 0x55#64, .csrWrite 0 0x11#64, .csrWrite 0 0x101#64, .csrWrite 4 7#64, .writeTsb 0 1#8],
      (withHost [a] sFault).faulted = true ∧ (withHost [a] sFault).act = .idle ∧
        (withHost [a] sFault).host = a :: [] ∧ isOtherWrite a := by
  intro a ha
  refine ⟨host_fault _, rfl, rfl, ?_⟩
  simp only [List.mem_cons, List.not_mem_nil, or_false] at ha
  obtain rfl | rfl | rfl | rfl | rfl := ha <;> simp [isOtherWrite]
theorem witness_FaultedReadsOfTheHost :
    (∀ n ∈ [1, 2, 3], (withHost [.csrRead n] sFault).faulted = true ∧ (withHost [.csrRead n] sFault).act = .idle) ∧
    ((1, (0b10#2 : BitVec 2).setWidth 64) ∈
      [(1, sFault.status.setWidth 64), (2, sFault.cause.setWidth 64), (3, sFault.info.setWidth 64)]) ∧
    (∀ n ∈ [13, 255], 13 ≤ n ∧ (withHost [.csrRead n] sFault).faulted = true) ∧
    (∀ n ∈ [0, 4, 12], (n ∉ [1, 2, 3] ∧ n < 13) ∧ (withHost [.csrRead n] sFault).faulted = true) ∧
    ((withHost [.memRead .syb 65536] sFault).faulted = true ∧ (withHost [.memRead .syb 65536] sFault).act = .idle ∧
      (withHost [.memRead .syb 65536] sFault).capacity .syb ≤ 65536) ∧
    ((withHost [.memRead .syb 65535] sFault).faulted = true ∧ (withHost [.memRead .syb 65535] sFault).act = .idle ∧
      65535 < (withHost [.memRead .syb 65535] sFault).capacity .syb) := by
  refine ⟨fun _ _ => ⟨host_fault _, rfl⟩, by decide +kernel, fun n hn => ⟨?_, host_fault _⟩,
    fun n hn => ⟨?_, host_fault _⟩, ⟨host_fault _, rfl, by decide +kernel⟩, host_fault _, rfl, by decide +kernel⟩ <;>
    (revert n; decide +kernel)
def s5 : State := withHost [.csrRead 1] sFault
theorem witness_FaultedUntilReset :
    Inv s5 ∧ s5.faulted = true ∧ (∀ a, s5.host.head? = some a → ¬ isReset a) ∧ ∃ t, step s5 = .next t := by
  refine ⟨?_, by decide +kernel, by simp [s5, withHost, isReset], _, rfl⟩
  obtain ⟨h1, h2, h3, h4, h5, h6⟩ := inv_fault
  exact ⟨h1, h2, h3, h4, h5, h6⟩
def s6 : State := withHost [.csrWrite 0 0x12#64] State.reset
theorem witness_CommandsRaiseListedCauses :
    (Inv State.reset ∧ idle State.reset ∧ isCommand .pkput = true ∧
      ∃ t, exec .pkput State.reset = .next t ∧ t.faulted = true) ∧
    (idle s6 ∧ s6.host = .csrWrite 0 0x12#64 :: [] ∧ ((0x12#64 : Operand).setWidth 8 : Byte) ∉ opcodes ∧
      ∃ t, step s6 = .next t) :=
  ⟨⟨inv_reset, idle_reset, rfl, next_of_after (by decide +kernel)⟩, ⟨rfl, rfl⟩, rfl, by decide +kernel, _, rfl⟩

/-! The system commands and the packer. -/

theorem witness_NopChangesNothing : idle sAB ∧ sFault.faulted = true := ⟨⟨rfl, rfl⟩, by decide +kernel⟩
theorem witness_PkinitEmptiesPayload : idle (inPlb [0xFF] State.reset) := ⟨rfl, rfl⟩
theorem witness_PkputOfZeroAndOne :
    (idle State.reset ∧ State.reset.arg = 0#64) ∧ (idle (withArg 1 State.reset) ∧ (withArg 1 State.reset).arg = 1#64) :=
  ⟨⟨idle_reset, rfl⟩, ⟨rfl, rfl⟩, rfl⟩
def s7 : State := withArg 0x1FF { State.reset with cfg := caps 1 1 1 1 }
def s7a : State := withArg 0b101101 { inPlb [0xB4] State.reset with free := 2#3 }
/-- A byte filled exactly (V-PK5), and free bits carried over (V-PK2). -/
theorem witness_PkputAppendsDataBits :
    (idle s7 ∧ Inv s7 ∧ freeBitsZero s7 ∧ s7.arg ≠ 0#64 ∧ packedBits s7 + codeLength s7.arg = 8 * s7.cfg.plCap.toNat) ∧
    (idle s7a ∧ Inv s7a ∧ freeBitsZero s7a ∧ s7a.arg ≠ 0#64 ∧
      packedBits s7a + codeLength s7a.arg ≤ 8 * s7a.cfg.plCap.toNat) := by
  refine ⟨⟨⟨rfl, rfl⟩, inv_of_check (by decide +kernel), fun b h => absurd rfl h, by decide +kernel, by decide +kernel⟩,
    ⟨⟨rfl, rfl⟩, inv_of_check (by decide +kernel), ?_, by decide +kernel, by decide +kernel⟩⟩
  intro b _ hb i hi
  have hb' : some 0xB4#8 = some b := hb
  have hi' : i < 2 := hi
  injection hb' with hb'
  subst hb'
  interval_cases i <;> rfl
def s8 : State := withArg 0x3FF { State.reset with cfg := caps 1 1 1 1 }
theorem witness_PkputOverflowFaults :
    idle s8 ∧ Inv s8 ∧ s8.arg ≠ 0#64 ∧ 8 * s8.cfg.plCap.toNat < packedBits s8 + codeLength s8.arg :=
  ⟨⟨rfl, rfl⟩, inv_of_check (by decide +kernel), by decide +kernel, by decide +kernel⟩
def codes9 : List Operand := [0b111#64, 0b111#64, 0b100#64, 0b1#64, 0b110#64, 0b101#64]
/-- "aabcd" with T-A (V-PK4), a code word of no bits among the words. -/
theorem witness_PackedTextIsConcatenation :
    idle State.reset ∧ Inv State.reset ∧ (∀ c, c ∈ codes9 → c ≠ 0#64) ∧
      (codes9.flatMap dataBits).length ≤ 8 * State.reset.cfg.plCap.toNat :=
  ⟨idle_reset, inv_reset, forall_of_check (by decide +kernel), by decide +kernel⟩

/-! The serializer. -/

def s10 : State := { State.reset with cfg := caps 1 1 1 1 }
def s10a : State := inTsb [0x7A] s10
theorem witness_TendAppendsTerminator :
    (idle s10 ∧ s10.tsLen.toNat + 1 ≤ s10.cfg.tsCap.toNat) ∧ (idle s10a ∧
      s10a.cfg.tsCap.toNat < s10a.tsLen.toNat + 1) :=
  ⟨⟨⟨rfl, rfl⟩, by decide +kernel⟩, ⟨rfl, rfl⟩, by decide +kernel⟩
def s11 : State := { sAB with cfg := caps 3 3 1 1 }
def s11a : State := { sShared with cfg := caps 3 3 1 1 }
/-- T-AB in a TSB it fills, and the shared leaf with its three visits in NN = 3. -/
theorem witness_TserWritesPreorderStream :
    (idle s11 ∧ treeAB.heldIn s11 = true ∧ treeAB.unshared ∧ treeAB.streamable ∧ s11.root = treeAB.index ∧
      treeAB.stream.length ≤ s11.cfg.tsCap.toNat) ∧
    (idle s11a ∧ treeShared.heldIn s11a = true ∧ treeShared.size ≤ s11a.cfg.nn.toNat ∧ treeShared.streamable ∧
      s11a.root = treeShared.index ∧ treeShared.stream.length ≤ s11a.cfg.tsCap.toNat) :=
  ⟨⟨⟨rfl, rfl⟩, by decide +kernel, by unfold CodeTree.unshared; decide +kernel, forall_of_check (by decide +kernel),
    rfl, by decide +kernel⟩,
    ⟨rfl, rfl⟩, by decide +kernel, by decide +kernel, forall_of_check (by decide +kernel), rfl, by decide +kernel⟩
def s12 : State := inNm [(0, inode 1 2), (1, leaf 0x61), (2, leaf 0x00)] 0 State.reset
def t12 : CodeTree := CodeTree.node 0#32 (.leaf 1#32 0x61#21) (.leaf 2#32 0x00#21)
def s12a : State := inNm [(0, leaf 0x1FFFFF)] 0 State.reset
def t12a : CodeTree := CodeTree.leaf 0#32 0x1FFFFF#21
/-- A leaf that the stream cannot carry, met with one visit left, above a cycle: `0: I(1,0), 1: L(0xD800)`, NN = 2. -/
def s12b : State := { inNm [(0, inode 1 0), (1, leaf 0xD800)] 0 State.reset with cfg := caps 2 1 1 1 }
def p12b : Part := .node 0#32 (.stop 1#32) (.stop 0#32)
/-- V-TS2: `0: I(1,2), 1: L('a'), 2: L(0x00)`, and the largest symbol. -/
theorem witness_TserFaultsAtFirstBadLeaf :
    (idle s12 ∧ t12.heldIn s12 = true ∧ t12.unshared ∧ s12.root = t12.index ∧ t12.stream.length ≤ s12.cfg.tsCap.toNat ∧
      t12.leaves.find? (fun l => !isScalar l.2 || isReserved l.2) = some (2#32, 0x00#21)) ∧
    (idle s12a ∧ t12a.heldIn s12a = true ∧ t12a.unshared ∧ s12a.root = t12a.index ∧
      t12a.stream.length ≤ s12a.cfg.tsCap.toNat ∧
      t12a.leaves.find? (fun l => !isScalar l.2 || isReserved l.2) = some (0#32, 0x1FFFFF#21)) ∧
    (idle s12b ∧ p12b.heldIn s12b = true ∧ s12b.root = p12b.index ∧ p12b.firstStop = some 1#32 ∧
      (∀ k, k ∈ p12b.walked → k.streamable) ∧ p12b.walked.length + 1 = s12b.cfg.nn.toNat ∧
      (streamOf p12b.walked).length = s12b.cfg.tsCap.toNat ∧ s12b.nm.read 1 = some (leaf 0xD800) ∧
      (leaf 0xD800).kind = .leaf ∧ isScalar (leaf 0xD800).sym = false) :=
  ⟨⟨⟨rfl, rfl⟩, by decide +kernel, by unfold CodeTree.unshared; decide +kernel, rfl, by decide +kernel,
    by decide +kernel⟩,
    ⟨⟨rfl, rfl⟩, by decide +kernel, by unfold CodeTree.unshared; decide +kernel, rfl, by decide +kernel,
      by decide +kernel⟩,
    ⟨rfl, rfl⟩, by decide +kernel, rfl, rfl, toks_of_check (by decide +kernel), by decide +kernel, by decide +kernel,
    by decide +kernel, rfl, by decide +kernel⟩
def s13 : State := inNm [] 4096 State.reset
def s13a : State := { sAB with cfg := caps 3 2 1 1 }
/-- T-H: the right child is NONE. -/
def s13b : State := { inNm [(0, inode 1 0xFFFFFFFF), (1, leaf 0x61)] 0 State.reset with cfg := caps 2 2 1 1 }
def p13b : Part := .node 0#32 (.leaf 1#32 0x61#21) (.stop Idx.none)
/-- V-TS2's cycle `0: I(0,0)`: with NN = 4 the fifth visit is of node 0; with TS_CAP = 3 the buffer is full first. -/
def s13c (cap : Nat) : State := { inNm [(0, inode 0 0)] 0 State.reset with cfg := caps 4 cap 1 1 }
def again : Part → Part := fun p => .node 0#32 p (.stop 0#32)
def p13c : Part := again (again (again (again (.stop 0#32))))
theorem witness_TserMalformedRootAndOverflow :
    (idle s13 ∧ s13.cfg.nn.toNat ≤ s13.root.toNat ∧ s13.root ≠ Idx.none) ∧
    (idle s13a ∧ treeAB.heldIn s13a = true ∧ treeAB.unshared ∧ treeAB.streamable ∧ s13a.root = treeAB.index ∧
      s13a.cfg.tsCap.toNat < treeAB.stream.length) ∧
    (idle s13b ∧ p13b.heldIn s13b = true ∧ s13b.root = p13b.index ∧ s13b.root ≠ Idx.none ∧
      p13b.firstStop = some Idx.none ∧ (∀ k, k ∈ p13b.walked → k.streamable) ∧
      p13b.walked.length ≤ s13b.cfg.nn.toNat ∧ (streamOf p13b.walked).length = s13b.cfg.tsCap.toNat ∧
      s13b.cfg.nn.toNat ≤ Idx.none.toNat) ∧
    (idle (s13c 4) ∧ p13c.heldIn (s13c 4) = true ∧ (s13c 4).root = p13c.index ∧ (s13c 4).root ≠ Idx.none ∧
      p13c.firstStop = some 0#32 ∧ (∀ k, k ∈ p13c.walked → k.streamable) ∧
      (streamOf p13c.walked).length = (s13c 4).cfg.tsCap.toNat ∧ p13c.walked.length = (s13c 4).cfg.nn.toNat) ∧
    (idle (s13c 3) ∧ p13c.heldIn (s13c 3) = true ∧ (s13c 3).root = p13c.index ∧ (s13c 3).root ≠ Idx.none ∧
      (∀ k, k ∈ p13c.walked → k.streamable) ∧ p13c.walked.length ≤ (s13c 3).cfg.nn.toNat ∧
      (s13c 3).cfg.tsCap.toNat < (streamOf p13c.walked).length) :=
  ⟨⟨⟨rfl, rfl⟩, by decide +kernel, by decide +kernel⟩,
    ⟨⟨rfl, rfl⟩, by decide +kernel, by unfold CodeTree.unshared; decide +kernel, forall_of_check (by decide +kernel),
      rfl, by decide +kernel⟩,
    ⟨⟨rfl, rfl⟩, by decide +kernel, rfl, by decide +kernel, rfl, toks_of_check (by decide +kernel), by decide +kernel,
      by decide +kernel, by decide +kernel⟩,
    ⟨⟨rfl, rfl⟩, by decide +kernel, rfl, by decide +kernel, rfl, toks_of_check (by decide +kernel), by decide +kernel,
      by decide +kernel⟩,
    ⟨rfl, rfl⟩, by decide +kernel, rfl, by decide +kernel, toks_of_check (by decide +kernel), by decide +kernel,
      by decide +kernel⟩

/-! The tokens and the deserializer. -/

def s14 : State := sTok 1 4095 State.reset
theorem witness_InternalTokenStoresNode :
    s14.act = .tokenising 1 4095 ∧ 4095 < s14.cfg.nn.toNat := ⟨rfl, by decide +kernel⟩
def s15 : State := sTok 0 4095 State.reset
/-- The lowest or highest symbol of each form. -/
theorem witness_LeafTokenStoresSymbol :
    s15.act = .tokenising 0 4095 ∧ 4095 < s15.cfg.nn.toNat ∧
    ∀ p ∈ [(Instr.tokLeaf1 0x02#7, 0x02#21), (.tokLeaf1 0x7F#7, 0x7F#21), (.tokLeaf2 0x80#11, 0x80#21),
        (.tokLeaf2 0x7FF#11, 0x7FF#21), (.tokLeaf3 0xD7FF#16, 0xD7FF#21), (.tokLeaf3 0xE000#16, 0xE000#21),
        (.tokLeaf4 0x10000#21, 0x10000#21), (.tokLeaf4 0x10FFFF#21, 0x10FFFF#21)],
      leafSym p.1 = some p.2 ∧ p.1.wellFormed = true := ⟨rfl, by decide +kernel, by decide +kernel⟩
def s16 : State := sTok 3 4096 State.reset
def s16a : State := sTok 3 4095 State.reset
/-- V-TD2, row `01 61 62 FF 00`: NN = 3 tokens are stored when 0xFF comes. -/
def s16b : State := inTsb [0x01, 0x61, 0x62, 0xFF, 0x00] { State.reset with cfg := caps 3 5 1 1 }
def ts16b : List Tok := [.internal, .leaf 0x61#21, .leaf 0x62#21]
/-- V-U3, row `C3 41 00`, after a token: 0x41 continues nothing; and a bad third byte in a token of three. -/
def s16c : State := inTsb [0x01, 0xC3, 0x41, 0x00] { State.reset with cfg := caps 2 4 1 1 }
def s16d : State := inTsb [0x01, 0xE2, 0x82, 0xC0] { State.reset with cfg := caps 2 4 1 1 }
theorem witness_TokenFaults :
    (s16.act = .tokenising 3 4096 ∧ s16.cfg.nn.toNat ≤ 4096 ∧ leafSym (.tokLeaf1 0x02#7) = some 2#21 ∧
      2 ≤ (2#21 : Sym).toNat) ∧
    (s16a.act = .tokenising 3 4095 ∧ 4095 < s16a.cfg.nn.toNat ∧
      ∀ p ∈ [(Instr.tokLeaf2 0x7F#11, 0x7F#21), (.tokLeaf3 0x7FF#16, 0x7FF#21), (.tokLeaf3 0xDFFF#16, 0xDFFF#21),
          (.tokLeaf4 0xFFFF#21, 0xFFFF#21), (.tokLeaf4 0x110000#21, 0x110000#21)],
        leafSym p.1 = some p.2 ∧ p.1.wellFormed = false) ∧
    ((sTok 3 3 s16b).act = .tokenising 3 3 ∧ hostWaits (sTok 3 3 s16b) ∧ (sTok 3 3 s16b).cfg.nn.toNat ≤ 3 ∧
      streamAt (sTok 3 3 s16b) 3 [0xFF#8] ∧ 0xFF#8 ≠ 0x00#8) ∧
    ((sTok 1 1 s16c).act = .tokenising 1 1 ∧ hostWaits (sTok 1 1 s16c) ∧ 1 < (sTok 1 1 s16c).cfg.nn.toNat ∧
      multiByte 0xC3#8 2 ∧ ¬ continues 0x41#8 ∧ streamAt (sTok 1 1 s16c) 1 [0xC3#8, 0x41#8]) ∧
    (idle s16b ∧ (∀ k, k ∈ ts16b → k.streamable) ∧ ts16b.length = s16b.cfg.nn.toNat ∧
      streamAt s16b 0 (streamOf ts16b ++ [0xFF#8])) ∧
    (idle s16d ∧ (∀ k, k ∈ [Tok.internal] → k.streamable) ∧ 1 < s16d.cfg.nn.toNat ∧ multiByte 0xE2#8 3 ∧
      (∀ c, c ∈ [0x82#8] → continues c) ∧ ¬ continues 0xC0#8 ∧
      streamAt s16d 0 (streamOf [Tok.internal] ++ 0xE2#8 :: ([0x82#8] ++ [0xC0#8]))) :=
  ⟨⟨rfl, by decide +kernel, rfl, by decide +kernel⟩, ⟨rfl, by decide +kernel, by decide +kernel⟩,
    ⟨rfl, waits_of_none rfl, by decide +kernel, ⟨holds_of_check (by decide +kernel), by decide +kernel,
      by decide +kernel⟩, by decide +kernel⟩,
    ⟨rfl, waits_of_none rfl, by decide +kernel, by unfold multiByte; decide +kernel,
      by unfold continues; decide +kernel, holds_of_check (by decide +kernel), by decide +kernel, by decide +kernel⟩,
    ⟨⟨rfl, rfl⟩, toks_of_check (by decide +kernel), by decide +kernel, holds_of_check (by decide +kernel),
      by decide +kernel, by decide +kernel⟩,
    ⟨rfl, rfl⟩, toks_of_check (by decide +kernel), by decide +kernel, by unfold multiByte; decide +kernel,
      by simp [continues], by unfold continues; decide +kernel, holds_of_check (by decide +kernel), by decide +kernel,
      by decide +kernel⟩
def s17 (b : Nat) : State := sTok 0 4095 (inTsb [b] State.reset)
theorem witness_BadFirstByteRaisesUtf8Malformed :
    (∀ b ∈ [0x80, 0xC1, 0xF5, 0xFF], (s17 b).act = .tokenising 0 4095 ∧ hostWaits (s17 b) ∧
      streamAt (s17 b) 0 [BitVec.ofNat 8 b] ∧ 4095 < (s17 b).cfg.nn.toNat) ∧
    (∀ b ∈ [0x80#8, 0xC1#8, 0xF5#8, 0xFF#8], (0x80 ≤ b.toNat ∧ b.toNat ≤ 0xC1) ∨ 0xF5 ≤ b.toNat) := by
  refine ⟨fun b hb => ⟨rfl, waits_of_none rfl, ⟨holds_of_check ?_, by simp [s17, sTok, inTsb, State.reset], ?_⟩, by
    simp [s17, sTok, inTsb, State.reset, Config.dhb1]⟩, by decide +kernel⟩
  · revert b; decide +kernel
  · revert b; decide +kernel
def s18 : State := sTok 3 3 (inNm [(0, inode 0xFFFFFFFF 0xFFFFFFFF), (1, leaf 0x61), (2, leaf 0x62)] 0
      { State.reset with cfg := caps 3 4 1 1 })
theorem witness_EndTokenRebuildsTree :
    s18.act = .tokenising 3 treeAB.size ∧ treeAB.size ≤ s18.cfg.nn.toNat ∧ holdsAt s18.nm 0 treeAB.records :=
  ⟨rfl, by decide +kernel, holds_of_check (by decide +kernel)⟩
theorem witness_EmptyTreeStreams :
    (idle State.reset ∧ State.reset.root = Idx.none) ∧
    (idle (inTsb [0x00] State.reset) ∧ streamAt (inTsb [0x00] State.reset) 0 [0x00#8]) :=
  ⟨⟨idle_reset, rfl⟩, ⟨rfl, rfl⟩, holds_of_check (by decide +kernel), by decide +kernel, by decide +kernel⟩
def s19 : State := inTsb [0x01, 0x61, 0x62, 0x00, 0xFF] { State.reset with cfg := caps 3 5 1 1 }
/-- `01 61 62 00` with NN = 3 and bytes after the terminator. -/
theorem witness_TdesRebuildsTree :
    idle s19 ∧ treeAB.streamable ∧ treeAB.size ≤ s19.cfg.nn.toNat ∧ streamAt s19 0 (treeAB.stream ++ [0x00#8]) :=
  ⟨⟨rfl, rfl⟩, forall_of_check (by decide +kernel), by decide +kernel, holds_of_check (by decide +kernel),
    by decide +kernel, by decide +kernel⟩
/-- `01 61`, the beginning of no whole tree, with NN = 2; and the same cut in a token of three bytes. -/
def s20 : State := inTsb [0x01, 0x61] { State.reset with cfg := caps 2 2 1 1 }
def ts20 : List Tok := [.internal, .leaf 0x61#21]
def s20a : State := inTsb [0x01, 0xE2, 0x82] { State.reset with cfg := caps 2 3 1 1 }
/-- V-U3's first byte of two alone. -/
def s20b : State := sTok 0 0 (inTsb [0xC3] { State.reset with cfg := caps 1 1 1 1 })
theorem witness_TdesWithoutTerminatorFaults :
    (idle State.reset ∧ State.reset.tsLen = 0#32) ∧
    (idle s20 ∧ (∀ k, k ∈ ts20 → k.streamable) ∧ ts20.length = s20.cfg.nn.toNat ∧ streamAt s20 0 (streamOf ts20) ∧
      s20.tsLen.toNat = (streamOf ts20).length) ∧
    (idle s20a ∧ (∀ k, k ∈ [Tok.internal] → k.streamable) ∧ 1 < s20a.cfg.nn.toNat ∧ multiByte 0xE2#8 3 ∧
      (∀ c, c ∈ [0x82#8] → continues c) ∧ streamAt s20a 0 (streamOf [Tok.internal] ++ 0xE2#8 :: [0x82#8]) ∧
      s20a.tsLen.toNat = (streamOf [Tok.internal] ++ 0xE2#8 :: [0x82#8]).length) ∧
    ((sTok 2 2 s20).act = .tokenising 2 2 ∧ hostWaits (sTok 2 2 s20) ∧ (sTok 2 2 s20).tsLen.toNat = 2) ∧
    (s20b.act = .tokenising 0 0 ∧ hostWaits s20b ∧ 0 < s20b.cfg.nn.toNat ∧ multiByte 0xC3#8 2 ∧
      streamAt s20b 0 [0xC3#8] ∧ s20b.tsLen.toNat = 0 + 1 + ([] : List Byte).length) :=
  ⟨⟨idle_reset, rfl⟩,
    ⟨⟨rfl, rfl⟩, toks_of_check (by decide +kernel), by decide +kernel,
      ⟨holds_of_check (by decide +kernel), by decide +kernel, by decide +kernel⟩, by decide +kernel⟩,
    ⟨⟨rfl, rfl⟩, toks_of_check (by decide +kernel), by decide +kernel, by unfold multiByte; decide +kernel,
      by simp [continues], ⟨holds_of_check (by decide +kernel), by decide +kernel, by decide +kernel⟩,
      by decide +kernel⟩,
    ⟨rfl, waits_of_none rfl, by decide +kernel⟩,
    rfl, waits_of_none rfl, by decide +kernel, by unfold multiByte; decide +kernel,
    ⟨holds_of_check (by decide +kernel), by decide +kernel, by decide +kernel⟩, by decide +kernel⟩
/-- `01 00`, all but two of T-AB's tokens missing, and V-TD2's row `01 61 00`. -/
def s21 : State := inTsb [0x01, 0x00] { State.reset with cfg := caps 1 2 1 1 }
def s21a : State := inTsb [0x01, 0x61, 0x00] { State.reset with cfg := caps 2 3 1 1 }
/-- `61 01 00`: a whole tree, and a token that is the beginning of another. -/
def s21b : State := inTsb [0x61, 0x01, 0x00] { State.reset with cfg := caps 2 3 1 1 }
def t21b : CodeTree := CodeTree.leaf 0#32 0x61#21
theorem witness_TdesShortAndTrailingFaults :
    (idle s21 ∧ [Tok.internal] ++ [.leaf 0x61#21, .leaf 0x62#21] = treeAB.tokens ∧
      (∀ k, k ∈ [Tok.internal] → k.streamable) ∧ [Tok.internal].length ≤ s21.cfg.nn.toNat ∧
      streamAt s21 0 (streamOf [Tok.internal] ++ [0x00#8])) ∧
    (idle s21a ∧ ts20 ++ [.leaf 0x62#21] = treeAB.tokens ∧ (∀ k, k ∈ ts20 → k.streamable) ∧
      ts20.length ≤ s21a.cfg.nn.toNat ∧ streamAt s21a 0 (streamOf ts20 ++ [0x00#8])) ∧
    (idle s21b ∧ t21b.streamable ∧ (∀ k, k ∈ [Tok.internal] → k.streamable) ∧
      t21b.size + [Tok.internal].length ≤ s21b.cfg.nn.toNat ∧
      streamAt s21b 0 (t21b.stream ++ (streamOf [Tok.internal] ++ [0x00#8]))) :=
  ⟨⟨⟨rfl, rfl⟩, rfl, toks_of_check (by decide +kernel), by decide +kernel, holds_of_check (by decide +kernel),
    by decide +kernel, by decide +kernel⟩,
    ⟨⟨rfl, rfl⟩, rfl, toks_of_check (by decide +kernel), by decide +kernel, holds_of_check (by decide +kernel),
      by decide +kernel, by decide +kernel⟩,
    ⟨rfl, rfl⟩, forall_of_check (by decide +kernel), toks_of_check (by decide +kernel), by decide +kernel,
    holds_of_check (by decide +kernel), by decide +kernel, by decide +kernel⟩
def s22 : State := { sAB with cfg := caps 3 4 1 1 }
theorem witness_TreeRoundTrip :
    idle s22 ∧ treeAB.heldIn s22 = true ∧ treeAB.unshared ∧ treeAB.streamable ∧ s22.root = treeAB.index ∧
      treeAB.stream.length + 1 ≤ s22.cfg.tsCap.toNat :=
  ⟨⟨rfl, rfl⟩, by decide +kernel, by unfold CodeTree.unshared; decide +kernel, forall_of_check (by decide +kernel),
    rfl, by decide +kernel⟩
def s23 : State := inTsb [0x01, 0x61, 0x62, 0x00] { State.reset with cfg := caps 3 4 1 1 }
theorem witness_StreamRoundTrip :
    idle s23 ∧ treeAB.streamable ∧ treeAB.size ≤ s23.cfg.nn.toNat ∧ streamAt s23 0 (treeAB.stream ++ [0x00#8]) :=
  ⟨⟨rfl, rfl⟩, forall_of_check (by decide +kernel), by decide +kernel, holds_of_check (by decide +kernel),
    by decide +kernel, by decide +kernel⟩

/-! The payload bits and the unpacker. -/

def s24 : State := sWalk 1 0x01#8 1 (inNm [(0, inode 0 1), (1, leaf 0x61)] 0 { State.reset with cfg := caps 2 1 1 2 })
def s24a : State := sWalk 2 0x01#8 1 (inNm [(0, inode 0 1), (1, leaf 0x61)] 0 { State.reset with cfg := caps 2 1 1 2 })
/-- A child that is an internal node; a child that is a leaf with symbols still to come; and the T-th symbol. -/
theorem witness_PayloadBitMovesCursor :
    (s24.act = .walking 1#64 0#32 0x01#8 (0 + 1) ∧ (0#32 : Idx).toNat < s24.cfg.nn.toNat ∧
      s24.nm.read 0 = some (inode 0 1) ∧
        (if false then (inode 0 1).right else (inode 0 1).left).toNat < s24.cfg.nn.toNat ∧
      (inode 0 1).kind = .internal) ∧
    ((if true then (inode 0 1).right else (inode 0 1).left).toNat < s24.cfg.nn.toNat ∧
      s24.nm.read (if true then (inode 0 1).right else (inode 0 1).left).toNat = some (leaf 0x61) ∧
      (leaf 0x61).kind = .leaf ∧ s24.syLen.toNat < s24.cfg.syCap.toNat ∧ s24.syLen.toNat + 1 = (1#64 : Operand).toNat) ∧
    (s24a.act = .walking 2#64 0#32 0x01#8 (0 + 1) ∧ s24a.nm.read 0 = some (inode 0 1) ∧
      s24a.syLen.toNat < s24a.cfg.syCap.toNat ∧ s24a.syLen.toNat + 1 ≠ (2#64 : Operand).toNat) := by decide +kernel
def s25 : State := sWalk 1 0x80#8 8 (inNm [(0, inode 2 0xFFFFFFFF)] 0 { State.reset with cfg := caps 2 1 1 1 })
/-- The missing child of T-H, and an index at NN. -/
theorem witness_MissingChildRaisesTreeMalformed :
    s25.act = .walking 1#64 0#32 0x80#8 (7 + 1) ∧ (0#32 : Idx).toNat < s25.cfg.nn.toNat ∧
      s25.nm.read 0 = some (inode 2 0xFFFFFFFF) ∧
      s25.cfg.nn.toNat ≤ (if true then (inode 2 0xFFFFFFFF).right else (inode 2 0xFFFFFFFF).left).toNat ∧
      s25.cfg.nn.toNat ≤ (if false then (inode 2 0xFFFFFFFF).right else (inode 2 0xFFFFFFFF).left).toNat :=
        by decide +kernel
theorem witness_UnpackOfNoSymbols : idle State.reset ∧ State.reset.arg = 0#64 := ⟨idle_reset, rfl⟩
def s26 : State := withArg 3 { sZ with cfg := caps 1 1 1 3 }
theorem witness_UnpackOfDegenerateTree :
    idle s26 ∧ (CodeTree.leaf s26.root 0x7A#21).heldIn s26 = true ∧ s26.arg ≠ 0#64 ∧
      s26.arg.toNat ≤ s26.cfg.syCap.toNat :=
  ⟨⟨rfl, rfl⟩, by decide +kernel, by decide +kernel, by decide +kernel⟩
def s27 : State := withArg 8 (inPlb [0x60] { sAB with cfg := caps 3 1 1 8 })
def pa27 : List Bool × Sym := ([false], 0x61#21)
def pb27 : List Bool × Sym := ([true], 0x62#21)
def picks27 : List (List Bool × Sym) := [pa27, pb27, pb27, pa27, pa27, pa27, pa27, pa27]
/-- T-AB, payload `60`, T = 8: the last symbol ends on bit 0 (V-UN1). -/
theorem witness_UnpackWalksPayload :
    idle s27 ∧ treeAB.heldIn s27 = true ∧ s27.root = treeAB.index ∧ 2 ≤ treeAB.size ∧ (∀ p, p ∈ picks27 →
      p ∈ treeAB.paths) ∧
      s27.arg.toNat = picks27.length ∧ picks27 ≠ [] ∧ picks27.length ≤ s27.cfg.syCap.toNat ∧
      s27.plLen.toNat ≤ s27.cfg.plCap.toNat ∧ holdsBits s27.plb 0 (picks27.flatMap Prod.fst) ∧
      (picks27.flatMap Prod.fst).length ≤ 8 * s27.plLen.toNat :=
  ⟨⟨rfl, rfl⟩, by decide +kernel, rfl, by decide +kernel, by decide +kernel, by decide +kernel, by decide +kernel,
    by decide +kernel, by decide +kernel,
    bits_of_check (by decide +kernel), by decide +kernel⟩
def s28 : State := withArg 65537 State.reset
def s28a : State := withArg 65536 State.reset
def s28b : State := withArg 1 (inNm [] 4096 State.reset)
theorem witness_UnpackFaultsBeforeTheWalk :
    (idle s28 ∧ s28.cfg.syCap.toNat < s28.arg.toNat) ∧
    (idle s28a ∧ s28a.arg ≠ 0#64 ∧ s28a.arg.toNat ≤ s28a.cfg.syCap.toNat ∧ s28a.cfg.nn.toNat ≤ s28a.root.toNat) ∧
    (idle s28b ∧ s28b.arg ≠ 0#64 ∧ s28b.arg.toNat ≤ s28b.cfg.syCap.toNat ∧ s28b.cfg.nn.toNat ≤ s28b.root.toNat) :=
  ⟨⟨⟨rfl, rfl⟩, by decide +kernel⟩, ⟨⟨rfl, rfl⟩, by decide +kernel, by decide +kernel, by decide +kernel⟩, ⟨rfl,
    rfl⟩, by decide +kernel, by decide +kernel, by decide +kernel⟩
def t29 : CodeTree := CodeTree.node 0#32 (.leaf 1#32 0x61#21) (.node 2#32 (.leaf 3#32 0x62#21) (.leaf 4#32 0x63#21))
def s29 : State := withArg 5 (inPlb [0x7F] (inNm [(0, inode 1 2), (1, leaf 0x61), (2, inode 3 4), (3, leaf 0x62),
      (4, leaf 0x63)] 0 { State.reset with cfg := caps 5 1 1 5 }))
def pc29 : List Bool × Sym := ([true, true], 0x63#21)
def picks29 : List (List Bool × Sym) := [([false], 0x61#21), pc29, pc29, pc29]
/-- A tree `0: I(1,2), 2: I(3,4)` and the payload `FF`: after four paths `1,1` the byte is used up; and the same with
three leaves out and the cursor in mid-code after `0`, `1,1` three times and one more 1. -/
theorem witness_UnpackOfTruncatedPayload :
    idle s29 ∧ t29.heldIn s29 = true ∧ s29.root = t29.index ∧ 2 ≤ t29.size ∧ (∀ p, p ∈ picks29 → p ∈ t29.paths) ∧
      ([true] ++ [true], 0x63#21) ∈ t29.paths ∧ [true] ≠ [] ∧ picks29.length < s29.arg.toNat ∧
      s29.arg.toNat ≤ s29.cfg.syCap.toNat ∧ s29.plLen.toNat ≤ s29.cfg.plCap.toNat ∧
      holdsBits s29.plb 0 (picks29.flatMap Prod.fst ++ [true]) ∧
      (picks29.flatMap Prod.fst ++ [true]).length = 8 * s29.plLen.toNat :=
  ⟨⟨rfl, rfl⟩, by decide +kernel, rfl, by decide +kernel, by decide +kernel, by decide +kernel, by decide +kernel,
    by decide +kernel, by decide +kernel, by decide +kernel,
    bits_of_check (by decide +kernel), by decide +kernel⟩
def s30 : State := { sAB with cfg := caps 3 1 1 8 }
def pa30 : List Bool × Sym := ([false], 0x61#21)
def pb30 : List Bool × Sym := ([true], 0x62#21)
def picks30 : List (List Bool × Sym) := [pa30, pb30, pb30, pa30, pa30, pa30, pa30, pb30]
theorem witness_PayloadRoundTrip :
    idle s30 ∧ Inv s30 ∧ treeAB.heldIn s30 = true ∧ s30.root = treeAB.index ∧
      (∀ p, p ∈ picks30 → p ∈ treeAB.paths ∧ p.1.length ≤ 63) ∧ picks30.length ≤ s30.cfg.syCap.toNat ∧
      (picks30.flatMap Prod.fst).length ≤ 8 * s30.cfg.plCap.toNat :=
  ⟨⟨rfl, rfl⟩, inv_of_check (by decide +kernel), by decide +kernel, rfl, by decide +kernel, by decide +kernel,
    by decide +kernel⟩
def s31 : State := sTok 0 0 State.reset
theorem witness_CodesOutOfPlaceAreRefused :
    (s31.busy = true ∧ s31.faulted = false ∧ isCommand .reset = true) ∧
    (State.reset.act = .idle ∧ isCommand .tokEnd = false ∧ Instr.tokEnd.wellFormed = true) := by decide +kernel

/-! What changes and what does not. -/

theorem witness_CommandFrames :
    (∀ i ∈ [Instr.nop, .reset, .pkinit, .tser, .tend, .unpack],
      idle sAB ∧ ∃ t, exec i sAB = .next t ∧ t.faulted = false) ∧
    (idle (withArg 2 sAB) ∧ ∃ t, exec .pkput (withArg 2 sAB) = .next t ∧ t.faulted = false) ∧
    (idle (inTsb [0x61, 0x00] State.reset) ∧
      ∃ t, exec .tdes (inTsb [0x61, 0x00] State.reset) = .next t ∧ t.faulted = false) := by
  have h : ∀ i ∈ [Instr.nop, .reset, .pkinit, .tser, .tend, .unpack],
      after (exec i sAB) (fun t => t.faulted == false) = some true := by decide +kernel
  refine ⟨fun i hi => ⟨⟨rfl, rfl⟩, ?_⟩, ⟨⟨rfl, rfl⟩, ?_⟩, ⟨rfl, rfl⟩, ?_⟩
  · obtain ⟨t, h1, h2⟩ := next_of_after (h i hi)
    exact ⟨t, h1, by simpa using h2⟩
  · obtain ⟨t, h1, h2⟩ := next_of_after (P := fun t => t.faulted == false) (o :=
    exec .pkput (withArg 2 sAB)) (by decide +kernel)
    exact ⟨t, h1, by simpa using h2⟩
  · obtain ⟨t, h1, h2⟩ := next_of_after (P := fun t => t.faulted == false)
      (o := exec .tdes (inTsb [0x61, 0x00] State.reset)) (by decide +kernel)
    exact ⟨t, h1, by simpa using h2⟩
/-- Each token and each bit, without a fault. -/
theorem witness_TokenAndBitFrames :
    (∀ i ∈ [Instr.tokEnd, .tokInternal, .tokLeaf1 0x61#7, .tokLeaf2 0xE9#11, .tokLeaf3 0x20AC#16, .tokLeaf4 0x1F600#21],
      (sTok 1 1 sZ).act = .tokenising 1 1 ∧ (sTok 1 1 sZ).faulted = false ∧ isCommand i = false ∧
        after (exec i (sTok 1 1 sZ)) State.faulted = some false) ∧
    (∀ i ∈ [Instr.bitLeft, .bitRight],
      (sWalk 3 0x60#8 8 sAB).act = .walking 3#64 0#32 0x60#8 8 ∧ (sWalk 3 0x60#8 8 sAB).faulted = false ∧
        isCommand i = false ∧ after (exec i (sWalk 3 0x60#8 8 sAB)) State.faulted = some false) := by decide +kernel

/-! The host interface. -/

theorem witness_HostReadsRegisters :
    ∀ n ∈ [0, 1, 12, 13], idle (withHost [.csrRead n] sAB) ∧ (withHost [.csrRead n] sAB).host = .csrRead n :: [] :=
  fun _ _ => ⟨⟨rfl, rfl⟩, rfl⟩
theorem witness_HostWritesRegisters :
    ∀ n ∈ [1, 4, 5, 7, 9, 13], idle (withHost [.csrWrite n 0xFFFFFFFF#64] sAB) ∧ n ≠ 0 ∧
      (withHost [.csrWrite n 0xFFFFFFFF#64] sAB).host = .csrWrite n 0xFFFFFFFF#64 :: [] := by
  refine fun n hn => ⟨⟨rfl, rfl⟩, ?_, rfl⟩
  revert n; decide +kernel
/-- The last entry and the one above it. -/
theorem witness_HostWritesMemory :
    (∀ i ∈ [4095, 4096], idle (withHost [.writeNode i (leaf 0x61)] sAB)) ∧
    (∀ i ∈ [16383, 16384], idle (withHost [.writeTsb i 1#8] sAB)) ∧
    (∀ i ∈ [65535, 65536], idle (withHost [.writePlb i 1#8] sAB)) ∧ idle (withHost [.writeSyb 0 0x61#21] sAB) :=
  ⟨fun _ _ => ⟨rfl, rfl⟩, fun _ _ => ⟨rfl, rfl⟩, fun _ _ => ⟨rfl, rfl⟩, rfl, rfl⟩
theorem witness_HostReadsMemory :
    let s (sp : Space) (i : Nat) := withHost [.memRead sp i] sAB
    (idle (s .nm 2) ∧ 2 < (s .nm 2).capacity .nm ∧ (s .nm 2).entry .nm 2 = some (.node (leaf 0x62))) ∧
    (idle (s .tsb 16384) ∧ (s .tsb 16384).capacity .tsb ≤ 16384) ∧
    (idle (s .syb 65535) ∧ 65535 < (s .syb 65535).capacity .syb ∧ (s .syb 65535).entry .syb 65535 = none) :=
  ⟨⟨⟨rfl, rfl⟩, by decide +kernel, by decide +kernel⟩, ⟨⟨rfl, rfl⟩, by decide +kernel⟩, ⟨rfl, rfl⟩,
    by decide +kernel, by decide +kernel⟩

/-! Encodings and the whole machine. -/

theorem witness_DecodeOfEncode : Instr.wellFormed (.tokLeaf3 0xFFFF#16) = true := by decide +kernel
theorem witness_EncodeOfDecode : decode (.token [0xC0#8, 0x80#8]) = .error .badLead ∧
    decode (.token [0xE2#8, 0x82#8, 0xAC#8]) = .ok (.tokLeaf3 0x20AC#16) := ⟨rfl, rfl⟩
theorem witness_Utf8RoundTrip :
    ∀ x ∈ [0x02#21, 0x7F#21, 0x80#21, 0x7FF#21, 0x800#21, 0xD7FF#21, 0xE000#21, 0xFFFF#21, 0x10000#21, 0x10FFFF#21],
      isScalar x = true ∧ 2 ≤ x.toNat := forall_of_check (by decide +kernel)
theorem witness_StepKeepsInvariant : Inv (withHost [.csrWrite 0 0x30#64] sAB) ∧
    ∃ t, step (withHost [.csrWrite 0 0x30#64] sAB) = .next t :=
  ⟨inv_of_check (by decide +kernel), _, rfl⟩
def s32 : State := withHost [.csrWrite 0 0x11#64] (withArg 3 State.reset)
def s32a : State := withHost [.writePlb 0 1#8] { inPlb [0xFF, 0x80] State.reset with free := 7#3 }
/-- PKPUT, and a host write of a payload byte other than the last. -/
theorem witness_StepKeepsFreeBitsZero :
    (Inv s32 ∧ freeBitsZero s32 ∧ (∀ i b, s32.host.head? = some (.writePlb i b) → i ≠ s32.plLen.toNat - 1) ∧
      ∃ t, step s32 = .next t ∧ (t.faulted == false) = true) ∧
    (Inv s32a ∧ freeBitsZero s32a ∧ (∀ i b, s32a.host.head? = some (.writePlb i b) → i ≠ s32a.plLen.toNat - 1) ∧
      ∃ t, step s32a = .next t ∧ (t.faulted == false) = true) := by
  refine ⟨⟨inv_of_check (by decide +kernel), fun b h => absurd rfl h, by simp [s32, withHost],
    next_of_after (by decide +kernel)⟩,
    inv_of_check (by decide +kernel), ?_, ?_, next_of_after (by decide +kernel)⟩
  · intro b _ hb i hi
    have hb' : some 0x80#8 = some b := hb
    have hi' : i < 7 := hi
    injection hb' with hb'
    subst hb'
    interval_cases i <;> rfl
  · intro i b h
    simp only [s32a, withHost, List.head?_cons, Option.some.injEq, HostAction.writePlb.injEq] at h
    obtain ⟨rfl, -⟩ := h
    decide
theorem witness_StepAlwaysGoesOn : Inv (withHost [.hwReset] sFault) ∧ Inv State.reset := by
  refine ⟨?_, inv_reset⟩
  obtain ⟨h1, h2, h3, h4, h5, h6⟩ := inv_fault
  exact ⟨h1, h2, h3, h4, h5, h6⟩
theorem witness_EveryCommandEnds : Inv sAB ∧ sAB.act = .idle ∧ isCommand .unpack = true :=
  ⟨inv_of_check (by decide +kernel), rfl, rfl⟩
def s33 : State := withHost [.csrWrite 0 0x40#64] (inTsb [0x61, 0x00] State.reset)
theorem witness_StepsRunCommandsWhole :
    Inv s33 ∧ s33.act = .idle ∧ ∃ t, step s33 = .next t := ⟨inv_of_check (by decide +kernel), rfl, _, rfl⟩

end Sys2Proof.Tests
end

namespace Sys2Proof.Safety

open Sys2Proof.Machine

/-! Between commands: a command runs to its end, and an access of the host leaves the scratch alone. -/

/-- What `whenIdle` answers on a block that is not busy: the state itself where it is faulted, else the run. -/
theorem whenIdle_nexts {P : State → Prop} {s : State} {run : State → Answer} (hb : s.busy = false) (hs : P s)
    (hrun : s.faulted = false → Nexts P (run s)) : Nexts P (whenIdle s run) := by
  rcases whenIdle_cases s run with ⟨_, he⟩ | ⟨_, hb', _⟩ | ⟨hf, _, he⟩
  · rw [he]; exact hs
  · rw [hb] at hb'; cases hb'
  · rw [he]; exact hrun hf

theorem Inv.notBusy {s : State} (h : Inv s) (hs : s.act = .idle) : s.busy = false := by
  rw [h.flags.1]; simp [State.inFlight, hs]

/-- The invariant reads nothing of the host's accesses to come. -/
theorem Inv.withHost {s : State} (h : Inv s) (l : List HostAction) : Inv { s with host := l } :=
  ⟨h.cfg, h.memories, h.flags, h.lengths, h.carry, h.scratch⟩

/-- A command that begins between commands ends there, in the invariant (R5, R340). -/
theorem exec_command_ends {s : State} {i : Instr} (h : Inv s) (hs : s.act = .idle) (hi : isCommand i = true) :
    Nexts (fun t => Inv t ∧ t.act = .idle) (exec i s) := by
  have hfl : s.inFlight = false := by simp [State.inFlight, hs]
  have ended : ∀ {C : State → Prop} {o : Answer}, Nexts (fun t => Inv t ∧ t.inFlight = false ∧ C t) o →
      Nexts (fun t => Inv t ∧ t.act = .idle) o :=
    fun ho => ho.mono fun t ht => ⟨ht.1, by simpa [State.inFlight] using ht.2.1⟩
  cases i with
  | nop => exact ended (runCommand_inv (cs := []) (body := fun s => .ok () s) (fun _ hr => hr) h hfl)
  | reset =>
    show Nexts _ (execReset s)
    simp only [execReset, h.notBusy hs, Bool.false_and, Bool.false_eq_true, if_false]
    exact ⟨resetBlock_inv s h.cfg, resetBlock_act s⟩
  | pkinit => exact ended (runCommand_inv (cs := []) (fun _ hr => packInit_running hr) h hfl)
  | pkput => exact ended (runCommand_inv (fun _ hr => packCode_running hr) h hfl)
  | unpack => exact ended (execUnpack_inv h hfl)
  | tser => exact ended (runCommand_inv (fun _ hr => serializeTree_running hr) h hfl)
  | tend =>
    refine ended (runCommand_inv (cs := serializerCauses) (fun _ hr => ?_) h hfl)
    exact (emitToken_running (by decide) _ hr).mono (fun _ _ ht => ht.1) fun _ _ _ he => he
  | tdes => exact ended (execTdes_inv h hfl)
  | tokEnd | tokInternal | tokLeaf1 | tokLeaf2 | tokLeaf3 | tokLeaf4 | bitLeft | bitRight => cases hi

/-- A write of CMD on a block between commands runs its command, or raises CmdIllegal, and ends between commands, in
the invariant (R24, R93, R233). -/
theorem writeCmd_ends {s : State} (h : Inv s) (hs : s.act = .idle) (v : Operand) :
    Nexts (fun t => Inv t ∧ t.act = .idle) (writeCmd v s) := by
  unfold writeCmd runOpcode
  split
  · exact ⟨h, hs⟩
  · split
    · next i hd => exact exec_command_ends h hs (decodeCommand_encode hd).2
    · exact whenIdle_nexts (h.notBusy hs) ⟨h, hs⟩ fun _ => ⟨enterFault_inv _ _ _ h.cfg, enterFault_act _ _ _⟩

@[simp] theorem csrRead_act (n : Nat) (s : State) : (csrRead n s).act = s.act := by
  unfold csrRead; split <;> simp

@[simp] theorem csrStore_act (n : Nat) (v : Operand) (s : State) : (csrStore n v s).act = s.act := by
  unfold csrStore; split <;> rfl

@[simp] theorem memRead_act (sp : Space) (i : Nat) (s : State) : (memRead sp i s).act = s.act := by
  unfold memRead
  split
  · simp
  · split
    · simp
    · split <;> simp

theorem memStore_act (sp : Space) (i : Nat) {store : State → State} {s : State} (h : (store s).act = s.act) :
    (memStore sp i store s).act = s.act := by
  unfold memStore
  split
  · exact h
  · rfl

/-- A write of the host, other than of CMD, that does not touch the scratch starts no command (R235, R237, R284). -/
theorem hostWrite_idleAct {s : State} {store : State → State} (h : Inv s) (hs : s.act = .idle)
    (hst : (store s).act = s.act) : Nexts (fun t => t.act = .idle) (hostWrite store s) :=
  whenIdle_nexts (h.notBusy hs) hs fun _ => hst.trans hs

/-- One access of the host to a block between commands leaves it between commands: a write of CMD runs its command
whole, every other access runs none. -/
theorem hostMove_idleAct {s : State} (h : Inv s) (hs : s.act = .idle) (a : HostAction) :
    Nexts (fun t => t.act = .idle) (hostMove a s) := by
  cases a with
  | csrRead n =>
    show Nexts _ (hostRead _ _ s)
    rw [hostRead_idle (h.notBusy hs)]
    exact (csrRead_act n s).trans hs
  | csrWrite n v =>
    cases n with
    | zero => exact (writeCmd_ends h hs v).mono fun _ ht => ht.2
    | succ n => exact hostWrite_idleAct h hs (csrStore_act (n + 1) v s)
  | memRead sp i =>
    show Nexts _ (hostRead _ _ s)
    rw [hostRead_idle (h.notBusy hs)]
    exact (memRead_act sp i s).trans hs
  | writeNode i r => exact hostWrite_idleAct h hs (memStore_act .nm i rfl)
  | writeTsb i b => exact hostWrite_idleAct h hs (memStore_act .tsb i rfl)
  | writePlb i b => exact hostWrite_idleAct h hs (memStore_act .plb i rfl)
  | writeSyb i x => exact hostWrite_idleAct h hs rfl
  | hwReset => exact resetBlock_act s

/-- A step that begins between commands ends between commands: the block waits, or the host makes one access. -/
theorem step_idleAct {s : State} (h : Inv s) (hs : s.act = .idle) : Nexts (fun t => t.act = .idle) (step s) := by
  cases hh : s.host with
  | nil => rw [step_waits hs hh]; exact hs
  | cons a rest => rw [step_host hs hh]; exact hostMove_idleAct (h.withHost rest) hs a

/-- Settles O59: between commands a step is one access of the host, and a command written to CMD runs to its end
within it. -/
theorem stepsRunCommandsWhole : Obligations.StepsRunCommandsWhole := by
  unfold Obligations.StepsRunCommandsWhole
  intro s t h hs ht
  have hn := step_idleAct h hs
  rwa [ht] at hn

end Sys2Proof.Safety

namespace Sys2Proof.Machine

/-- A write leaves every defined entry defined. -/
theorem Memory.isSome_read_write {α : Type} {m : Memory α} (a : Nat) (v : α) {b : Nat}
    (h : (m.read b).isSome = true) : ((m.write a v).read b).isSome = true := by
  rw [Memory.read_write]
  split
  · rfl
  · exact h

theorem saturate_le (v cap : Idx) : (saturate v cap).toNat ≤ cap.toNat := by
  unfold saturate
  split <;> omega

/-- A read of a register changes only the model's own fields: what the host was answered, and the free values. -/
theorem csrRead_frame (n : Nat) (s : State) :
    csrRead n s = { s with draws := (csrRead n s).draws, seen := (csrRead n s).seen } := by
  unfold csrRead
  split <;> rfl

/-- A read of a memory changes only the model's own fields. -/
theorem memRead_frame (sp : Space) (i : Nat) (s : State) :
    memRead sp i s = { s with draws := (memRead sp i s).draws, seen := (memRead sp i s).seen } := by
  unfold memRead
  split
  · rfl
  · split
    · rfl
    · split <;> rfl

/-- A read of the host is answered between commands, and where it is a poll of STATUS. -/
theorem hostRead_answers {s : State} {allowed : Bool} (h : s.busy = false ∨ allowed = true) (read : State → State) :
    hostRead allowed read s = .next (read s) := by
  rcases h with h | h <;> simp [hostRead, h]

/-- A write of a memory keeps what its store below the capacity keeps (R237). -/
theorem memStore_keeps {P : State → Prop} {sp : Space} {i : Nat} {store : State → State} {s : State} (h : P s)
    (hst : i < s.capacity sp → P (store s)) : P (memStore sp i store s) := by
  unfold memStore
  split
  · exact hst ‹_›
  · exact h

end Sys2Proof.Machine

namespace Sys2Proof.Safety

open Sys2Proof.Machine

/-! What a step runs. -/

/-- The three moves of a step (logs 1 and 6): the block waits, the host makes its next access, or the command in flight
takes its next token or bit. -/
theorem step_cases (s : State) :
    (s.act = .idle ∧ s.host = [] ∧ step s = .next s) ∨
    (∃ a rest, s.host = a :: rest ∧ (s.act = .idle ∨ mayInterrupt a = true) ∧
      step s = hostMove a { s with host := rest }) ∨
    (s.act ≠ .idle ∧ step s = sequencerMove s) := by
  by_cases ha : s.act = .idle
  · cases hh : s.host with
    | nil => exact .inl ⟨ha, rfl, step_waits ha hh⟩
    | cons a rest => exact .inr (.inl ⟨a, rest, rfl, .inl ha, step_host ha hh⟩)
  · by_cases hw : hostWaits s
    · exact .inr (.inr ⟨ha, step_sequencer ha hw⟩)
    · simp only [hostWaits, not_forall, Bool.not_eq_false] at hw
      obtain ⟨a, hhead, hint⟩ := hw
      obtain ⟨rest, hh⟩ := List.head?_eq_some_iff.mp hhead
      exact .inr (.inl ⟨a, rest, hh, .inr hint, step_interrupt hint hh⟩)

/-- A value whose low byte decodes runs its command: it is accepted or, in the faulted state and other than 0x01,
ignored as every command but RESET is (R233, R235). -/
theorem writeCmd_runs {s : State} {v : Operand} {i : Instr} (hv : s.faulted = true → v.toNat < 256)
    (hd : decodeCommand (v.setWidth 8) = .ok i) : writeCmd v s = exec i s := by
  by_cases hacc : s.faulted = true → v = 0x01#64
  · rw [writeCmd_accepted hacc, runOpcode_ok s hd]
  · obtain ⟨hf, hne⟩ := Classical.not_imp.mp hacc
    obtain ⟨henc, hcmd⟩ := decodeCommand_encode hd
    have hi : i ≠ .reset := by
      rintro rfl
      have hnat : 1 = v.toNat % 256 := congrArg BitVec.toNat (Code.command.inj henc)
      rw [Nat.mod_eq_of_lt (hv hf)] at hnat
      exact hne (BitVec.eq_of_toNat_eq hnat.symm)
    rw [writeCmd_ignored hf hne, exec_faulted hf hcmd hi]

/-- Settles O4: the step is the host's write of CMD. -/
theorem stepRunsWrittenCommand : Obligations.StepRunsWrittenCommand := by
  unfold Obligations.StepRunsWrittenCommand
  intro s v rest i ha hh hv hd
  rw [step_host ha hh]
  exact writeCmd_runs (s := { s with host := rest }) hv hd

/-- Settles O7: the wait is the step's first case, and a poll of STATUS may interrupt a command. -/
theorem stepWaitsAndPolls : Obligations.StepWaitsAndPolls := by
  unfold Obligations.StepWaitsAndPolls
  refine ⟨fun s ha hh => step_waits ha hh, fun s rest hb hf hh => ?_⟩
  have hst : s.status = 0b01#2 := status_busy hf hb
  rw [step_interrupt (a := .csrRead 1) rfl hh]
  show hostRead true (csrRead 1) { s with host := rest } = _
  rw [hostRead_answers (.inr rfl)]
  simp [csrRead, csrValue, readsSpecified, State.reply, hst]

/-! Reset. -/

/-- Reset gives every register its reset value and leaves nothing defined (R48, R321). -/
theorem atReset_resetBlock (s : State) : atReset (resetBlock s) :=
  ⟨rfl, rfl, rfl, rfl, rfl, rfl, rfl, rfl, rfl, rfl, rfl, rfl, fun _ => ⟨rfl, rfl, rfl, rfl⟩, rfl⟩

/-- The machine after reset is what reset leaves of it. -/
theorem resetBlock_reset : resetBlock State.reset = State.reset := rfl

/-- Settles O1: the machine after reset is what reset leaves. -/
theorem resetStateHoldsTable : Obligations.ResetStateHoldsTable := by
  unfold Obligations.ResetStateHoldsTable
  rw [← resetBlock_reset]
  exact atReset_resetBlock _

/-- Settles O54: reset ends in the invariant, with R7's default capacities. -/
theorem invariantAtReset : Obligations.InvariantAtReset := by
  unfold Obligations.InvariantAtReset
  rw [← resetBlock_reset]
  exact resetBlock_inv _ (by decide)

/-! The invariant under the accesses of the host. -/

/-- The invariant reads neither the free values drawn nor the answers given. -/
theorem Inv.ofReads {s t : State} (h : Inv s) (ht : t = { s with draws := t.draws, seen := t.seen }) : Inv t := by
  rw [ht]
  exact ⟨h.cfg, h.memories, h.flags, h.lengths, h.carry, h.scratch⟩

/-- What a host's write on an idle block may change keeps the invariant where it keeps the memories' form, the lengths
and the packer's last byte: flags and scratch are not touched. -/
theorem Inv.ofWrites {s t : State} (h : Inv s) (hs : s.act = .idle) (hf : s.faulted = false)
    (ht : t = { s with arg := t.arg, root := t.root, free := t.free, tsLen := t.tsLen, plLen := t.plLen, nm := t.nm,
                       tsb := t.tsb, plb := t.plb })
    (hm : memoriesOk t) (hl : lengthsOk t) (hc : carryOk t) : Inv t where
  cfg := by rw [ht]; exact h.cfg
  memories := hm
  flags := by
    rw [ht]
    exact ⟨h.flags.1, h.flags.2.1, h.flags.2.2.1, fun hf' => absurd (hf.symm.trans hf') Bool.false_ne_true⟩
  lengths := fun _ => hl
  carry := fun _ => hc
  scratch := by rw [ht]; simp only [scratchOk, hs]

/-- A write of a register keeps the invariant: lengths are capped, and a write of PL_LEN clears FREE (R33, R38). -/
theorem csrStore_inv (n : Nat) (v : Operand) {s : State} (h : Inv s) (hs : s.act = .idle) (hf : s.faulted = false) :
    Inv (csrStore n v s) := by
  obtain ⟨-, hts, hpl, hrest⟩ := h.lengths hf
  unfold csrStore
  split
  case h_1 | h_2 => exact h.ofWrites hs hf rfl h.memories (h.lengths hf) (h.carry hf)
  case h_3 => exact h.ofWrites hs hf rfl h.memories ⟨saturate_le _ _, hts, hpl, hrest⟩ (h.carry hf)
  case h_4 =>
    exact h.ofWrites hs hf rfl h.memories ⟨(h.lengths hf).1, hts, saturate_le _ _, hrest⟩ fun hne => absurd rfl hne
  case h_5 => exact h

/-- A write of the host keeps the invariant if what it stores on a block without FAULT does. -/
theorem hostWrite_inv {s : State} {store : State → State} (h : Inv s) (hs : s.act = .idle)
    (hst : s.faulted = false → Inv (store s)) : Nexts Inv (hostWrite store s) :=
  whenIdle_nexts (h.notBusy hs) h hst

/-- Every access the host may make keeps the invariant. -/
theorem hostMove_inv {s : State} {a : HostAction} (h : Inv s) (ha : s.act = .idle ∨ mayInterrupt a = true) :
    Nexts Inv (hostMove a s) := by
  obtain ⟨hnm, htsb, hplb, hsyb⟩ := h.memories
  have between : mayInterrupt a = false → s.act = .idle := fun hi =>
    ha.resolve_right (by rw [hi]; exact Bool.false_ne_true)
  cases a with
  | csrRead n =>
    have hok : s.busy = false ∨ decide (n = 1) = true := ha.imp_left h.notBusy
    show Nexts Inv (hostRead _ _ s)
    rw [hostRead_answers hok]
    exact h.ofReads (csrRead_frame n s)
  | csrWrite n v =>
    cases n with
    | zero => exact (writeCmd_ends h (between rfl) v).mono fun _ ht => ht.1
    | succ n => exact hostWrite_inv h (between rfl) (csrStore_inv (n + 1) v h (between rfl))
  | memRead sp i =>
    show Nexts Inv (hostRead _ _ s)
    rw [hostRead_idle (h.notBusy (between rfl))]
    exact h.ofReads (memRead_frame sp i s)
  | writeNode i r =>
    exact hostWrite_inv h (between rfl) fun hf => memStore_keeps h fun hi =>
      h.ofWrites (between rfl) hf rfl ⟨Memory.wf_write r hnm hi, htsb, hplb, hsyb⟩ (h.lengths hf) (h.carry hf)
  | writeTsb i b =>
    exact hostWrite_inv h (between rfl) fun hf => memStore_keeps h fun hi =>
      h.ofWrites (between rfl) hf rfl ⟨hnm, Memory.wf_write b htsb hi, hplb, hsyb⟩ (h.lengths hf) (h.carry hf)
  | writePlb i b =>
    exact hostWrite_inv h (between rfl) fun hf => memStore_keeps h fun hi =>
      h.ofWrites (between rfl) hf rfl ⟨hnm, htsb, Memory.wf_write b hplb hi, hsyb⟩ (h.lengths hf) fun hfree =>
        (h.carry hf hfree).imp_right (Memory.isSome_read_write i b)
  | writeSyb i x => exact hostWrite_inv h (between rfl) fun _ => h
  | hwReset => exact resetBlock_inv s h.cfg

/-- The next token or payload bit of a command in flight keeps the invariant. -/
theorem sequencerMove_inv {s : State} (h : Inv s) : Nexts Inv (sequencerMove s) := by
  unfold sequencerMove
  cases ha : s.act with
  | idle => exact h
  | tokenising p ntok => exact (tokenStep_turn h ha).mono fun _ ht => ht.1
  | walking t cur byte unread => exact (bitStep_turn h ha).mono fun _ ht => ht.1

/-- Every step from a state of the invariant answers a next state, in the invariant. -/
theorem step_inv {s : State} (h : Inv s) : Nexts Inv (step s) := by
  rcases step_cases s with ⟨-, -, he⟩ | ⟨a, rest, -, ha, he⟩ | ⟨-, he⟩
  · rw [he]; exact h
  · rw [he]; exact hostMove_inv (h.withHost rest) ha
  · rw [he]; exact sequencerMove_inv h

/-- Settles O55: a step waits, makes one access of the host or takes one token or bit, and each keeps the invariant. -/
theorem stepKeepsInvariant : Obligations.StepKeepsInvariant := by
  unfold Obligations.StepKeepsInvariant
  intro s t h ht
  have hn := step_inv h
  rwa [ht] at hn

end Sys2Proof.Safety

namespace Sys2Proof.Safety

open Sys2Proof.Machine

/-! The packer's registers and payload: what keeps them, and what keeps the free bits 0. -/

/-- Where the answer is a next state without FAULT, `P` holds of it. -/
def Keeps (P : State → Prop) (o : Answer) : Prop := ∀ t, o = .next t → t.faulted = false → P t

/-- FREE, PL_LEN and PLB are as they were. -/
structure SamePacker (s t : State) : Prop where
  free  : t.free = s.free
  plLen : t.plLen = s.plLen
  plb   : t.plb = s.plb

theorem keeps_next {P : State → Prop} {s : State} (h : s.faulted = false → P s) : Keeps P (.next s) := by
  rintro _ ⟨⟩
  exact h

theorem keeps_enterFault {P : State → Prop} (c : Cause) (info : BitVec 32) (s : State) :
    Keeps P (.next (enterFault c info s)) :=
  keeps_next fun hf => by simp at hf

theorem Keeps.mono {P Q : State → Prop} {o : Answer} (h : Keeps P o) (hpq : ∀ t, P t → Q t) : Keeps Q o :=
  fun t ho hf => hpq t (h t ho hf)

/-- A stretch that raises ends in FAULT, so what holds where it goes on is kept. -/
theorem keeps_finish {P : State → Prop} {m : Run Unit} (h : m.Oks fun _ t => P t) : Keeps P m.finish :=
  fun _ ho hf => h.out ho hf

/-- A command or a write of the host on a block with FAULT is ignored, and FAULT stays. -/
theorem keeps_whenIdle {P : State → Prop} {s : State} {run : State → Answer}
    (h : s.faulted = false → s.busy = false → Keeps P (run s)) : Keeps P (whenIdle s run) := by
  rcases whenIdle_cases s run with ⟨hf, he⟩ | ⟨_, _, he⟩ | ⟨hf, hb, he⟩
  · rw [he]; exact keeps_next fun hf' => absurd (hf.symm.trans hf') Bool.noConfusion
  · rw [he]; rintro t ⟨⟩
  · rw [he]; exact h hf hb

theorem keeps_runCommand {P : State → Prop} {s : State} {body : State → Run Unit}
    (h : s.faulted = false → (body (beginCommand s)).Oks fun _ t => P (endCommand t)) :
    Keeps P (runCommand body s) :=
  keeps_whenIdle fun hf _ => keeps_finish (Run.Oks.bind (h hf))

theorem SamePacker.trans {s t u : State} (h : SamePacker s t) (h' : SamePacker t u) : SamePacker s u :=
  ⟨h'.free.trans h.free, h'.plLen.trans h.plLen, h'.plb.trans h.plb⟩

/-- The free bits depend on FREE, PL_LEN and PLB alone. -/
theorem SamePacker.freeBitsZero {s t : State} (h : SamePacker s t) (hz : freeBitsZero s) : freeBitsZero t := by
  unfold Safety.freeBitsZero
  rw [h.free, h.plLen, h.plb]
  exact hz

theorem freeBitsZero_of_free {s : State} (h : s.free = 0#3) : freeBitsZero s := fun _ hne => absurd h hne

/-! TDES leaves the packer alone. -/

/-- An instruction that takes bytes of the tree stream is no command (R100). -/
theorem isCommand_of_tokenLen {i : Instr} (h : 1 ≤ tokenLen i) : isCommand i = false := by
  cases i with
  | tokEnd | tokInternal | tokLeaf1 | tokLeaf2 | tokLeaf3 | tokLeaf4 | bitLeft | bitRight => rfl
  | nop | reset | pkinit | pkput | unpack | tser | tend | tdes => simp [tokenLen] at h

/-- A token stores a record or, at END, rebuilds the tree: neither touches the packer. -/
theorem runToken_samePacker {i : Instr} {p ntok : Nat} {s : State} (ha : s.act = .tokenising p ntok)
    (hi : 1 ≤ tokenLen i) : Keeps (SamePacker s) (runToken i s) := by
  rw [runToken_exec hi]
  by_cases hend : i = .tokEnd
  · subst hend
    show Keeps _ (inTokens finishTree s)
    rw [inTokens_flight ha]
    exact keeps_finish ((finishTree_frame p ntok s).mono fun _ t ht => by
      rw [ht.1]; exact ⟨rfl, rfl, rfl⟩)
  · intro t ho hf
    rw [(token_frame ha (isCommand_of_tokenLen hi) hend ho hf).1]
    exact ⟨rfl, rfl, rfl⟩

theorem tokenStep_samePacker {p ntok : Nat} {s : State} (h : Inv s) (ha : s.act = .tokenising p ntok) :
    Keeps (SamePacker s) (tokenStep s) := by
  have hr : Running s := h.running (by simp [State.inFlight, ha])
  unfold tokenStep
  rw [ha]
  simp only
  rcases (fetchToken_spec (p := p) (ntok := ntok) hr.cfg hr.lengths.1).cases with
    ⟨i, t, he, ⟨d, rfl⟩, hi, -, -⟩ | ⟨c, info, t, he, -⟩
  · rw [he]
    exact (runToken_samePacker (s := { s with draws := d }) ha hi).mono fun _ ht => ⟨ht.free, ht.plLen, ht.plb⟩
  · rw [he]
    exact keeps_enterFault c info t

/-! UNPACK leaves the packer alone. -/

/-- Fetching a payload bit changes PL_RPOS, the scratch and the free values drawn only, and answers a payload bit. -/
theorem fetchBit_frame (T : Operand) (cur : Idx) (byte : Byte) (unread : Nat) (s : State) :
    (fetchBit T cur byte unread s).Oks fun i t =>
      (∃ b, i = decodeBit b) ∧ t = { s with plRpos := t.plRpos, act := t.act, draws := t.draws } := by
  unfold fetchBit
  split
  · split
    · exact trivial
    · refine Run.Oks.bind ((readPlb_oks _ s).mono fun b t ht => ⟨⟨_, rfl⟩, ?_⟩)
      rw [ht]
  · exact ⟨⟨_, rfl⟩, rfl⟩

theorem runBit_samePacker (b : Bool) (s : State) : Keeps (SamePacker s) (runBit (decodeBit b) s) := by
  have hbit : runBit (decodeBit b) s = inWalk b s := by cases b <;> rfl
  rw [hbit]
  unfold inWalk
  split
  · exact keeps_finish ((walkTo_frame _ _ _ _ _ s).mono fun _ t ht => by rw [ht.1]; exact ⟨rfl, rfl, rfl⟩)
  all_goals rintro t ⟨⟩

theorem bitStep_samePacker (s : State) : Keeps (SamePacker s) (bitStep s) := by
  unfold bitStep
  split
  · next T cur byte unread _ =>
    have hfetch := fetchBit_frame T cur byte unread s
    cases hm : fetchBit T cur byte unread s with
    | ok i t =>
      rw [hm] at hfetch
      obtain ⟨⟨b, rfl⟩, ht⟩ := hfetch
      have hst : SamePacker s t := by rw [ht]; exact ⟨rfl, rfl, rfl⟩
      exact (runBit_samePacker b t).mono fun _ hu => hst.trans hu
    | raise c info t => exact keeps_enterFault c info t
    | stop r => rintro t ⟨⟩
  all_goals rintro t ⟨⟩

theorem startUnpack_samePacker (s : State) : (startUnpack s).Oks fun _ t => SamePacker s t := by
  unfold startUnpack
  simp only
  split
  · exact ⟨rfl, rfl, rfl⟩
  · split
    · exact trivial
    · split
      · exact trivial
      · refine Run.Oks.bind ((readNm_oks _ _).mono fun r t ht => ?_)
        split
        · refine Run.Oks.bind ((emitRoot_frame _ t).mono fun _ u hu => ?_)
          rw [hu.1, ht.1]
          exact ⟨rfl, rfl, rfl⟩
        · rw [ht.1]
          exact ⟨rfl, rfl, rfl⟩

/-! The loops and the whole commands. -/

/-- A loop that goes on from a turn's state keeps what the turn and the loop keep: in flight there is no FAULT, and
otherwise the loop is over. -/
theorem andThen_drive_samePacker {s u : State} {o : Answer} {f : State → Answer} {n : Nat} (ho : o = .next u)
    (hu : Inv u) (h : Keeps (SamePacker s) o) (hd : u.inFlight = true → Keeps (SamePacker u) (drive f n u)) :
    Keeps (SamePacker s) (andThen o (drive f n)) := by
  intro t ht hf
  rw [ho, andThen_next] at ht
  cases hfl : u.inFlight with
  | false =>
    rw [drive_idle f n hfl] at ht
    cases ht
    exact h u ho hf
  | true => exact (h u ho (hu.running hfl).faulted).trans (hd hfl t ht hf)

/-- The loop of a command in flight leaves the packer alone if each of its turns does. -/
theorem drive_samePacker {f : State → Answer} {cmd : Instr} {cs : List Cause}
    (hf : ∀ s, Inv s → inFlightOf s.act = some cmd → Nexts (Turn cs s) (f s) ∧ Keeps (SamePacker s) (f s)) (n : Nat)
    {s : State} (h : Inv s) (hcmd : inFlightOf s.act = some cmd) (hfl : s.inFlight = true) :
    Keeps (SamePacker s) (drive f n s) := by
  induction n generalizing s with
  | zero =>
    have hlast : drive f 0 s = f s := if_pos hfl
    rw [hlast]
    exact (hf s h hcmd).2
  | succ n ih =>
    rw [drive_flight f n hfl]
    obtain ⟨hturn, hkeep⟩ := hf s h hcmd
    obtain ⟨u, hu, hinv, hnear, -⟩ := hturn.out
    exact andThen_drive_samePacker hu hinv hkeep fun hflu => ih hinv ((hnear hflu).2.trans hcmd) hflu

theorem execTdes_samePacker {s : State} (h : Inv s) : Keeps (SamePacker s) (execTdes s) := by
  refine keeps_whenIdle fun hf hb => ?_
  have hrun : Running { beginCommand s with act := .tokenising 0 0 } := (h.begin (status_zero hf hb)).frame rfl
  have hinv := hrun.inv (by simp [State.inFlight]) ⟨Nat.zero_le _, Nat.zero_le _⟩
  have hturns : ∀ t, Inv t → inFlightOf t.act = some .tdes →
      Nexts (Turn deserializerCauses t) (tokenStep t) ∧ Keeps (SamePacker t) (tokenStep t) := by
    intro t ht hcmd
    obtain ⟨p, ntok, ha⟩ := flight_tdes hcmd
    exact ⟨tokenStep_turn ht ha, tokenStep_samePacker ht ha⟩
  exact (drive_samePacker hturns _ hinv rfl (by simp [State.inFlight])).mono fun _ ht => ⟨ht.free, ht.plLen, ht.plb⟩

theorem execUnpack_samePacker {s : State} (h : Inv s) : Keeps (SamePacker s) (execUnpack s) := by
  refine keeps_whenIdle fun hf hb => ?_
  obtain ⟨u, hu, hinv, hcmd, -⟩ := (startUnpack_started (h.begin (status_zero hf hb))).out
  have hturns : ∀ t, Inv t → inFlightOf t.act = some .unpack →
      Nexts (Turn unpackerCauses t) (bitStep t) ∧ Keeps (SamePacker t) (bitStep t) := by
    intro t ht hflt
    obtain ⟨_, _, _, _, ha⟩ := flight_unpack hflt
    exact ⟨bitStep_turn ht ha, bitStep_samePacker t⟩
  have hstart : Keeps (SamePacker s) (startUnpack (beginCommand s)).finish :=
    (keeps_finish (startUnpack_samePacker _)).mono fun _ ht => ⟨ht.free, ht.plLen, ht.plb⟩
  exact andThen_drive_samePacker hu hinv hstart fun hfl => drive_samePacker hturns _ hinv (hcmd hfl).1 hfl

theorem StreamFrame.samePacker {s t : State} (h : StreamFrame s t) : SamePacker s t := by
  rw [h.1]
  exact ⟨rfl, rfl, rfl⟩

/-- PKPUT keeps the free bits 0: where the data bits fit, the packer writes none beyond them (R182). -/
theorem packCode_freeBitsZero {s : State} (h : Packable s) (hz : freeBitsZero s) :
    (packCode s).Oks fun _ t => freeBitsZero t := by
  unfold packCode
  split
  · exact trivial
  · by_cases hfit : packedBits s + codeLength s.arg ≤ 8 * s.cfg.plCap.toNat
    · obtain ⟨t, ht, hp⟩ := packBits_fits s.arg (codeLength s.arg) 0 h hfit
      rw [ht]
      exact hp.zero hz
    · have hle : packedBits s ≤ 8 * s.cfg.plCap.toNat := by
        have := h.fits
        unfold packedBits
        omega
      obtain ⟨t, ht⟩ := packBits_full s.arg (codeLength s.arg) 0 h (by omega) hle
      rw [ht]
      exact trivial

/-- Every command keeps the free bits 0: PKINIT and RESET leave none, PKPUT writes within them, and the others leave
the packer alone. -/
theorem exec_freeBitsZero {s : State} {i : Instr} (h : Inv s) (hz : freeBitsZero s) (hi : isCommand i = true) :
    Keeps freeBitsZero (exec i s) := by
  cases i with
  | nop => exact keeps_runCommand fun _ => hz
  | reset =>
    show Keeps _ (execReset s)
    unfold execReset
    split
    · rintro t ⟨⟩
    · exact keeps_next fun _ => freeBitsZero_of_free rfl
  | pkinit => exact keeps_runCommand fun _ => freeBitsZero_of_free rfl
  | pkput => exact keeps_runCommand fun hf => packCode_freeBitsZero ⟨(h.lengths hf).2.2.1, h.carry hf⟩ hz
  | unpack => exact (execUnpack_samePacker h).mono fun _ ht => ht.freeBitsZero hz
  | tser =>
    exact keeps_runCommand fun _ => (serialize_frame _ _ _).mono fun _ _ ht => ht.samePacker.freeBitsZero hz
  | tend => exact keeps_runCommand fun _ => (emitToken_frame _ _).mono fun _ _ ht => ht.samePacker.freeBitsZero hz
  | tdes => exact (execTdes_samePacker h).mono fun _ ht => ht.freeBitsZero hz
  | tokEnd | tokInternal | tokLeaf1 | tokLeaf2 | tokLeaf3 | tokLeaf4 | bitLeft | bitRight => cases hi

/-! The accesses of the host. -/

theorem writeCmd_freeBitsZero {s : State} (h : Inv s) (hz : freeBitsZero s) (v : Operand) :
    Keeps freeBitsZero (writeCmd v s) := by
  unfold writeCmd runOpcode
  split
  · exact keeps_next fun _ => hz
  · split
    · next i hd => exact exec_freeBitsZero h hz (decodeCommand_encode hd).2
    · exact keeps_whenIdle fun _ _ => keeps_enterFault _ _ _

/-- A read of the host while BUSY is refused; else what the read keeps is kept. -/
theorem keeps_hostRead {P : State → Prop} {s : State} {allowed : Bool} {read : State → State} (h : P (read s)) :
    Keeps P (hostRead allowed read s) := by
  unfold hostRead
  split
  · rintro t ⟨⟩
  · exact keeps_next fun _ => h

theorem keeps_hostWrite {P : State → Prop} {s : State} {store : State → State} (h : P (store s)) :
    Keeps P (hostWrite store s) :=
  keeps_whenIdle fun _ _ => keeps_next fun _ => h

/-- A write of PL_LEN clears FREE (R33); no other register's write touches the packer. -/
theorem csrStore_freeBitsZero (n : Nat) (v : Operand) {s : State} (hz : freeBitsZero s) :
    freeBitsZero (csrStore n v s) := by
  unfold csrStore
  split
  case h_4 => exact freeBitsZero_of_free rfl
  all_goals exact hz

/-- A payload byte other than the last may be written (R330). -/
theorem writePlb_freeBitsZero {s : State} {i : Nat} (b : Byte) (hz : freeBitsZero s) (hi : i ≠ s.plLen.toNat - 1) :
    freeBitsZero { s with plb := s.plb.write i b } := by
  intro c hne hc
  refine hz c hne ?_
  rwa [← Memory.read_write_other s.plb b hi]

theorem hostMove_freeBitsZero {s : State} {a : HostAction} (h : Inv s) (hz : freeBitsZero s)
    (ha : ∀ i b, a = .writePlb i b → i ≠ s.plLen.toNat - 1) : Keeps freeBitsZero (hostMove a s) := by
  cases a with
  | csrRead n =>
    refine keeps_hostRead ?_
    rw [csrRead_frame]
    exact hz
  | csrWrite n v =>
    cases n with
    | zero => exact writeCmd_freeBitsZero h hz v
    | succ n => exact keeps_hostWrite (csrStore_freeBitsZero (n + 1) v hz)
  | memRead sp i =>
    refine keeps_hostRead ?_
    rw [memRead_frame]
    exact hz
  | writeNode i r => exact keeps_hostWrite (memStore_keeps hz fun _ => hz)
  | writeTsb i b => exact keeps_hostWrite (memStore_keeps hz fun _ => hz)
  | writePlb i b =>
    exact keeps_hostWrite (memStore_keeps hz fun _ => writePlb_freeBitsZero b hz (ha i b rfl))
  | writeSyb i x => exact keeps_hostWrite hz
  | hwReset => exact keeps_next fun _ => freeBitsZero_of_free rfl

theorem sequencerMove_samePacker {s : State} (h : Inv s) : Keeps (SamePacker s) (sequencerMove s) := by
  unfold sequencerMove
  split
  · next ha => exact tokenStep_samePacker h ha
  · exact bitStep_samePacker s
  · exact keeps_next fun _ => ⟨rfl, rfl, rfl⟩

/-- Settles O56: a token or payload bit leaves the packer alone, and every access of the host but a write of the last
payload byte keeps the free bits 0. -/
theorem stepKeepsFreeBitsZero : Obligations.StepKeepsFreeBitsZero := by
  unfold Obligations.StepKeepsFreeBitsZero
  intro s t h hz hhost
  suffices hk : Keeps freeBitsZero (step s) from hk t
  rcases step_cases s with ⟨-, -, he⟩ | ⟨a, rest, hh, -, he⟩ | ⟨-, he⟩
  · rw [he]
    exact keeps_next fun _ => hz
  · rw [he]
    refine hostMove_freeBitsZero (s := { s with host := rest }) (h.withHost rest) hz fun i b hab => hhost i b ?_
    rw [hh, hab]
    rfl
  · rw [he]
    exact (sequencerMove_samePacker h).mono fun _ ht => ht.freeBitsZero hz

end Sys2Proof.Safety

namespace Sys2Proof.Safety

open Sys2Proof.Machine

/-- Settles O57: every step from a state of the invariant answers a next state. -/
theorem stepAlwaysGoesOn : Obligations.StepAlwaysGoesOn := by
  unfold Obligations.StepAlwaysGoesOn
  intro s h
  obtain ⟨t, ht, -⟩ := (step_inv h).out
  exact ⟨t, ht⟩

end Sys2Proof.Safety

namespace Sys2Proof.Safety

open Sys2Proof.Machine

/-! Where an answer ends, in any state, also in those no run reaches. -/

/-- A next state is a fault entry, or `P` holds of it. -/
def EndsIn (P : State → Prop) : Answer → Prop
  | .next t => (∃ c info u, t = enterFault c info u) ∨ P t
  | .fault _ => True
  | .refused _ => True

theorem endsIn_next {P : State → Prop} {t : State} (h : P t) : EndsIn P (.next t) := .inr h

theorem endsIn_enterFault {P : State → Prop} (c : Cause) (info : BitVec 32) (s : State) :
    EndsIn P (.next (enterFault c info s)) := .inl ⟨c, info, s, rfl⟩

theorem EndsIn.mono {P Q : State → Prop} {o : Answer} (h : EndsIn P o) (hpq : ∀ t, P t → Q t) : EndsIn Q o := by
  cases o with
  | next t => exact h.imp_right (hpq t)
  | fault r => exact trivial
  | refused r => exact trivial

theorem endsIn_finish {P : State → Prop} {m : Run Unit} (h : m.Oks fun _ t => P t) : EndsIn P m.finish := by
  cases m with
  | ok a s => exact endsIn_next h
  | raise c info s => exact endsIn_enterFault c info s
  | stop r => exact trivial

/-- A next state without FAULT is no fault entry. -/
theorem EndsIn.keeps {P : State → Prop} {o : Answer} (h : EndsIn P o) : Keeps P o := by
  rintro t rfl hf
  rcases h with ⟨c, info, u, rfl⟩ | ht
  · simp at hf
  · exact ht

/-- Fault entry ends the command, so a loop after it does nothing. -/
theorem EndsIn.andThen_drive {P : State → Prop} {o : Answer} {f : State → Answer} {n : Nat}
    (h : EndsIn (fun t => EndsIn P (drive f n t)) o) : EndsIn P (andThen o (drive f n)) := by
  cases o with
  | next t =>
    rw [andThen_next]
    rcases h with ⟨c, info, u, rfl⟩ | ht
    · rw [drive_idle f n (enterFault_inFlight u c info)]
      exact endsIn_enterFault c info u
    · exact ht
  | fault r => exact trivial
  | refused r => exact trivial

/-- The loop of a stream-reading command whose turns keep `I` and use up the measure: with as many turns as the
measure, the command is over at the end. -/
theorem drive_endsIn {f : State → Answer} {I : State → Prop} {μ : State → Nat}
    (hf : ∀ s, I s → s.inFlight = true → EndsIn (fun t => I t ∧ (t.inFlight = true → μ t < μ s)) (f s))
    (n : Nat) {s : State} (hI : I s) (hn : s.inFlight = true → μ s ≤ n) :
    EndsIn (fun t => I t ∧ t.inFlight = false) (drive f n s) := by
  induction n generalizing s with
  | zero =>
    cases hfl : s.inFlight with
    | false => rw [drive_idle f 0 hfl]; exact endsIn_next ⟨hI, hfl⟩
    | true =>
      have hlast : drive f 0 s = f s := if_pos hfl
      rw [hlast]
      refine (hf s hI hfl).mono fun t ht => ⟨ht.1, Bool.eq_false_iff.mpr fun hflt => ?_⟩
      have := ht.2 hflt
      have := hn hfl
      omega
  | succ n ih =>
    cases hfl : s.inFlight with
    | false => rw [drive_idle f _ hfl]; exact endsIn_next ⟨hI, hfl⟩
    | true =>
      rw [drive_flight f n hfl]
      refine EndsIn.andThen_drive ((hf s hI hfl).mono fun t ht => ih ht.1 fun hflt => ?_)
      have := ht.2 hflt
      have := hn hfl
      omega

/-! The commands of one stretch. -/

/-- A command of one stretch on an idle block: what its pseudocode changes, with STATUS and scratch as before. -/
theorem idle.keeps_runCommand {P : State → Prop} {s : State} {body : State → Run Unit} (h : idle s)
    (hb : (body (beginCommand s)).Oks fun _ t => t.status = 0b01#2 ∧ P { t with status := s.status, act := s.act }) :
    Keeps P (runCommand body s) :=
  Safety.keeps_runCommand fun _ => hb.mono fun _ t ht => by rw [h.ended ht.1]; exact ht.2

/-- One byte appended to the stream draws no free value and changes TSB at TS_LEN only (R133). -/
theorem emitByte_frame (b : Byte) (s : State) :
    (emitToken [b] s).Oks fun _ t =>
      t = { s with tsLen := t.tsLen, tsb := t.tsb } ∧ sameOutside s.tsb t.tsb s.tsLen.toNat (s.tsLen.toNat + 1) := by
  unfold emitToken
  split
  · exact trivial
  · refine Run.Oks.bind ?_
    unfold appendTsb writeTsb
    split
    · exact ⟨rfl, sameOutside_write _ _ _⟩
    · exact trivial

theorem execNop_keeps {s : State} (h : idle s) : Keeps (fun t => t = s) (execNop s) :=
  h.keeps_runCommand ⟨h.begun, rfl⟩

theorem execPkinit_keeps {s : State} (h : idle s) :
    Keeps (fun t => t = { s with plLen := t.plLen, free := t.free }) (execPkinit s) :=
  h.keeps_runCommand ⟨h.begun, rfl⟩

theorem execPkput_keeps {s : State} (h : idle s) :
    Keeps (fun t => t = { s with plLen := t.plLen, free := t.free, plb := t.plb, draws := t.draws } ∧
      sameOutside s.plb t.plb (packedBits s / 8) t.plLen.toNat) (execPkput s) := by
  refine h.keeps_runCommand ((packCode_frame _).mono fun _ t ht => ?_)
  obtain ⟨heq, houtside, -, -⟩ := ht
  exact ⟨by rw [heq]; exact h.begun, by rw [heq]; rfl, houtside⟩

theorem execTser_keeps {s : State} (h : idle s) :
    Keeps (fun t => t = { s with tsLen := t.tsLen, tsb := t.tsb, draws := t.draws } ∧
      sameOutside s.tsb t.tsb 0 t.tsLen.toNat) (execTser s) := by
  refine h.keeps_runCommand ((serialize_frame _ _ _).mono fun _ t ht => ?_)
  obtain ⟨heq, houtside, -⟩ := ht
  exact ⟨by rw [heq]; exact h.begun, by rw [heq]; rfl, houtside⟩

theorem execTend_keeps {s : State} (h : idle s) :
    Keeps (fun t => t = { s with tsLen := t.tsLen, tsb := t.tsb } ∧
      sameOutside s.tsb t.tsb s.tsLen.toNat (s.tsLen.toNat + 1)) (execTend s) := by
  refine h.keeps_runCommand ((emitByte_frame _ _).mono fun _ t ht => ?_)
  obtain ⟨heq, houtside⟩ := ht
  exact ⟨by rw [heq]; exact h.begun, by rw [heq]; rfl, houtside⟩

/-! STATUS of a command that reads a stream. -/

/-- BUSY alone while a command is in flight, no flag after it. -/
def StatusFollowsFlight (t : State) : Prop := t.status = if t.inFlight then 0b01#2 else 0b00#2

/-- A command in flight that has ended has cleared BUSY. -/
theorem StatusFollowsFlight.ended {s t : State} (h : StatusFollowsFlight s) (hs : s.inFlight = true)
    (ht : t.status = statusEnded s.status) (hact : t.act = .idle) : StatusFollowsFlight t := by
  simp only [StatusFollowsFlight, hs, if_true] at h
  simp [StatusFollowsFlight, ht, h, State.inFlight, hact, statusEnded]

/-- A command still in flight has kept BUSY. -/
theorem StatusFollowsFlight.going {s t : State} (h : StatusFollowsFlight s) (hs : s.inFlight = true)
    (ht : t.status = s.status) (hfl : t.inFlight = true) : StatusFollowsFlight t := by
  simp only [StatusFollowsFlight, hs, hfl, if_true] at h ⊢
  exact ht.trans h

/-- Where a command in flight is over, STATUS and scratch are those of an idle block. -/
theorem StatusFollowsFlight.idle {t : State} (h : StatusFollowsFlight t) (hfl : t.inFlight = false) : idle t := by
  simp only [StatusFollowsFlight, hfl, Bool.false_eq_true, if_false] at h
  exact ⟨h, by simpa [State.inFlight] using hfl⟩

/-! TDES. -/

/-- How many records TDES has stored: its count while it reads tokens, NODE_CNT when it is over. -/
def recordsStored (t : State) : Nat :=
  match t.act with
  | .tokenising _ ntok => ntok
  | .idle | .walking _ _ _ _ => t.nodeCnt.toNat

/-- What TDES may have changed since the idle state it began in. -/
structure TdesFrame (s t : State) : Prop where
  same    : t = { s with root := t.root, tsRpos := t.tsRpos, nodeCnt := t.nodeCnt, nm := t.nm, draws := t.draws,
                         status := t.status, act := t.act }
  status  : StatusFollowsFlight t
  outside : sameOutside s.nm t.nm 0 (recordsStored t)
  bound   : recordsStored t ≤ s.cfg.nn.toNat

/-- The bytes a fetch reads after a token's first lie below TS_LEN. -/
theorem readConts_oks (n : Nat) {q : Nat} {s : State} (hq : q ≤ s.tsLen.toNat) :
    (readConts n q s).Oks fun bs t => t = { s with draws := t.draws } ∧ q + bs.length ≤ s.tsLen.toNat := by
  induction n generalizing q s with
  | zero => exact ⟨rfl, hq⟩
  | succ n ih =>
    unfold readConts
    split
    · exact ⟨rfl, hq⟩
    · refine Run.Oks.bind ((readTsb_oks q s).mono fun b t ht => ?_)
      have hlen : t.tsLen = s.tsLen := by rw [ht]
      split
      · refine Run.Oks.bind ((ih (q := q + 1) (s := t) (by rw [hlen]; omega)).mono fun bs u hu => ?_)
        obtain ⟨hut, hfit⟩ := hu
        rw [hlen] at hfit
        exact ⟨by rw [hut, ht], by rw [List.length_cons]; omega⟩
      · exact ⟨ht, by rw [List.length_singleton]; omega⟩

/-- A fetch draws free values at most, and what it answers is a token of bytes below TS_LEN. -/
theorem fetchToken_oks (p ntok : Nat) (s : State) :
    (fetchToken p ntok s).Oks fun i t =>
      t = { s with draws := t.draws } ∧ 1 ≤ tokenLen i ∧ p + tokenLen i ≤ s.tsLen.toNat := by
  unfold fetchToken
  split
  · exact trivial
  · refine Run.Oks.bind ((readTsb_oks p s).mono fun b0 t ht => ?_)
    have hlen : t.tsLen = s.tsLen := by rw [ht]
    split
    · exact trivial
    · refine Run.Oks.bind ((readConts_oks _ (q := p + 1) (s := t) (by rw [hlen]; omega)).mono fun bs u hu => ?_)
      obtain ⟨hut, hfit⟩ := hu
      rw [hlen] at hfit
      split
      · next i rest hdec =>
        obtain ⟨hpos, htotal⟩ := decodeToken_length hdec
        rw [List.length_cons] at htotal
        exact ⟨by rw [hut, ht], hpos, by omega⟩
      · next e _ => cases e <;> exact trivial

theorem inTokens_endsIn {P : State → Prop} {body : Nat → Nat → State → Run Unit} {p ntok : Nat} {s : State}
    (ha : s.act = .tokenising p ntok) (h : (body p ntok s).Oks fun _ t => P t) : EndsIn P (inTokens body s) := by
  rw [inTokens_flight ha]
  exact endsIn_finish h

/-- What one token of a TDES in flight leaves: one more record stored and its bytes consumed, or, at END, the tree
rebuilt and the command over. -/
def TokenDone (p ntok len : Nat) (s t : State) : Prop :=
  (t = { s with nm := t.nm, act := .tokenising (p + len) (ntok + 1) } ∧ sameOutside s.nm t.nm ntok (ntok + 1) ∧
    ntok < s.cfg.nn.toNat) ∨
  (t = { s with nm := t.nm, root := t.root, tsRpos := BitVec.ofNat 32 (p + 1), nodeCnt := BitVec.ofNat 32 ntok,
                status := statusEnded s.status, act := .idle, draws := t.draws } ∧ sameOutside s.nm t.nm 0 ntok)

theorem runToken_endsIn {i : Instr} {p ntok : Nat} {s : State} (ha : s.act = .tokenising p ntok) :
    EndsIn (TokenDone p ntok (tokenLen i) s) (runToken i s) := by
  have leaf : ∀ ok x len, EndsIn (TokenDone p ntok len s) (inTokens (storeLeaf ok x len) s) := fun ok x len =>
    inTokens_endsIn ha ((storeLeaf_frame ok x len p ntok s).mono fun _ _ ht => .inl ht)
  cases i with
  | tokEnd => exact inTokens_endsIn ha ((finishTree_frame p ntok s).mono fun _ _ ht => .inr ht)
  | tokInternal => exact inTokens_endsIn ha ((storeToken_frame _ _ p ntok s).mono fun _ _ ht => .inl ht)
  | tokLeaf1 x =>
    show EndsIn _ (execTokLeaf1 x s)
    unfold execTokLeaf1
    split
    · exact trivial
    · exact leaf _ _ _
  | tokLeaf2 x => exact leaf _ _ _
  | tokLeaf3 x => exact leaf _ _ _
  | tokLeaf4 x => exact leaf _ _ _
  | nop | reset | pkinit | pkput | unpack | tser | tend | tdes | bitLeft | bitRight => exact trivial

theorem TdesFrame.ofDraws {s t u : State} (h : TdesFrame s t) (hu : u = { t with draws := u.draws }) :
    TdesFrame s u := by
  rw [hu]
  exact ⟨by rw [h.same], h.status, h.outside, h.bound⟩

/-- A token keeps TDES's frame: a record more is stored where the count says, or NODE_CNT takes the count. -/
theorem TdesFrame.token {s t u : State} {p ntok len : Nat} (h : TdesFrame s t) (ha : t.act = .tokenising p ntok)
    (hd : TokenDone p ntok len t u) : TdesFrame s u := by
  have hfl : t.inFlight = true := by simp [State.inFlight, ha]
  have hst : recordsStored t = ntok := by simp only [recordsStored, ha]
  have hout := h.outside
  have hbound := h.bound
  have hcfg : t.cfg = s.cfg := by rw [h.same]
  rw [hst] at hout hbound
  rcases hd with ⟨heq, hnm, hlt⟩ | ⟨heq, hnm⟩
  · have hact : u.act = .tokenising (p + len) (ntok + 1) := by rw [heq]
    have hcount : recordsStored u = ntok + 1 := by simp only [recordsStored, hact]
    refine ⟨by rw [heq, h.same], h.status.going hfl (by rw [heq]) (by simp [State.inFlight, hact]), ?_, ?_⟩
    · rw [hcount]
      exact sameOutside_mono (sameOutside_trans hout hnm) (by omega) (by omega)
    · rw [hcount, ← hcfg]
      exact hlt
  · have hact : u.act = .idle := by rw [heq]
    have hcount : recordsStored u = ntok := by
      have hcap := s.cfg.nn.isLt
      have hcnt : u.nodeCnt = BitVec.ofNat 32 ntok := by rw [heq]
      simp only [recordsStored, hact, hcnt, BitVec.toNat_ofNat]
      exact Nat.mod_eq_of_lt (by omega)
    refine ⟨by rw [heq, h.same], h.status.ended hfl (by rw [heq]) hact, ?_, by rw [hcount]; exact hbound⟩
    rw [hcount]
    exact sameOutside_mono (sameOutside_trans hout hnm) (by omega) (by omega)

/-- One token of a TDES in flight keeps the frame and brings the command nearer its end. -/
theorem tokenStep_frame {s t : State} (h : TdesFrame s t) :
    EndsIn (fun u => TdesFrame s u ∧ (u.inFlight = true → pending u < pending t)) (tokenStep t) := by
  unfold tokenStep
  split
  · next p ntok ha =>
    have hfetch := fetchToken_oks p ntok t
    cases hm : fetchToken p ntok t with
    | ok i v =>
      rw [hm] at hfetch
      obtain ⟨hv, hpos, hfit⟩ := hfetch
      have hav : v.act = .tokenising p ntok := by rw [hv]; exact ha
      refine (runToken_endsIn hav).mono fun u hu => ⟨(h.ofDraws hv).token hav hu, fun hfl => ?_⟩
      rcases hu with ⟨heq, -, -⟩ | ⟨heq, -⟩
      · have hlen : u.tsLen = t.tsLen := by rw [heq, hv]
        have hact : u.act = .tokenising (p + tokenLen i) (ntok + 1) := by rw [heq]
        simp only [pending, ha, hact, hlen]
        omega
      · rw [heq] at hfl
        simp [State.inFlight] at hfl
    | raise c info v => exact endsIn_enterFault c info v
    | stop r => exact trivial
  all_goals exact trivial

theorem execTdes_keeps {s : State} (h : idle s) :
    Keeps (fun t => t = { s with root := t.root, tsRpos := t.tsRpos, nodeCnt := t.nodeCnt, nm := t.nm,
                                 draws := t.draws } ∧ sameOutside s.nm t.nm 0 t.nodeCnt.toNat) (execTdes s) := by
  unfold execTdes
  rw [h.accepts]
  have hstart : TdesFrame s { beginCommand s with act := .tokenising 0 0 } :=
    ⟨rfl, h.begun, sameOutside_refl _ _ _, Nat.zero_le _⟩
  refine EndsIn.keeps ((drive_endsIn (μ := pending) (fun t ht _ => tokenStep_frame ht) _ hstart fun _ => ?_).mono
    fun t ht => ?_)
  · exact Nat.le_refl _
  · obtain ⟨hframe, hfl⟩ := ht
    obtain ⟨hstatus, hact⟩ := hframe.status.idle hfl
    have heq := hframe.same
    have hout := hframe.outside
    rw [hstatus, hact, ← h.1, ← h.2] at heq
    simp only [recordsStored, hact] at hout
    exact ⟨heq, hout⟩

/-! UNPACK. -/

/-- What UNPACK may have changed since the idle state it began in. -/
structure UnpackFrame (s t : State) : Prop where
  same    : t = { s with syLen := t.syLen, plRpos := t.plRpos, syb := t.syb, draws := t.draws, status := t.status,
                         act := t.act }
  status  : StatusFollowsFlight t
  outside : sameOutside s.syb t.syb 0 t.syLen.toNat

/-- A fetched payload bit is in hand: the walk holds it among its unread bits, and none of the payload is lost. -/
theorem fetchBit_inHand {T : Operand} {cur : Idx} {byte : Byte} {unread : Nat} {s : State}
    (ha : s.act = .walking T cur byte unread) :
    (fetchBit T cur byte unread s).Oks fun _ t =>
      (∃ b k, t.act = .walking T cur b (k + 1)) ∧ pending t = pending s := by
  unfold fetchBit
  split
  · next hzero =>
    split
    · exact trivial
    · refine Run.Oks.bind ((readPlb_oks _ s).mono fun b t ht => ⟨⟨b, 7, rfl⟩, ?_⟩)
      have hpos : (t.plRpos + 1#32).toNat = s.plRpos.toNat + 1 := by
        rw [show t.plRpos = s.plRpos by rw [ht]]
        exact toNat_add_one (n := s.plLen.toNat) (by omega) cap_le
      have hlen : t.plLen = s.plLen := by rw [ht]
      simp only [pending, ha, hpos, hlen]
      omega
  · next hne =>
    obtain ⟨k, rfl⟩ := Nat.exists_eq_succ_of_ne_zero hne
    exact ⟨⟨byte, k, ha⟩, rfl⟩

theorem runBit_decodeBit (b : Bool) (s : State) : runBit (decodeBit b) s = inWalk b s := by cases b <;> rfl

/-- What one payload bit of an UNPACK in flight leaves keeps the frame, with one bit less to read. -/
theorem walkTo_unpackFrame {right : Bool} {T : Operand} {cur : Idx} {byte : Byte} {k : Nat} {s t : State}
    (h : UnpackFrame s t) (ha : t.act = .walking T cur byte (k + 1)) :
    (walkTo right T cur byte k t).Oks fun _ u =>
      UnpackFrame s u ∧ (u.inFlight = true → pending u < pending t) := by
  have hfl : t.inFlight = true := by simp [State.inFlight, ha]
  refine (walkTo_frame right T cur byte k t).mono fun _ u hu => ?_
  obtain ⟨heq, -, hle, hsyb, hend⟩ := hu
  have hsame : u = { s with syLen := u.syLen, plRpos := u.plRpos, syb := u.syb, draws := u.draws, status := u.status,
                            act := u.act } := by rw [heq, h.same]
  have hout : sameOutside s.syb u.syb 0 u.syLen.toNat :=
    sameOutside_mono (sameOutside_trans h.outside hsyb) (by omega) (by omega)
  rcases hend with ⟨hact, hst⟩ | ⟨⟨c, hact⟩, hst⟩
  · exact ⟨⟨hsame, h.status.ended hfl hst hact, hout⟩, fun hflu => by simp [State.inFlight, hact] at hflu⟩
  · refine ⟨⟨hsame, h.status.going hfl hst (by simp [State.inFlight, hact]), hout⟩, fun _ => ?_⟩
    have hlen : u.plLen = t.plLen := by rw [heq]
    have hpos : u.plRpos = t.plRpos := by rw [heq]
    simp only [pending, ha, hact, hlen, hpos]
    omega

/-- One payload bit of an UNPACK in flight keeps the frame and brings the command nearer its end. -/
theorem bitStep_frame {s t : State} (h : UnpackFrame s t) :
    EndsIn (fun u => UnpackFrame s u ∧ (u.inFlight = true → pending u < pending t)) (bitStep t) := by
  unfold bitStep
  split
  · next T cur byte unread ha =>
    have hfetch := fetchBit_frame T cur byte unread t
    have hhand := fetchBit_inHand ha
    cases hm : fetchBit T cur byte unread t with
    | ok i v =>
      rw [hm] at hfetch hhand
      obtain ⟨⟨b, rfl⟩, hv⟩ := hfetch
      obtain ⟨⟨byte', k, hav⟩, hpend⟩ := hhand
      have hstatus : StatusFollowsFlight v := h.status.going (by simp [State.inFlight, ha]) (by rw [hv])
        (by simp [State.inFlight, hav])
      have hframe : UnpackFrame s v := ⟨by rw [hv, h.same], hstatus, by rw [hv]; exact h.outside⟩
      show EndsIn _ (runBit (decodeBit b) v)
      rw [runBit_decodeBit, ← hpend]
      simp only [inWalk, hav]
      exact endsIn_finish (walkTo_unpackFrame hframe hav)
    | raise c info v => exact endsIn_enterFault c info v
    | stop r => exact trivial
  all_goals exact trivial

/-- An UNPACK that ends in its start, with no symbol or the root's symbols stored, ends in the frame (R201, R203). -/
theorem unpackFrame_endCommand {s t : State} (h : idle s)
    (ht : t = { beginCommand s with syLen := t.syLen, plRpos := t.plRpos, syb := t.syb, draws := t.draws })
    (hout : sameOutside s.syb t.syb 0 t.syLen.toNat) : UnpackFrame s (endCommand t) := by
  have hst : t.status = 0b01#2 := by rw [ht]; exact h.begun
  exact ⟨by rw [ht]; rfl, by rw [StatusFollowsFlight, endCommand_status, hst]; rfl, hout⟩

/-- UNPACK's start keeps the frame; in flight, the whole payload is still to read. -/
theorem startUnpack_frame {s : State} (h : idle s) :
    (startUnpack (beginCommand s)).Oks fun _ t =>
      UnpackFrame s t ∧ (t.inFlight = true → pending t ≤ 8 * s.plLen.toNat) := by
  have ended : ∀ t, UnpackFrame s (endCommand t) →
      UnpackFrame s (endCommand t) ∧ ((endCommand t).inFlight = true → pending (endCommand t) ≤ 8 * s.plLen.toNat) :=
    fun t ht => ⟨ht, fun hfl => by simp at hfl⟩
  unfold startUnpack
  simp only
  split
  · exact ended _ (unpackFrame_endCommand h rfl (sameOutside_refl _ _ _))
  · split
    · exact trivial
    · split
      · exact trivial
      · refine Run.Oks.bind ((readNm_oks _ _).mono fun r t ht => ?_)
        obtain ⟨ht, -⟩ := ht
        split
        · refine Run.Oks.bind ((emitRoot_frame _ t).mono fun _ u hu => ?_)
          obtain ⟨hu, -, hout⟩ := hu
          rw [show t.syb = s.syb by rw [ht]; rfl, show t.syLen = 0#32 by rw [ht]] at hout
          exact ended u (unpackFrame_endCommand h (by rw [hu, ht]) hout)
        · rw [ht]
          refine ⟨⟨rfl, h.begun, sameOutside_refl _ _ _⟩, fun _ => ?_⟩
          simp [pending]

theorem execUnpack_keeps {s : State} (h : idle s) :
    Keeps (fun t => t = { s with syLen := t.syLen, plRpos := t.plRpos, syb := t.syb, draws := t.draws } ∧
      sameOutside s.syb t.syb 0 t.syLen.toNat) (execUnpack s) := by
  unfold execUnpack
  rw [h.accepts]
  refine EndsIn.keeps (EndsIn.andThen_drive ((endsIn_finish (startUnpack_frame h)).mono fun u hu =>
    (drive_endsIn (μ := pending) (fun t ht _ => bitStep_frame ht) _ hu.1 hu.2).mono fun t ht => ?_))
  obtain ⟨hframe, hfl⟩ := ht
  obtain ⟨hstatus, hact⟩ := hframe.status.idle hfl
  have heq := hframe.same
  rw [hstatus, hact, ← h.1, ← h.2] at heq
  exact ⟨heq, hframe.outside⟩

/-- Settles O44: a command of one stretch by the frame of its pseudocode, TDES and UNPACK by a frame that every token
and every payload bit keeps. -/
theorem commandFrames : Obligations.CommandFrames := by
  unfold Obligations.CommandFrames
  intro s t i h he hf
  cases i with
  | nop => exact execNop_keeps h t he hf
  | pkinit => exact execPkinit_keeps h t he hf
  | pkput => exact execPkput_keeps h t he hf
  | unpack => exact execUnpack_keeps h t he hf
  | tser => exact execTser_keeps h t he hf
  | tend => exact execTend_keeps h t he hf
  | tdes => exact execTdes_keeps h t he hf
  | reset | tokEnd | tokInternal | tokLeaf1 | tokLeaf2 | tokLeaf3 | tokLeaf4 | bitLeft | bitRight => exact trivial

end Sys2Proof.Safety

namespace Sys2Proof

/-! Words and instructions: a stream's words decode to an instruction exactly where they are its encoding. -/

/-- Bytes are one token's words where the token decoder reads that token and nothing is left over. -/
theorem decode_token {bs : List Byte} {i : Instr} : decode (.token bs) = .ok i ↔ decodeToken bs = .ok (i, []) := by
  simp only [decode]
  split
  · next j hd => rw [hd]; simp
  · next hd => rw [hd]; simp
  · next e hd => rw [hd]; simp

/-- The opcode of a command decodes to it (R91). -/
theorem decodeCommand_of_encode {i : Instr} {b : Byte} (h : encode i = .command b) : decodeCommand b = .ok i := by
  cases i with
  | nop | reset | pkinit | pkput | unpack | tser | tend | tdes => cases h; rfl
  | tokEnd | tokInternal | tokLeaf1 | tokLeaf2 | tokLeaf3 | tokLeaf4 | bitLeft | bitRight => cases h

/-- An instruction encoded as a payload bit is what the bit decodes to (R111). -/
theorem decodeBit_of_encode {i : Instr} {b : Bool} (h : encode i = .bit b) : decodeBit b = i := by
  cases i with
  | bitLeft | bitRight => cases h; rfl
  | nop | reset | pkinit | pkput | unpack | tser | tend | tdes | tokEnd | tokInternal | tokLeaf1 | tokLeaf2 | tokLeaf3
    | tokLeaf4 => cases h

theorem encode_decodeBit (b : Bool) : encode (decodeBit b) = .bit b := by cases b <;> rfl

/-- Settles O50: by the stream the instruction's words stand in. -/
theorem decodeOfEncode : Obligations.DecodeOfEncode := by
  unfold Obligations.DecodeOfEncode
  intro i hw
  cases he : encode i with
  | command b => exact decodeCommand_of_encode he
  | token bs =>
    have hd := decodeToken_encode [] hw he
    rw [List.append_nil] at hd
    exact decode_token.mpr hd
  | bit b => exact congrArg Except.ok (decodeBit_of_encode he)

/-- Settles O51: by the stream of the words; a token decoded with nothing left over took all of them. -/
theorem encodeOfDecode : Obligations.EncodeOfDecode := by
  unfold Obligations.EncodeOfDecode
  intro c i h
  cases c with
  | command b => exact (Safety.decodeCommand_encode h).1
  | token bs =>
    obtain ⟨ts, hbs, he⟩ := encode_decodeToken (decode_token.mp h)
    rw [he, hbs, List.append_nil]
  | bit b =>
    obtain rfl := Except.ok.inj h
    exact encode_decodeBit b

/-- Settles O52: `Utf8Enc` of a symbol is the encoding of its leaf token. -/
theorem utf8RoundTrip : Obligations.Utf8RoundTrip := by
  unfold Obligations.Utf8RoundTrip
  intro x rest hx h2
  obtain ⟨he, hw, hsym, hlen, -⟩ := leafToken_spec hx h2
  exact ⟨leafToken x, decodeToken_encode rest hw he, hsym, hlen, hw⟩

/-- Settles O53: each accepted word is its instruction's encoding; 0x12 is no opcode. -/
theorem specWordsDecode : Obligations.SpecWordsDecode := by
  unfold Obligations.SpecWordsDecode
  exact ⟨decodeOfEncode .pkput rfl, decodeOfEncode .tend rfl, decodeOfEncode .tdes rfl, rfl,
    decodeOfEncode .tokInternal rfl, decodeOfEncode (.tokLeaf1 0x61#7) rfl, decodeOfEncode (.tokLeaf2 0xE9#11) rfl,
    decodeOfEncode (.tokLeaf3 0x20AC#16) rfl, decodeOfEncode (.tokLeaf4 0x1F600#21) rfl, decodeOfEncode .bitRight rfl⟩

end Sys2Proof

namespace Sys2Proof.Safety

open Sys2Proof.Machine

/-- An answer that enters the faulted state with a cause of code `n` (R283). -/
theorem answers_faultedWith {o : Answer} {c : Cause} {n : Nat} {info : BitVec 32} {s : State}
    (h : o = .next (enterFault c info s)) (hc : c.code = BitVec.ofNat 8 n) :
    ∃ t, o = .next t ∧ faultedWith t n info :=
  ⟨_, h, faultedWith_enterFault hc _ _⟩

/-! An opcode outside the map. -/

theorem decodeCommand_illegal {b : Byte} (h : b ∉ opcodes) : decodeCommand b = .error .illegalOpcode := by
  simp only [opcodes, List.mem_cons, List.not_mem_nil, not_or, or_false] at h
  simp only [decodeCommand, h, if_false]

/-- An opcode outside the map, written to CMD on an idle block, raises CmdIllegal (R93). -/
theorem writeCmd_illegal {s : State} {v : Operand} (hi : idle s) (h : v.setWidth 8 ∉ opcodes) :
    writeCmd v s = .next (enterFault .cmdIllegal ((v.setWidth 8 : Byte).setWidth 32) s) := by
  rw [writeCmd_accepted fun hf => absurd (hi.faulted.symm.trans hf) Bool.false_ne_true]
  simp only [runOpcode, decodeCommand_illegal h]
  exact hi.accepts _

/-- Settles O8: the step is the host's write of CMD. -/
theorem illegalOpcodeRaisesCmdIllegal : Obligations.IllegalOpcodeRaisesCmdIllegal := by
  unfold Obligations.IllegalOpcodeRaisesCmdIllegal
  intro s v rest hi hh hv
  have hstep : step s = writeCmd v { s with host := rest } := step_host hi.2 hh
  exact answers_faultedWith (hstep.trans (writeCmd_illegal (s := { s with host := rest }) hi hv)) rfl

/-! Codes outside their stream. -/

/-- No command starts while one is in flight (U2). -/
theorem exec_busy {s : State} {i : Instr} (hb : s.busy = true) (hf : s.faulted = false) (hc : isCommand i = true) :
    exec i s = .refused .hostWhileBusy := by
  have hw : ∀ run, whenIdle s run = .refused .hostWhileBusy := fun run => whenIdle_busy run hf hb
  cases i with
  | reset => simp only [exec, execReset, hb, hf, Bool.not_false, Bool.and_self, if_true]
  | nop | pkinit | pkput | unpack | tser | tend | tdes =>
    simp only [exec, execNop, execPkinit, execPkput, execTser, execTend, execUnpack, execTdes, runCommand, hw]
  | tokEnd | tokInternal | tokLeaf1 | tokLeaf2 | tokLeaf3 | tokLeaf4 | bitLeft | bitRight => cases hc

theorem inTokens_idle {s : State} (body : Nat → Nat → State → Run Unit) (ha : s.act = .idle) :
    inTokens body s = .refused .outsideStream := by
  simp only [inTokens, ha]

theorem inWalk_idle {s : State} (right : Bool) (ha : s.act = .idle) : inWalk right s = .refused .outsideStream := by
  simp only [inWalk, ha]

/-! Leaf tokens of all forms (R103, R105). -/

/-- A symbol of 16 bits above the shorter forms is in its form's range where it is a scalar value. -/
theorem wellFormed_leaf3 (y : BitVec 16) :
    (Instr.tokLeaf3 y).wellFormed = (decide (0x800 ≤ y.toNat) && isScalar (y.setWidth 21)) := by
  have hy := y.isLt
  have e : (y.setWidth 21 : Sym).toNat = y.toNat := by
    rw [BitVec.toNat_setWidth, Nat.mod_eq_of_lt (by omega)]
  rw [Bool.eq_iff_iff]
  simp only [Instr.wellFormed, isScalar, e, Bool.and_eq_true, decide_eq_true_eq, Bool.not_eq_true',
    Bool.and_eq_false_iff, decide_eq_false_iff_not]
  omega

/-- A symbol above the shorter forms is in the longest form's range where it is a scalar value. -/
theorem wellFormed_leaf4 (x : Sym) :
    (Instr.tokLeaf4 x).wellFormed = (decide (0x10000 ≤ x.toNat) && isScalar x) := by
  rw [Bool.eq_iff_iff]
  simp only [Instr.wellFormed, isScalar, Bool.and_eq_true, decide_eq_true_eq, Bool.not_eq_true',
    Bool.and_eq_false_iff, decide_eq_false_iff_not]
  omega

/-- The meaning of a leaf token is one for all four forms: its symbol is stored if the token is well formed, and takes
the form's bytes. The terms `tokLeaf1 0` and `tokLeaf1 1` are left out: no bytes encode them (R106). -/
theorem exec_leaf_eq {i : Instr} {x : Sym} (s : State) (hx : leafSym i = some x)
    (h1 : ∀ y, i = .tokLeaf1 y → 2 ≤ y.toNat) :
    exec i s = inTokens (storeLeaf i.wellFormed x (tokenLen i)) s := by
  cases i with
  | tokLeaf1 y =>
    cases hx
    have hy := h1 y rfl
    have hw : (Instr.tokLeaf1 y).wellFormed = true := decide_eq_true hy
    rw [hw]
    exact if_neg (by omega)
  | tokLeaf2 y => cases hx; rfl
  | tokLeaf3 y => cases hx; rw [wellFormed_leaf3]; rfl
  | tokLeaf4 y => cases hx; rw [wellFormed_leaf4]; rfl
  | nop | reset | pkinit | pkput | unpack | tser | tend | tdes | tokEnd | tokInternal | bitLeft | bitRight => cases hx

theorem two_le_of_wellFormed {i : Instr} (hw : i.wellFormed = true) : ∀ y, i = .tokLeaf1 y → 2 ≤ y.toNat := by
  rintro y rfl
  exact of_decide_eq_true hw

theorem two_le_of_leafSym {i : Instr} {x : Sym} (hx : leafSym i = some x) (h2 : 2 ≤ x.toNat) :
    ∀ y, i = .tokLeaf1 y → 2 ≤ y.toNat := by
  rintro y rfl
  cases hx
  rw [BitVec.toNat_setWidth] at h2
  exact h2.trans (Nat.mod_le _ _)

/-- A token or payload bit between commands has no meaning (log 9). -/
theorem exec_outsideStream {s : State} {i : Instr} (ha : s.act = .idle) (hc : isCommand i = false)
    (hw : i.wellFormed = true) : exec i s = .refused .outsideStream := by
  have leaf : ∀ {x}, leafSym i = some x → exec i s = .refused .outsideStream := fun hx => by
    rw [exec_leaf_eq s hx (two_le_of_wellFormed hw), inTokens_idle _ ha]
  cases i with
  | tokEnd | tokInternal => exact inTokens_idle _ ha
  | tokLeaf1 | tokLeaf2 | tokLeaf3 | tokLeaf4 => exact leaf rfl
  | bitLeft | bitRight => exact inWalk_idle _ ha
  | nop | reset | pkinit | pkput | unpack | tser | tend | tdes => cases hc

/-- Settles O43: acceptance refuses a command while BUSY, and a token or bit acts on the scratch of its command. -/
theorem codesOutOfPlaceAreRefused : Obligations.CodesOutOfPlaceAreRefused := by
  unfold Obligations.CodesOutOfPlaceAreRefused
  exact ⟨fun _ _ => exec_busy, fun _ _ => exec_outsideStream⟩

/-! Tokens that are stored. -/

/-- Settles O24: the token's record is written at the count. -/
theorem internalTokenStoresNode : Obligations.InternalTokenStoresNode := by
  unfold Obligations.InternalTokenStoresNode
  intro s p ntok ha hn
  exact ⟨_, exec_tokInternal ha hn, Memory.read_write_same _ _ _, rfl, sameOutside_write _ _ _⟩

/-- Settles O25: the token's record is written at the count, whichever form the token has. -/
theorem leafTokenStoresSymbol : Obligations.LeafTokenStoresSymbol := by
  unfold Obligations.LeafTokenStoresSymbol
  intro s p ntok i x ha hn hx hw
  exact ⟨_, exec_leaf ha hn hx hw, Memory.read_write_same _ _ _, rfl, sameOutside_write _ _ _⟩

/-! Tokens that raise a fault. -/

theorem storeToken_full {r : NodeRec} {len p ntok : Nat} {s : State} (hn : s.cfg.nn.toNat ≤ ntok) :
    storeToken r len p ntok s = .raise .nodeOverflow (BitVec.ofNat 32 p) s := if_pos hn

theorem storeLeaf_full {ok : Bool} {x : Sym} {len p ntok : Nat} {s : State} (hn : s.cfg.nn.toNat ≤ ntok) :
    storeLeaf ok x len p ntok s = .raise .nodeOverflow (BitVec.ofNat 32 p) s := if_pos hn

theorem storeLeaf_malformed {x : Sym} {len p ntok : Nat} {s : State} (hn : ntok < s.cfg.nn.toNat) :
    storeLeaf false x len p ntok s = .raise .utf8Malformed (BitVec.ofNat 32 p) s := if_neg (Nat.not_le.mpr hn)

/-- With NN tokens stored a further token raises NodeOverflow (R153). -/
theorem exec_token_full {i : Instr} {p ntok : Nat} {s : State} (ha : s.act = .tokenising p ntok)
    (hn : s.cfg.nn.toNat ≤ ntok) (hi : i = .tokInternal ∨ ∃ x, leafSym i = some x ∧ 2 ≤ x.toNat) :
    exec i s = .next (enterFault .nodeOverflow (BitVec.ofNat 32 p) s) := by
  rcases hi with rfl | ⟨x, hx, h2⟩
  · show inTokens (storeToken internalRec 1) s = _
    rw [inTokens_flight ha, storeToken_full hn, Run.finish_raise]
  · rw [exec_leaf_eq s hx (two_le_of_leafSym hx h2), inTokens_flight ha, storeLeaf_full hn, Run.finish_raise]

/-- A leaf token whose symbol is outside its form's range raises Utf8Malformed (R105). -/
theorem exec_leaf_malformed {i : Instr} {x : Sym} {p ntok : Nat} {s : State} (ha : s.act = .tokenising p ntok)
    (hn : ntok < s.cfg.nn.toNat) (hx : leafSym i = some x) (hw : i.wellFormed = false) (h1 : ∀ y, i ≠ .tokLeaf1 y) :
    exec i s = .next (enterFault .utf8Malformed (BitVec.ofNat 32 p) s) := by
  rw [exec_leaf_eq s hx fun y hy => absurd hy (h1 y), hw, inTokens_flight ha, storeLeaf_malformed hn, Run.finish_raise]

/-- A step of a TDES in flight takes its next token, where the host's next access waits. -/
theorem step_tokenStep {s : State} {p ntok : Nat} (ha : s.act = .tokenising p ntok) (hw : hostWaits s) :
    step s = tokenStep s := by
  rw [step_sequencer (by rw [ha]; exact Activity.noConfusion) hw]
  simp only [sequencerMove, ha]

/-- Settles O26: a token by its meaning, a step by the fetch of its bytes, and TDES by that step after the tokens that
come before. -/
theorem tokenFaults : Obligations.TokenFaults := by
  unfold Obligations.TokenFaults
  refine ⟨?_, ?_, ?_, ?_, ?_, ?_⟩
  · intro s p ntok i ha hn hi
    exact answers_faultedWith (exec_token_full ha hn hi) rfl
  · intro s p ntok i x ha hn hx hw h1
    exact answers_faultedWith (exec_leaf_malformed ha hn hx hw h1) rfl
  · intro s p ntok b ha hw hn hst hb
    exact answers_faultedWith ((step_tokenStep ha hw).trans (tokenStep_full ha hst hb hn)) rfl
  · intro s p ntok n b0 b cs ha hw hn hb0 hcs hb hl hst
    exact answers_faultedWith ((step_tokenStep ha hw).trans (tokenStep_bad ha hst hb0 hcs hb hl hn)) rfl
  · intro s ts b hi hts hlen hst hb
    obtain ⟨hpre, hlast⟩ := streamAt_append.mp hst
    rw [Nat.zero_add] at hlast
    obtain ⟨u, hu⟩ := tdes_raises hi hts hpre hlen.le fun m => tokenStep_full rfl hlast hb hlen.ge
    exact answers_faultedWith hu rfl
  · intro s ts n b0 b cs hi hts hlen hb0 hcs hb hl hst
    obtain ⟨hpre, hlast⟩ := streamAt_append.mp hst
    rw [Nat.zero_add] at hlast
    obtain ⟨u, hu⟩ := tdes_raises hi hts hpre hlen.le fun m => tokenStep_bad rfl hlast hb0 hcs hb hl hlen
    exact answers_faultedWith hu rfl

/-- The bytes 0x80 to 0xC1 and 0xF5 to 0xFF announce no token (R107). -/
theorem contCount_badLead {b : Byte} (hb : (0x80 ≤ b.toNat ∧ b.toNat ≤ 0xC1) ∨ 0xF5 ≤ b.toNat) :
    contCount b = none := by
  unfold contCount
  simp only [Bool.and_eq_true, decide_eq_true_eq]
  rw [if_neg (by omega), if_neg (by omega), if_neg (by omega), if_neg (by omega)]

theorem decodeToken_badLead {b : Byte} (bs : List Byte) (h : contCount b = none) :
    decodeToken (b :: bs) = .error .badLead := by
  have h0 : b ≠ 0x00#8 := by rintro rfl; cases h
  have h1 : b ≠ 0x01#8 := by rintro rfl; cases h
  simp only [decodeToken, h0, h1, if_false, h]

/-- A first byte that begins no token raises Utf8Malformed at its index (R107). -/
theorem tokenStep_badLead {p ntok : Nat} {b : Byte} {s : State} (ha : s.act = .tokenising p ntok)
    (hst : streamAt s p [b]) (hn : ntok < s.cfg.nn.toNat)
    (hb : (0x80 ≤ b.toNat ∧ b.toNat ≤ 0xC1) ∨ 0xF5 ≤ b.toNat) :
    tokenStep s = .next (enterFault .utf8Malformed (BitVec.ofNat 32 p) s) := by
  obtain ⟨hholds, hlen, hcap⟩ := hst
  rw [List.length_singleton] at hlen
  have hnone := contCount_badLead hb
  have hfetch : fetchToken p ntok s = .raise .utf8Malformed (BitVec.ofNat 32 p) s := by
    unfold fetchToken
    rw [if_neg (by omega), readTsb_defined (holdsAt_cons.mp hholds).1 (by omega), Run.bind_ok, if_neg (by omega), hnone]
    simp only [Option.getD_none, readConts, Run.bind_ok, decodeToken_badLead [] hnone, rejectToken]
  simp only [tokenStep, ha, hfetch, runFetched]

/-- Settles O27: the step fetches the byte, and no token begins with it. -/
theorem badFirstByteRaisesUtf8Malformed : Obligations.BadFirstByteRaisesUtf8Malformed := by
  unfold Obligations.BadFirstByteRaisesUtf8Malformed
  intro s p ntok b ha hw hst hn hb
  exact answers_faultedWith ((step_tokenStep ha hw).trans (tokenStep_badLead ha hst hn hb)) rfl

/-! END after the tokens of a whole tree. -/

/-- Phase 2 on exactly the tokens of one tree: nothing is left over and the root is record 0 (R152, R153). -/
theorem rebuildTree_tree {s : State} {t : CodeTree} (hn : t.size ≤ s.cfg.nn.toNat) (hrec : holdsAt s.nm 0 t.records) :
    ∃ m, rebuildTree t.size s = .ok 0#32 { s with nm := m } ∧ sameOutside s.nm m 0 t.size ∧
      (t.renumber 0).heldIn { s with nm := m } = true ∧ holdsAt m 0 (t.renumber 0).linked := by
  obtain ⟨m, hm, hout, hheld, hlinked⟩ :=
    rebuild_tree (ntok := t.size) t (t.size + 1) 0 hrec (by omega) hn (by omega)
  rw [Nat.zero_add] at hm hout
  refine ⟨m, ?_, hout, hheld, hlinked⟩
  have hpos : t.size ≠ 0 := by have := t.size_pos; omega
  simp only [rebuildTree, hpos, if_false, hm, Run.bind_ok, if_true]

/-- END where phase 2 goes on: NM as rebuilt, then END's own writes (R101, R153). -/
theorem exec_tokEnd_rebuilt {s : State} {p ntok : Nat} {root : Idx} {m : Memory NodeRec}
    (ha : s.act = .tokenising p ntok) (hm : rebuildTree ntok s = .ok root { s with nm := m }) :
    exec .tokEnd s =
      .next { s with nm := m, root := root, tsRpos := BitVec.ofNat 32 (p + 1), nodeCnt := BitVec.ofNat 32 ntok,
                     status := statusEnded s.status, act := .idle } := by
  show inTokens finishTree s = _
  rw [inTokens_flight ha, finishTree, hm]
  rfl

/-- Settles O28: phase 2 rebuilds the tree, and END's own writes end the command. -/
theorem endTokenRebuildsTree : Obligations.EndTokenRebuildsTree := by
  unfold Obligations.EndTokenRebuildsTree
  intro s p t ha hn hrec
  obtain ⟨m, hm, hout, hheld, hlinked⟩ := rebuildTree_tree hn hrec
  exact ⟨_, exec_tokEnd_rebuilt ha hm, CodeTree.heldIn_same hheld rfl rfl, hlinked, rfl, hout⟩

end Sys2Proof.Safety

namespace Sys2Proof.Safety

open Sys2Proof.Machine

/-! A leaf that TSER comes to and the stream cannot carry. -/

theorem emitLeaf_bad {n : Idx} {x : Sym} (s : State) (h : isScalar x = false ∨ isReserved x = true) :
    emitLeaf n x s = .raise (if isReserved x then .symReserved else .symInvalid) n s := by
  unfold emitLeaf
  cases hr : isReserved x with
  | true => rfl
  | false =>
    have hx : isScalar x = false := h.resolve_right (by simp [hr])
    simp [hx]

/-- A bad leaf on top of the stack, with a visit left, raises its cause at its index, whatever is below it (R132). -/
theorem serialize_badLeaf {n : Idx} {r : NodeRec} {s : State} (budget : Nat) (stack : List Idx)
    (hn : n.toNat < s.cfg.nn.toNat) (hr : s.nm.read n.toNat = some r) (hk : r.kind = .leaf)
    (hbad : isScalar r.sym = false ∨ isReserved r.sym = true) :
    serialize (budget + 1) (n :: stack) s = .raise (if isReserved r.sym then .symReserved else .symInvalid) n s := by
  rw [serialize_leaf budget stack (CodeTree.heldIn_leaf.mpr ⟨hn, r, hr, hk, rfl⟩), emitLeaf_bad s hbad, Run.bind_raise]

/-- The code of the cause that a leaf the stream cannot carry raises (R281). -/
theorem badLeaf_code (x : Sym) :
    (if isReserved x then Cause.symReserved else Cause.symInvalid).code =
      BitVec.ofNat 8 (if isReserved x then 11 else 12) := by
  cases isReserved x <;> rfl

/-- An index that names no record, or one more than the visits allowed, raises TreeMalformed (R132). -/
theorem serialize_malformed {n : Idx} {budget : Nat} {s : State} (stack : List Idx)
    (h : s.cfg.nn.toNat ≤ n.toNat ∨ budget = 0) : serialize budget (n :: stack) s = .raise .treeMalformed n s := by
  cases budget with
  | zero => rfl
  | succ budget =>
    have hn : s.cfg.nn.toNat ≤ n.toNat := h.resolve_right (Nat.succ_ne_zero budget)
    unfold serialize
    rw [if_pos hn]

theorem serialize_nil (budget : Nat) (s : State) : serialize budget [] s = .ok () s := by cases budget <;> rfl

/-! TSER on an idle block, by how its loop ends. -/

/-- NONE is at or above every NN (R29). -/
theorem root_ne_none {s : State} (h : s.root.toNat < s.cfg.nn.toNat) : s.root ≠ Idx.none := by
  intro hroot
  have hnone : s.root.toNat = 4294967295 := congrArg BitVec.toNat hroot
  have := s.cfg.nn.isLt
  omega

theorem CodeTree.root_ne_none {s : State} {t : CodeTree} (h : t.heldIn s = true) (hroot : s.root = t.index) :
    s.root ≠ Idx.none := by
  have hidx : t.index ∈ t.nodes := by cases t <;> simp [CodeTree.index, CodeTree.nodes]
  refine Safety.root_ne_none ?_
  rw [hroot]
  exact t.heldIn_index h _ hidx

theorem Part.root_ne_none {s : State} {p : Part} {n : Idx} (h : p.heldIn s = true) (hroot : s.root = p.index)
    (hstop : p.firstStop = some n) (hn : n.toNat < s.cfg.nn.toNat) : s.root ≠ Idx.none := by
  refine Safety.root_ne_none ?_
  rw [hroot]
  cases p with
  | stop i => cases hstop; exact hn
  | leaf i x => cases hstop
  | node i l r =>
    simp only [Part.heldIn, Bool.and_eq_true, decide_eq_true_eq] at h
    obtain ⟨⟨⟨hidx, -⟩, -⟩, -⟩ := h
    exact hidx

/-- The state TSER's loop begins in: BUSY is set and TS_LEN is 0 (R132). -/
def tserStart (s : State) : State := { beginCommand s with tsLen := 0#32 }

theorem serializeTree_rooted {s : State} (hroot : s.root ≠ Idx.none) :
    serializeTree (beginCommand s) = serialize s.cfg.nn.toNat [s.root] (tserStart s) := by
  simp only [serializeTree, beginCommand_root, beginCommand_cfg, hroot, if_false, tserStart]

/-- TSER faults as its loop does within the visits that NN allows (R132). -/
theorem tser_faults {s : State} {i : Idx} {visits code : Nat} {c : Cause} {info : BitVec 32} (hi : idle s)
    (hroot : s.root = i) (hnone : s.root ≠ Idx.none) (hvisits : visits ≤ s.cfg.nn.toNat)
    (hc : c.code = BitVec.ofNat 8 code)
    (h : ∀ budget, s.cfg.nn.toNat = budget + visits →
      ∃ t, serialize (budget + visits) [i] (tserStart s) = .raise c info t) :
    ∃ u, exec .tser s = .next u ∧ faultedWith u code info := by
  obtain ⟨budget, hnn⟩ := Nat.exists_eq_add_of_le' hvisits
  obtain ⟨t, hrun⟩ := h budget hnn
  rw [← hnn, ← hroot, ← serializeTree_rooted hnone] at hrun
  exact answers_faultedWith (runCommand_raises hi hrun) hc

/-- TSER of a held tree whose leaves and stream can be written leaves the stream in TSB from index 0 (R131, R132). -/
theorem tser_writes {s : State} {t : CodeTree} (hi : idle s) (h : t.heldIn s = true)
    (hu : t.unshared ∨ t.size ≤ s.cfg.nn.toNat) (hs : t.streamable) (hroot : s.root = t.index)
    (hfit : t.stream.length ≤ s.cfg.tsCap.toNat) :
    ∃ m k, exec .tser s = .next { s with tsb := m, tsLen := k } ∧ k.toNat = t.stream.length ∧
      holdsAt m 0 t.stream ∧ sameOutside s.tsb m 0 t.stream.length := by
  obtain ⟨budget, hnn⟩ := Nat.exists_eq_add_of_le' (t.size_le h hu)
  obtain ⟨m, k, hrun, hk, hm, hout⟩ := serialize_tree t budget [] (s := tserStart s) (t.heldIn_same h rfl rfl) hs
    ((Nat.zero_add _).trans_le hfit)
  have hk : k.toNat = 0 + t.stream.length := hk
  have hout : sameOutside s.tsb m 0 (0 + t.stream.length) := hout
  rw [Nat.zero_add] at hk hout
  have hbody : serializeTree (beginCommand s) = .ok () { tserStart s with tsb := m, tsLen := k } := by
    rw [serializeTree_rooted (t.root_ne_none h hroot), hnn, hroot, hrun, serialize_nil]
  exact ⟨m, k, runCommand_done hi hbody hi.begun, hk, hm, hout⟩

/-- Settles O21: TSER's loop writes the tree under ROOT whole, with nothing else on its stack. -/
theorem tserWritesPreorderStream : Obligations.TserWritesPreorderStream := by
  unfold Obligations.TserWritesPreorderStream
  intro s t hi h hu hs hroot hfit
  obtain ⟨m, k, hrun, hk, hm, hout⟩ := tser_writes hi h hu hs hroot hfit
  exact ⟨_, hrun, hk, hm, rfl, hout⟩

/-- Settles O22: in a tree by the walk to its first bad leaf; elsewhere TSER comes to the stop with a visit left, and
the leaf there raises its cause. -/
theorem tserFaultsAtFirstBadLeaf : Obligations.TserFaultsAtFirstBadLeaf := by
  unfold Obligations.TserFaultsAtFirstBadLeaf
  refine ⟨?_, ?_⟩
  · intro s t n x hi h hu hroot hfit hbad
    refine tser_faults hi hroot (t.root_ne_none h hroot) (t.size_le h hu) (badLeaf_code x) fun budget _ => ?_
    exact serialize_bad t budget [] (t.heldIn_same h rfl rfl) hbad ((Nat.zero_add _).trans_le hfit)
  · intro s p n r hi h hroot hstop hs hvisits hfit hn hr hk hbad
    refine tser_faults (visits := 1 + p.walked.length) hi hroot (p.root_ne_none h hroot hstop hn) (by omega)
      (badLeaf_code r.sym) fun budget _ => ?_
    obtain ⟨m, k, rest, hwalk, -⟩ := serialize_walk p (budget + 1) [] (s := tserStart s) (p.heldIn_same h rfl rfl) hstop
      hs ((Nat.zero_add _).trans_le hfit)
    rw [← Nat.add_assoc, hwalk]
    exact ⟨_, serialize_badLeaf budget rest hn hr hk hbad⟩

/-- Settles O23: the loop at its first node, on a tree too long for TSB, at a stop that names no record or is beyond the
visits, and on a walk too long for TSB. -/
theorem tserMalformedRootAndOverflow : Obligations.TserMalformedRootAndOverflow := by
  unfold Obligations.TserMalformedRootAndOverflow
  refine ⟨?_, ?_, ?_, ?_⟩
  · intro s hi hn hnone
    refine tser_faults hi rfl hnone (Nat.zero_le _) (c := .treeMalformed) rfl fun budget _ => ?_
    exact ⟨_, serialize_malformed [] (.inl hn)⟩
  · intro s t hi h hu hs hroot hcap
    refine tser_faults hi hroot (t.root_ne_none h hroot) (t.size_le h hu) (c := .bufOverflow) rfl fun budget _ => ?_
    exact serialize_full t budget [] (t.heldIn_same h rfl rfl) hs (hcap.trans_eq (Nat.zero_add _).symm)
  · intro s p n hi h hroot hnone hstop hs hvisits hfit hn
    refine tser_faults hi hroot hnone hvisits (c := .treeMalformed) rfl fun budget hnn => ?_
    obtain ⟨m, k, rest, hwalk, -⟩ := serialize_walk p budget [] (s := tserStart s) (p.heldIn_same h rfl rfl) hstop hs
      ((Nat.zero_add _).trans_le hfit)
    have hlast : s.cfg.nn.toNat ≤ n.toNat ∨ budget = 0 := hn.imp_right fun hlen => by omega
    exact ⟨_, hwalk.trans (serialize_malformed rest hlast)⟩
  · intro s p hi h hroot hnone hs hvisits hcap
    refine tser_faults hi hroot hnone hvisits (c := .bufOverflow) rfl fun budget _ => ?_
    exact serialize_walk_full p budget [] (p.heldIn_same h rfl rfl) hs (hcap.trans_eq (Nat.zero_add _).symm)
      (Nat.zero_le _)

/-! TEND. -/

/-- TEND with room in TSB leaves the terminator where TS_LEN stood (R133). -/
theorem tend_appends {s : State} (hi : idle s) (hfit : s.tsLen.toNat + 1 ≤ s.cfg.tsCap.toNat) :
    ∃ m k, exec .tend s = .next { s with tsb := m, tsLen := k } ∧ k.toNat = s.tsLen.toNat + 1 ∧
      m.read s.tsLen.toNat = some 0x00#8 ∧ sameOutside s.tsb m s.tsLen.toNat (s.tsLen.toNat + 1) := by
  obtain ⟨m, k, hrun, hk, hm, hout⟩ := emitToken_fits [0x00#8] (s := beginCommand s) hfit
  exact ⟨m, k, runCommand_done hi hrun hi.begun, hk, (holdsAt_cons.mp hm).1, hout⟩

/-- Settles O20: the terminator is a token of one byte, which fits in TSB or raises BufOverflow(1). -/
theorem tendAppendsTerminator : Obligations.TendAppendsTerminator := by
  unfold Obligations.TendAppendsTerminator
  refine ⟨?_, ?_⟩
  · intro s hi hfit
    obtain ⟨m, k, hrun, hk, hm, hout⟩ := tend_appends hi hfit
    exact ⟨_, hrun, hk, hm, rfl, hout⟩
  · intro s hi hfull
    exact answers_faultedWith (runCommand_raises hi (emitToken_full [0x00#8] (s := beginCommand s) hfull)) rfl

/-! TDES from its start to END. -/

/-- A TDES that began on an idle block and comes to END ends there, where phase 2 goes on (R101, R153). -/
theorem tdes_end {s : State} {p ntok : Nat} {root : Idx} {m m' : Memory NodeRec} (n : Nat) (hi : idle s)
    (hst : streamAt s p [0x00#8])
    (hm : rebuildTree ntok { beginCommand s with nm := m, act := .tokenising p ntok } =
      .ok root { beginCommand s with nm := m', act := .tokenising p ntok }) :
    drive tokenStep n { beginCommand s with nm := m, act := .tokenising p ntok } =
      .next { s with nm := m', root := root, tsRpos := BitVec.ofNat 32 (p + 1), nodeCnt := BitVec.ofNat 32 ntok } := by
  have hflight : State.inFlight { beginCommand s with nm := m, act := .tokenising p ntok } = true := by
    simp [State.inFlight]
  have hstep := tokenStep_defined (s := { beginCommand s with nm := m, act := .tokenising p ntok }) rfl hst
    (i := .tokEnd) rfl (.inl rfl)
  have hrun := drive_last n hflight (hstep.trans (exec_tokEnd_rebuilt rfl hm)) rfl
  have hended := hi.ended (t := { beginCommand s with nm := m', root := root, tsRpos := BitVec.ofNat 32 (p + 1),
                                                      nodeCnt := BitVec.ofNat 32 ntok }) hi.begun
  exact hrun.trans (congrArg Host.Outcome.next hended)

/-- Settles O29: TSER's loop has nothing on its stack; TDES comes to END at once, with no token to rebuild. -/
theorem emptyTreeStreams : Obligations.EmptyTreeStreams := by
  unfold Obligations.EmptyTreeStreams
  refine ⟨?_, ?_⟩
  · intro s hi hroot
    have hbody : serializeTree (beginCommand s) = .ok () (tserStart s) := by
      simp only [serializeTree, beginCommand_root, hroot, if_true, serialize, tserStart]
    exact runCommand_done hi hbody hi.begun
  · intro s hi hst
    exact (tdes_idle hi).trans (tdes_end (m := s.nm) _ hi hst rfl)

/-- TDES of a tree's stream and its terminator leaves the tree in NM under its pre-order numbers (R153, R159). -/
theorem tdes_rebuilds {s : State} {t : CodeTree} (hi : idle s) (hs : t.streamable) (hn : t.size ≤ s.cfg.nn.toNat)
    (hst : streamAt s 0 (t.stream ++ [0x00#8])) :
    ∃ m, exec .tdes s = .next { s with nm := m, root := 0#32, tsRpos := BitVec.ofNat 32 (t.stream.length + 1),
                                       nodeCnt := BitVec.ofNat 32 t.size } ∧
      sameOutside s.nm m 0 t.size ∧ (t.renumber 0).heldIn { s with nm := m } = true ∧
      holdsAt m 0 (t.renumber 0).linked := by
  obtain ⟨hpre, hend⟩ := streamAt_append.mp hst
  rw [Nat.zero_add] at hend
  obtain ⟨m, hrun, hout, hrec⟩ := tdes_tokens t.tokens hi (t.streamable_tokens.mpr hs)
    (t.streamOf_tokens ▸ hpre) (t.length_tokens ▸ hn)
  rw [t.record_tokens] at hrec
  rw [t.length_tokens] at hout
  rw [t.length_tokens, t.streamOf_tokens] at hrun
  obtain ⟨m', hm', hout', hheld, hlinked⟩ := rebuildTree_tree hn hrec
    (s := { beginCommand s with nm := m, act := .tokenising t.stream.length t.size })
  have hboth : sameOutside s.nm m' 0 t.size := sameOutside_mono (sameOutside_trans hout hout') (by omega) (by omega)
  exact ⟨m', hrun.trans (tdes_end _ hi hend hm'), hboth, CodeTree.heldIn_same hheld rfl rfl, hlinked⟩

/-! The round trip (R134). -/

/-- A tree's stream: a byte for each internal node, one less than the leaves, and the leaves' bytes (R131). -/
theorem CodeTree.length_stream (t : CodeTree) :
    t.stream.length = t.symbols.length - 1 + (t.symbols.map fun x => (utf8Enc x).length).sum := by
  induction t with
  | leaf n x => simp [CodeTree.stream, CodeTree.symbols]
  | node n l r hl hr =>
    have := l.size_symbols
    have := r.size_symbols
    simp only [CodeTree.stream, CodeTree.symbols, List.length_cons, List.length_append, List.map_append,
      List.sum_append, hl, hr]
    omega

/-- TSER and TEND leave a held tree's stream and its terminator in TSB (R132, R133). -/
theorem tser_tend_writes {s : State} {t : CodeTree} (hi : idle s) (h : t.heldIn s = true)
    (hu : t.unshared ∨ t.size ≤ s.cfg.nn.toNat) (hs : t.streamable) (hroot : s.root = t.index)
    (hfit : t.stream.length + 1 ≤ s.cfg.tsCap.toNat) :
    ∃ m k, andThen (exec .tser s) (exec .tend) = .next { s with tsb := m, tsLen := k } ∧
      k.toNat = t.stream.length + 1 ∧ holdsAt m 0 (t.stream ++ [0x00#8]) := by
  obtain ⟨m, k, htser, hk, hm, -⟩ := tser_writes hi h hu hs hroot (by omega)
  obtain ⟨m', k', htend, hk', hlast, hout⟩ := tend_appends (s := { s with tsb := m, tsLen := k }) hi
    (by show k.toNat + 1 ≤ s.cfg.tsCap.toNat; omega)
  have hlast : m'.read k.toNat = some 0x00#8 := hlast
  have hout : sameOutside m m' k.toNat (k.toNat + 1) := hout
  refine ⟨m', k', by rw [htser, andThen_next, htend], hk'.trans (congrArg (· + 1) hk), holdsAt_append.mpr ⟨?_, ?_⟩⟩
  · exact holdsAt_of_outside hm hout (.inl (by omega))
  · rw [Nat.zero_add, ← hk]
    exact holdsAt_cons.mpr ⟨hlast, holdsAt_nil _ _⟩

/-- Settles O33: TSER and TEND leave in TSB the stream that TDES rebuilds the tree from. -/
theorem treeRoundTrip : Obligations.TreeRoundTrip := by
  unfold Obligations.TreeRoundTrip
  intro s t hi h hu hs hroot hfit
  have hsize : t.size ≤ s.cfg.nn.toNat := t.size_le h (.inl hu)
  obtain ⟨m, k, hwrite, hk, hm⟩ := tser_tend_writes hi h (.inl hu) hs hroot hfit
  have hst : streamAt { s with tsb := m, tsLen := k } 0 (t.stream ++ [0x00#8]) := by
    refine ⟨hm, ?_, ?_⟩
    · rw [List.length_append, List.length_singleton, Nat.zero_add]
      exact hk.ge
    · exact hk.le.trans hfit
  obtain ⟨m', hrun, -, hheld, -⟩ := tdes_rebuilds (s := { s with tsb := m, tsLen := k }) hi hs hsize hst
  refine ⟨_, (congrArg (andThen · (exec .tdes)) hwrite).trans hrun, CodeTree.heldIn_same hheld rfl rfl, rfl, ?_, ?_, ?_⟩
  · have hlt : t.size < 2 ^ 32 := hsize.trans_lt s.cfg.nn.isLt
    exact (BitVec.toNat_ofNat _ _).trans (Nat.mod_eq_of_lt hlt)
  · rw [← t.length_stream]
    exact hk
  · show BitVec.ofNat 32 (t.stream.length + 1) = k
    rw [← hk, BitVec.ofNat_toNat, BitVec.setWidth_eq]

end Sys2Proof.Safety

namespace Sys2Proof.Safety

open Sys2Proof.Machine

/-! TDES of a tree's stream, and the stream written back (R153, R159, R160). -/

/-- A count within a 32-bit capacity is held by a 32-bit register as it is. -/
theorem toNat_ofNat_of_le {n : Nat} {cap : Idx} (h : n ≤ cap.toNat) : (BitVec.ofNat 32 n).toNat = n :=
  (BitVec.toNat_ofNat _ _).trans (Nat.mod_eq_of_lt (h.trans_lt cap.isLt))

/-- A stream with its terminator fits in TSB. -/
theorem streamAt_terminated_le {s : State} {bs : List Byte} (h : streamAt s 0 (bs ++ [0x00#8])) :
    bs.length + 1 ≤ s.cfg.tsCap.toNat := by
  obtain ⟨-, hlen, hcap⟩ := h
  rw [List.length_append, List.length_singleton] at hlen
  omega

/-- Settles O30: TDES stores the tree's tokens, and END rebuilds the tree from them. -/
theorem tdesRebuildsTree : Obligations.TdesRebuildsTree := by
  unfold Obligations.TdesRebuildsTree
  intro s t hi hs hn hst
  obtain ⟨m, hrun, hout, hheld, hlinked⟩ := tdes_rebuilds hi hs hn hst
  exact ⟨_, hrun, CodeTree.heldIn_same hheld rfl rfl, hlinked, rfl, toNat_ofNat_of_le hn,
    toNat_ofNat_of_le (streamAt_terminated_le hst), rfl, hout⟩

theorem CodeTree.streamable_renumber {t : CodeTree} (h : t.streamable) (k : Nat) : (t.renumber k).streamable := by
  unfold CodeTree.streamable
  rwa [t.symbols_renumber]

/-- Settles O34: TDES leaves the tree in NM, and TSER and TEND write a held tree's stream and its terminator. -/
theorem streamRoundTrip : Obligations.StreamRoundTrip := by
  unfold Obligations.StreamRoundTrip
  intro s t hi hs hn hst
  have hfit := streamAt_terminated_le hst
  obtain ⟨m, htdes, -, hheld, -⟩ := tdes_rebuilds hi hs hn hst
  obtain ⟨m', k, hwrite, hk, hm'⟩ := tser_tend_writes (t := t.renumber 0)
    (s := { s with nm := m, root := 0#32, tsRpos := BitVec.ofNat 32 (t.stream.length + 1),
                   nodeCnt := BitVec.ofNat 32 t.size })
    hi (CodeTree.heldIn_same hheld rfl rfl) (.inr ((t.size_renumber 0).trans_le hn))
    (CodeTree.streamable_renumber hs 0) (t.index_renumber 0).symm (by rwa [t.stream_renumber])
  rw [t.stream_renumber] at hk hm'
  have hrun := (congrArg (fun o => andThen (andThen o (exec .tser)) (exec .tend)) htdes).trans hwrite
  refine ⟨_, hrun, ?_, toNat_ofNat_of_le hfit, CodeTree.heldIn_same hheld rfl rfl, rfl, hk, hm'⟩
  have hcnt : (BitVec.ofNat 32 t.size).toNat = t.size := toNat_ofNat_of_le hn
  have hleaves := t.size_symbols
  exact hcnt.trans (by omega)

/-! A stream without its terminator (R153, R105). -/

theorem ofNat_of_toNat_eq {x : Idx} {n : Nat} (h : x.toNat = n) : BitVec.ofNat 32 n = x := by
  rw [← h, BitVec.ofNat_toNat, BitVec.setWidth_eq]

/-- Valid bytes that end before a token raise TreeNoTerm(TS_LEN) (R153). -/
theorem tokenStep_atEnd {p ntok : Nat} {s : State} (ha : s.act = .tokenising p ntok) (h : s.tsLen.toNat = p) :
    tokenStep s = .next (enterFault .treeNoTerm s.tsLen s) := by
  rw [tokenStep_none ha h.le, ofNat_of_toNat_eq h]

/-- TDES of tokens alone comes to the end of the valid bytes (R153). -/
theorem tdes_unterminated {s : State} {ts : List Tok} (hi : idle s) (hts : ∀ k ∈ ts, k.streamable)
    (hn : ts.length ≤ s.cfg.nn.toNat) (hst : streamAt s 0 (streamOf ts)) (hlen : s.tsLen.toNat = (streamOf ts).length) :
    ∃ u, exec .tdes s = .next u ∧ faultedWith u 4 s.tsLen := by
  obtain ⟨u, hu⟩ := tdes_raises hi hts hst hn fun m => tokenStep_atEnd rfl hlen
  exact answers_faultedWith hu rfl

/-- Settles O31: the step that comes to the end of the valid bytes, before a token or inside one, and TDES by that step
after the tokens that come before; the empty stream has none. -/
theorem tdesWithoutTerminatorFaults : Obligations.TdesWithoutTerminatorFaults := by
  unfold Obligations.TdesWithoutTerminatorFaults
  refine ⟨?_, ?_, ?_, ?_, ?_⟩
  · intro s hi hzero
    have hlen : s.tsLen.toNat = 0 := by rw [hzero]; rfl
    have hst : streamAt s 0 (streamOf []) := ⟨holdsAt_nil _ _, Nat.zero_le _, hlen.trans_le (Nat.zero_le _)⟩
    rw [← hzero]
    exact tdes_unterminated hi (ts := []) (by simp) (Nat.zero_le _) hst hlen
  · intro s ts hi hts hn hst hlen
    exact tdes_unterminated hi hts hn hst hlen
  · intro s ts n b0 cs hi hts hn hb0 hcs hl hst hlen
    obtain ⟨hpre, hlast⟩ := streamAt_append.mp hst
    rw [Nat.zero_add] at hlast
    rw [List.length_append, List.length_cons] at hlen
    obtain ⟨u, hu⟩ := tdes_raises hi hts hpre hn.le fun m => tokenStep_cut rfl hlast hb0 hcs hl
      (by show (streamOf ts).length + 1 + cs.length = s.tsLen.toNat; omega) hn
    exact answers_faultedWith hu rfl
  · intro s p ntok ha hw hlen
    exact answers_faultedWith ((step_tokenStep ha hw).trans (tokenStep_atEnd ha hlen)) rfl
  · intro s p ntok n b0 cs ha hw hn hb0 hcs hl hst hlen
    exact answers_faultedWith ((step_tokenStep ha hw).trans (tokenStep_cut ha hst hb0 hcs hl hlen.symm hn)) rfl

/-! END after tokens that are not those of one whole tree (R152, R153). -/

/-- Phase 2 on a proper beginning of a tree's tokens runs out of tokens (R152). -/
theorem rebuildTree_short {s : State} {t : CodeTree} {ts more : List Tok} (ht : ts ++ more = t.tokens) (hts : ts ≠ [])
    (hm : more ≠ []) (hn : ts.length ≤ s.cfg.nn.toNat) (hrec : holdsAt s.nm 0 (ts.map Tok.record)) :
    ∃ u, rebuildTree ts.length s = .raise .treeShort (BitVec.ofNat 32 ts.length) u := by
  have hpos : ts.length ≠ 0 := mt List.length_eq_zero_iff.mp hts
  obtain ⟨u, hu⟩ := rebuild_short t (ts.length + 1) 0 ht hm hrec (by omega) (by omega)
  rw [Nat.zero_add] at hu
  exact ⟨u, by simp only [rebuildTree, hpos, if_false, hu, Run.bind_raise]⟩

/-- Phase 2 on a whole tree's tokens and more leaves the further ones over (R153). -/
theorem rebuildTree_trailing {s : State} {t : CodeTree} {ntok : Nat} (hlt : t.size < ntok) (hn : ntok ≤ s.cfg.nn.toNat)
    (hrec : holdsAt s.nm 0 t.records) :
    ∃ u, rebuildTree ntok s = .raise .treeTrailing (BitVec.ofNat 32 t.size) u := by
  have hpos : ntok ≠ 0 := by omega
  obtain ⟨m, hm, -, -, -⟩ := rebuild_tree t (ntok + 1) 0 hrec (by omega) hn (by omega)
  rw [Nat.zero_add] at hm
  exact ⟨{ s with nm := m }, by simp only [rebuildTree, hpos, if_false, hm, Run.bind_ok, hlt.ne]⟩

/-- END raises what phase 2 raises (R101, R153). -/
theorem exec_tokEnd_raises {s u : State} {p ntok : Nat} {c : Cause} {info : BitVec 32}
    (ha : s.act = .tokenising p ntok) (h : rebuildTree ntok s = .raise c info u) :
    exec .tokEnd s = .next (enterFault c info u) := by
  show inTokens finishTree s = _
  rw [inTokens_flight ha, finishTree, h]
  rfl

/-- TDES of tokens and their terminator raises what phase 2 raises wherever the tokens' records stand in NM (R153). -/
theorem tdes_end_raises {s : State} {ts : List Tok} {c : Cause} {info : BitVec 32} (hi : idle s)
    (hts : ∀ k ∈ ts, k.streamable) (hn : ts.length ≤ s.cfg.nn.toNat) (hst : streamAt s 0 (streamOf ts ++ [0x00#8]))
    (h : ∀ v : State, v.cfg = s.cfg → holdsAt v.nm 0 (ts.map Tok.record) →
      ∃ u, rebuildTree ts.length v = .raise c info u) :
    ∃ u, exec .tdes s = .next (enterFault c info u) := by
  obtain ⟨hpre, hend⟩ := streamAt_append.mp hst
  rw [Nat.zero_add] at hend
  obtain ⟨m, hrun, -, hrec⟩ := tdes_tokens ts hi hts hpre hn
  generalize hv : { beginCommand s with nm := m, act := .tokenising (streamOf ts).length ts.length } = v at hrun
  have hact : v.act = .tokenising (streamOf ts).length ts.length := by rw [← hv]
  obtain ⟨u, hu⟩ := h v (by rw [← hv]; rfl) (by rw [← hv]; exact hrec)
  have hstep : tokenStep v = .next (enterFault c info u) :=
    (tokenStep_defined hact (by rw [← hv]; exact hend) rfl (.inl rfl)).trans (exec_tokEnd_raises hact hu)
  exact ⟨u, hrun.trans (drive_last _ (by simp [State.inFlight, hact]) hstep (by simp))⟩

/-- Settles O32: END's phase 2 runs out of tokens, or a whole tree's tokens leave some over. -/
theorem tdesShortAndTrailingFaults : Obligations.TdesShortAndTrailingFaults := by
  unfold Obligations.TdesShortAndTrailingFaults
  refine ⟨?_, ?_⟩
  · intro s t ts more hi ht hne hm hts hn hst
    obtain ⟨u, hu⟩ := tdes_end_raises hi hts hn hst fun v hcfg hrec =>
      rebuildTree_short ht hne hm (hcfg ▸ hn) hrec
    exact answers_faultedWith hu rfl
  · intro s t more hi hm ht hmore hn hst
    have hlen : (t.tokens ++ more).length = t.size + more.length := by rw [List.length_append, t.length_tokens]
    have hpos : 0 < more.length := List.length_pos_iff.mpr hm
    obtain ⟨u, hu⟩ := tdes_end_raises (ts := t.tokens ++ more) hi
      (List.forall_mem_append.mpr ⟨t.streamable_tokens.mpr ht, hmore⟩) (hlen.trans_le hn)
      (by rwa [streamOf_append, t.streamOf_tokens, List.append_assoc]) fun v hcfg hrec => by
        rw [List.map_append, t.record_tokens] at hrec
        exact rebuildTree_trailing (by omega) (by rw [hlen, hcfg]; exact hn) (holdsAt_append.mp hrec).1
    exact answers_faultedWith hu rfl

/-! What one token and one payload bit leave unchanged. -/

theorem inTokens_walking {s : State} {T : Operand} {cur : Idx} {byte : Byte} {k : Nat}
    (body : Nat → Nat → State → Run Unit) (ha : s.act = .walking T cur byte k) :
    inTokens body s = .refused .outsideStream := by
  simp only [inTokens, ha]

/-- A token has no meaning while UNPACK walks (log 9). -/
theorem exec_token_walking {i : Instr} {s : State} {T : Operand} {cur : Idx} {byte : Byte} {k : Nat}
    (ha : s.act = .walking T cur byte k) (hi : 1 ≤ tokenLen i) : ∃ r, exec i s = .refused r := by
  cases i with
  | tokEnd | tokInternal | tokLeaf2 | tokLeaf3 | tokLeaf4 => exact ⟨_, inTokens_walking _ ha⟩
  | tokLeaf1 x =>
    show ∃ r, execTokLeaf1 x s = .refused r
    unfold execTokLeaf1
    split
    · exact ⟨_, rfl⟩
    · exact ⟨_, inTokens_walking _ ha⟩
  | nop | reset | pkinit | pkput | unpack | tser | tend | tdes | bitLeft | bitRight => simp [tokenLen] at hi

theorem keeps_refused (P : State → Prop) (r : Refusal) : Keeps P (.refused r) := by rintro t ⟨⟩

/-- What one token or payload bit of an UNPACK in flight may change. -/
def BitFrame (s t : State) : Prop :=
  t = { s with syb := t.syb, syLen := t.syLen, status := t.status, act := t.act, draws := t.draws } ∧
    sameOutside s.syb t.syb s.syLen.toNat (s.syLen.toNat + 1)

/-- A payload bit changes what `walkTo` does; with no unread bit it has no meaning (R202). -/
theorem inWalk_keeps {s : State} {T : Operand} {cur : Idx} {byte : Byte} {k : Nat} (right : Bool)
    (ha : s.act = .walking T cur byte k) : Keeps (BitFrame s) (inWalk right s) := by
  cases k with
  | zero =>
    have hnone : inWalk right s = .refused .outsideStream := by simp only [inWalk, ha]
    rw [hnone]
    exact keeps_refused _ _
  | succ k =>
    have hbit : inWalk right s = (walkTo right T cur byte k s).finish := by simp only [inWalk, ha]
    rw [hbit]
    refine keeps_finish ((walkTo_frame right T cur byte k s).mono fun _ t ht => ?_)
    obtain ⟨hsame, hsyb, -⟩ := ht
    exact ⟨hsame, hsyb⟩

/-- What an instruction of a stream changes while UNPACK walks: a payload bit's frame, since a token has no meaning. -/
theorem exec_walking_keeps {i : Instr} {s : State} {T : Operand} {cur : Idx} {byte : Byte} {k : Nat}
    (ha : s.act = .walking T cur byte k) (hc : isCommand i = false) : Keeps (BitFrame s) (exec i s) := by
  have token : 1 ≤ tokenLen i → Keeps (BitFrame s) (exec i s) := fun hi => by
    obtain ⟨r, hr⟩ := exec_token_walking ha hi
    rw [hr]
    exact keeps_refused _ r
  cases i with
  | bitLeft | bitRight => exact inWalk_keeps _ ha
  | tokEnd | tokInternal | tokLeaf1 | tokLeaf2 | tokLeaf3 | tokLeaf4 => exact token (by simp [tokenLen])
  | nop | reset | pkinit | pkput | unpack | tser | tend | tdes => cases hc

/-- What END changes where it raises nothing (R101, R153). -/
theorem exec_tokEnd_keeps {p ntok : Nat} {s : State} (ha : s.act = .tokenising p ntok) :
    Keeps (fun t => t = { s with nm := t.nm, root := t.root, tsRpos := t.tsRpos, nodeCnt := t.nodeCnt,
                                 status := t.status, act := t.act, draws := t.draws } ∧
      sameOutside s.nm t.nm 0 ntok) (exec .tokEnd s) := by
  show Keeps _ (inTokens finishTree s)
  rw [inTokens_flight ha]
  refine keeps_finish ((finishTree_frame p ntok s).mono fun _ t ht => ?_)
  obtain ⟨hsame, hnm⟩ := ht
  exact ⟨by rw [hsame], hnm⟩

/-- Settles O45: END by phase 2's frame, another token by the record it stores, a payload bit by the walk's frame. -/
theorem tokenAndBitFrames : Obligations.TokenAndBitFrames := by
  unfold Obligations.TokenAndBitFrames
  refine ⟨?_, ?_⟩
  · intro s t i p ntok ha ho _ hf hc
    refine ⟨?_, fun hi => ?_⟩
    · rintro rfl
      exact exec_tokEnd_keeps ha t ho hf
    · obtain ⟨hsame, hnm, -⟩ := token_frame ha hc hi ho hf
      exact ⟨by rw [hsame], hnm⟩
  · intro s t i T cur byte k ha ho _ hf hc
    exact exec_walking_keeps ha hc t ho hf

/-! The step that runs the next token. -/

/-- Settles O5: the step fetches the token that the bytes decode to and runs it. -/
theorem stepRunsNextToken : Obligations.StepRunsNextToken := by
  unfold Obligations.StepRunsNextToken
  intro s p ntok bs i ha hw hst hd hi
  exact (step_tokenStep ha hw).trans (tokenStep_defined ha hst (decode_token.mp hd) hi)

end Sys2Proof.Safety

namespace Sys2Proof.Safety

open Sys2Proof.Machine

/-! PKINIT. -/

/-- Settles O15: PKINIT's two writes, with STATUS and scratch as before. -/
theorem pkinitEmptiesPayload : Obligations.PkinitEmptiesPayload := by
  unfold Obligations.PkinitEmptiesPayload
  intro s hi
  exact runCommand_done (body := packInit) hi rfl hi.begun

/-! PKPUT's pseudocode by its code word (R182). -/

theorem packCode_zero {s : State} (h : s.arg = 0#64) : packCode s = .raise .codeInvalid 0#32 s := if_pos h

theorem packCode_nonzero {s : State} (h : s.arg ≠ 0#64) : packCode s = packBits s.arg (codeLength s.arg) 0 s :=
  if_neg h

theorem codeLength_one : codeLength 1#64 = 0 := by decide

/-- The code word 1 is the sentinel alone: no data bit is packed. -/
theorem packCode_one {s : State} (h : s.arg = 1#64) : packCode s = .ok () s := by
  rw [packCode_nonzero (by rw [h]; decide), h, codeLength_one]
  rfl

/-- Data bits that fit are appended, from bit 0 of the code word up (R64). -/
theorem packCode_fits {s : State} (h : Packable s) (ha : s.arg ≠ 0#64)
    (hfit : packedBits s + codeLength s.arg ≤ 8 * s.cfg.plCap.toNat) :
    ∃ t, packCode s = .ok () t ∧ Packed s (dataBits s.arg) t := by
  rw [packCode_nonzero ha, dataBits, List.range_eq_range']
  exact packBits_fits s.arg (codeLength s.arg) 0 h hfit

theorem Packable.packedBits_le {s : State} (h : Packable s) : packedBits s ≤ 8 * s.cfg.plCap.toNat :=
  (Nat.sub_le _ _).trans (Nat.mul_le_mul_left 8 h.fits)

/-- Data bits that do not all fit raise BufOverflow(2). -/
theorem packCode_full {s : State} (h : Packable s) (ha : s.arg ≠ 0#64)
    (hfull : 8 * s.cfg.plCap.toNat < packedBits s + codeLength s.arg) :
    ∃ t, packCode s = .raise .bufOverflow 2#32 t := by
  rw [packCode_nonzero ha]
  exact packBits_full s.arg (codeLength s.arg) 0 h hfull h.packedBits_le

/-- Settles O16: ARG = 0 raises at once, and ARG = 1 has no data bit to pack. -/
theorem pkputOfZeroAndOne : Obligations.PkputOfZeroAndOne := by
  unfold Obligations.PkputOfZeroAndOne
  refine ⟨fun s hi ha => ?_, fun s hi ha => ?_⟩
  · exact answers_faultedWith (runCommand_raises hi (packCode_zero (s := beginCommand s) ha)) rfl
  · have hrun : packCode (beginCommand s) = .ok () (beginCommand s) := packCode_one ha
    exact (runCommand_done hi hrun hi.begun :)

/-! PKPUT on an idle block. -/

theorem Inv.packable {s : State} (h : Inv s) (hf : s.faulted = false) : Packable s := by
  obtain ⟨-, -, hpl, -⟩ := h.lengths hf
  exact ⟨hpl, h.carry hf⟩

theorem Packable.begin {s : State} (h : Packable s) : Packable (beginCommand s) := ⟨h.fits, h.carry⟩

/-- Bits that a command packed between its start and its end are appended to the payload of the idle block. -/
theorem Packed.ended {s t : State} {bs : List Bool} (h : Packed (beginCommand s) bs t) :
    Packed s bs { t with status := s.status, act := s.act } where
  frame := by rw [h.frame]; rfl
  count := h.count
  old := h.old
  new := h.new
  zero := h.zero
  ok := ⟨h.ok.fits, h.ok.carry⟩
  outside := h.outside

/-- PKPUT appends the data bits of ARG where they fit (R182). -/
theorem exec_pkput_fits {s : State} (hi : idle s) (h : Packable s) (ha : s.arg ≠ 0#64)
    (hfit : packedBits s + codeLength s.arg ≤ 8 * s.cfg.plCap.toNat) :
    ∃ t, exec .pkput s = .next t ∧ Packed s (dataBits s.arg) t := by
  obtain ⟨t, hrun, hp⟩ := packCode_fits h.begin ha hfit
  exact ⟨_, runCommand_done hi hrun (by rw [hp.frame]; exact hi.begun), hp.ended⟩

/-- PL_LEN and FREE after bits were appended. -/
theorem Packed.lengths {s t : State} {bs : List Bool} (h : Packed s bs t) :
    t.plLen.toNat = bytesFor (packedBits s + bs.length) ∧ t.free.toNat = (8 - (packedBits s + bs.length) % 8) % 8 := by
  rw [← h.count]
  exact packed_lengths h.ok.carry

/-- Settles O17: PKPUT's data bits are appended to the payload. -/
theorem pkputAppendsDataBits : Obligations.PkputAppendsDataBits := by
  unfold Obligations.PkputAppendsDataBits
  intro s hi h hz ha hfit
  obtain ⟨t, hrun, hp⟩ := exec_pkput_fits hi (h.packable hi.faulted) ha hfit
  have hlengths := hp.lengths
  have houtside := hp.outside
  rw [length_dataBits] at hlengths houtside
  obtain ⟨hlen, hfree⟩ := hlengths
  exact ⟨t, hrun, hlen, hfree, hp.old, hp.new hz, hp.zero hz, hp.frame, houtside⟩

/-- Settles O18: a data bit finds the payload full. -/
theorem pkputOverflowFaults : Obligations.PkputOverflowFaults := by
  unfold Obligations.PkputOverflowFaults
  intro s hi h ha hfull
  obtain ⟨t, hrun⟩ := packCode_full (h.packable hi.faulted).begin ha hfull
  exact answers_faultedWith (runCommand_raises hi hrun) rfl

/-! A text packed code by code. -/

/-- Packing leaves STATUS and the scratch alone. -/
theorem Packed.idle {s t : State} {bs : List Bool} (h : Packed s bs t) (hi : idle s) : idle t := by
  rw [h.frame]
  exact hi

/-- Appending bits does not depend on what ARG holds before and after. -/
theorem Packed.withArg {s t : State} {bs : List Bool} (h : Packed s bs t) (a : Operand) :
    Packed { s with arg := a } bs { t with arg := a } where
  frame := by rw [h.frame]
  count := h.count
  old := h.old
  new := h.new
  zero := h.zero
  ok := ⟨h.ok.fits, h.ok.carry⟩
  outside := h.outside

/-- A text whose data bits fit is appended whole; ARG holds its last code word (R184, R238). -/
theorem packText_fits (codes : List Operand) {s : State} (hi : idle s) (h : Packable s)
    (hne : ∀ c, c ∈ codes → c ≠ 0#64)
    (hfit : packedBits s + (codes.flatMap dataBits).length ≤ 8 * s.cfg.plCap.toNat) :
    ∃ t, packText codes s = .next t ∧ Packed { s with arg := t.arg } (codes.flatMap dataBits) t := by
  induction codes generalizing s with
  | nil => exact ⟨s, rfl, Packed.refl h⟩
  | cons c cs ih =>
    obtain ⟨hc, hcs⟩ := List.forall_mem_cons.mp hne
    rw [List.flatMap_cons, List.length_append, length_dataBits] at hfit
    have hfirst : packedBits s + codeLength c ≤ 8 * s.cfg.plCap.toNat := by omega
    obtain ⟨u, hput, hpu⟩ := exec_pkput_fits (s := { s with arg := c }) hi ⟨h.fits, h.carry⟩ hc hfirst
    have hrest : packedBits u + (cs.flatMap dataBits).length ≤ 8 * u.cfg.plCap.toNat := by
      have hcfg : u.cfg = s.cfg := by rw [hpu.frame]
      have hcount : packedBits u = packedBits s + codeLength c := by rw [← length_dataBits]; exact hpu.count
      rw [hcfg, hcount]
      omega
    obtain ⟨t, htext, hpt⟩ := ih (hpu.idle hi) hpu.ok hcs hrest
    refine ⟨t, ?_, (hpu.withArg t.arg).trans hpt⟩
    rw [packText, hput, andThen_next, htext]

/-- The block with its payload empty, as PKINIT leaves it (R181). -/
def emptyPayload (s : State) : State := { s with plLen := 0#32, free := 0#3 }

theorem exec_pkinit {s : State} (hi : idle s) : exec .pkinit s = .next (emptyPayload s) := pkinitEmptiesPayload s hi

theorem emptyPayload_packable (s : State) : Packable (emptyPayload s) := ⟨Nat.zero_le _, fun h => absurd rfl h⟩

/-- Bits appended to an empty payload are the whole payload. -/
theorem Packed.lengths_of_empty {s t : State} {bs : List Bool} (h : Packed s bs t) (h0 : packedBits s = 0) :
    t.plLen.toNat = bytesFor bs.length ∧ t.free.toNat = (8 - bs.length % 8) % 8 := by
  have hlengths := h.lengths
  rwa [h0, Nat.zero_add] at hlengths

/-- Settles O19: PKINIT empties the payload, and the text's data bits are appended to it. -/
theorem packedTextIsConcatenation : Obligations.PackedTextIsConcatenation := by
  unfold Obligations.PackedTextIsConcatenation
  intro s codes hi _ hne hfit
  obtain ⟨t, hrun, hp⟩ := packText_fits codes (s := emptyPayload s) hi (emptyPayload_packable s) hne
    ((Nat.zero_add _).trans_le hfit)
  have hz : freeBitsZero { emptyPayload s with arg := t.arg } := freeBitsZero_of_free rfl
  obtain ⟨hlen, hfree⟩ := hp.lengths_of_empty rfl
  rw [exec_pkinit hi, andThen_next]
  exact ⟨t, hrun, hlen, hfree, hp.new hz, hp.zero hz, hp.frame⟩

end Sys2Proof.Safety

namespace Sys2Proof.Safety

open Sys2Proof.Machine

/-! One payload bit of an UNPACK in flight (R201, R202). -/

/-- The instruction a payload bit stands for (R111) is that of the walk to the child it selects. -/
theorem exec_payloadBit (right : Bool) (s : State) :
    exec (if right then .bitRight else .bitLeft) s = inWalk right s := by
  cases right <;> rfl

theorem inWalk_walking {right : Bool} {T : Operand} {cur : Idx} {byte : Byte} {k : Nat} {s : State}
    (ha : s.act = .walking T cur byte (k + 1)) : inWalk right s = (walkTo right T cur byte k s).finish := by
  simp only [inWalk, ha]

theorem exec_payloadBit_walking {right : Bool} {T : Operand} {cur : Idx} {byte : Byte} {k : Nat} {s : State}
    (ha : s.act = .walking T cur byte (k + 1)) :
    exec (if right then .bitRight else .bitLeft) s = (walkTo right T cur byte k s).finish :=
  (exec_payloadBit right s).trans (inWalk_walking ha)

/-- The step of an UNPACK in flight runs the payload bit it fetches. -/
theorem step_fetchBit {s : State} {T : Operand} {cur : Idx} {byte : Byte} {unread : Nat}
    (ha : s.act = .walking T cur byte unread) (hw : hostWaits s) :
    step s = runFetched runBit (fetchBit T cur byte unread s) := by
  rw [step_sequencer (by simp [ha]) hw]
  simp only [sequencerMove, bitStep, ha]

/-- The next unread bit of the byte in hand is fetched as it is (R63). -/
theorem fetchBit_unread (T : Operand) (cur : Idx) (byte : Byte) (k : Nat) (s : State) :
    fetchBit T cur byte (k + 1) s = .ok (decodeBit (byte.getLsbD k)) s := rfl

/-- With no unread bit the next payload byte is read, and its bit 7 fetched (R63, R201). -/
theorem fetchBit_nextByte (T : Operand) (cur : Idx) (byte : Byte) {b : Byte} {s : State}
    (hlt : s.plRpos.toNat < s.plLen.toNat) (hcap : s.plLen.toNat ≤ s.cfg.plCap.toNat)
    (hb : s.plb.read s.plRpos.toNat = some b) :
    fetchBit T cur byte 0 s =
      .ok (decodeBit (b.getLsbD 7)) { s with plRpos := s.plRpos + 1#32, act := .walking T cur b 8 } := by
  unfold fetchBit
  rw [if_pos rfl, if_neg (by omega), readPlb_defined hb (by omega)]
  rfl

/-- Settles O6: the step fetches the bit that comes next, from the byte in hand or from the next one, and runs it. -/
theorem stepRunsNextBit : Obligations.StepRunsNextBit := by
  unfold Obligations.StepRunsNextBit
  refine ⟨fun s T cur byte k ha hw => ?_, fun s T cur byte b ha hw hlt hcap hb => ?_⟩
  · rw [step_fetchBit ha hw, fetchBit_unread, exec_payloadBit]
    exact runBit_decodeBit _ _
  · rw [step_fetchBit ha hw, fetchBit_nextByte T cur byte hlt hcap hb, exec_payloadBit]
    exact runBit_decodeBit _ _

/-- A bit that selects an index at or above NN raises TreeMalformed with the parent (R201). -/
theorem walkTo_missing {right : Bool} {T : Operand} {cur : Idx} {byte : Byte} {k : Nat} {s : State} {r : NodeRec}
    (hcur : cur.toNat < s.cfg.nn.toNat) (hr : s.nm.read cur.toNat = some r)
    (hc : s.cfg.nn.toNat ≤ (childOf right r).toNat) :
    walkTo right T cur byte k s = .raise .treeMalformed cur s := by
  unfold walkTo
  rw [readNm_defined hr hcur, Run.bind_ok, if_pos hc]

/-- Settles O36: the walk to a missing child raises. -/
theorem missingChildRaisesTreeMalformed : Obligations.MissingChildRaisesTreeMalformed := by
  unfold Obligations.MissingChildRaisesTreeMalformed
  intro s right T cur byte k r ha hcur hr hc
  refine answers_faultedWith (c := .treeMalformed) (s := s) ?_ rfl
  rw [exec_payloadBit_walking ha, walkTo_missing hcur hr hc, Run.finish_raise]

/-- Settles O35: the walk to an internal child moves the cursor alone; the walk to a leaf stores its symbol, and the
command ends with the T-th. -/
theorem payloadBitMovesCursor : Obligations.PayloadBitMovesCursor := by
  unfold Obligations.PayloadBitMovesCursor
  refine ⟨?_, ?_⟩
  · intro s right T cur byte k r rc ha hcur hr hc hrc hkind
    rw [exec_payloadBit_walking ha, walkTo_internal hcur hr hc hrc hkind]
    rfl
  · intro s right T cur byte k r rc ha hcur hr hc hrc hkind hsy
    have hlen : (s.syLen + 1#32).toNat = s.syLen.toNat + 1 := toNat_add_one hsy cap_le
    rw [exec_payloadBit_walking ha, walkTo_leaf hcur hr hc hrc hkind hsy, Run.finish_ok]
    refine ⟨_, rfl, ?_⟩
    split
    · next hlast =>
      exact ⟨Memory.read_write_same _ _ _, hlen, sameOutside_write _ _ _, fun hne => absurd hlast hne, fun _ => rfl⟩
    · next hmore =>
      exact ⟨Memory.read_write_same _ _ _, hlen, sameOutside_write _ _ _, fun _ => rfl, fun h => absurd h hmore⟩

/-! UNPACK from its start to its first payload bit (R201). -/

/-- UNPACK at its start: BUSY is set, no symbol is out and no payload byte is read. -/
def unpackStart (s : State) : State := { beginCommand s with syLen := 0#32, plRpos := 0#32 }

/-- UNPACK where its walk starts: the cursor is at ROOT and no byte is in hand. -/
def walkStart (s : State) : State := { unpackStart s with act := .walking s.arg s.root 0x00#8 0 }

theorem unpack_idle {s : State} (hi : idle s) :
    exec .unpack s = andThen (startUnpack (beginCommand s)).finish (drive bitStep (8 * s.plLen.toNat)) := by
  show execUnpack s = _
  unfold execUnpack
  rw [hi.accepts]

/-- An UNPACK that ends in its start ends there (R25). -/
theorem unpack_ends {s t : State} (hi : idle s) (h : startUnpack (beginCommand s) = .ok () (endCommand t))
    (ht : t.status = 0b01#2) : exec .unpack s = .next { t with status := s.status, act := s.act } := by
  rw [unpack_idle hi, h, Run.finish_ok, andThen_next, drive_idle _ _ (endCommand_inFlight t), hi.ended ht]

/-- A fault of UNPACK's start is UNPACK's. -/
theorem unpack_raises {s t : State} {c : Cause} {info : BitVec 32} (hi : idle s)
    (h : startUnpack (beginCommand s) = .raise c info t) : exec .unpack s = .next (enterFault c info t) := by
  rw [unpack_idle hi, h, Run.finish_raise, andThen_next, drive_idle _ _ (enterFault_inFlight t c info)]

theorem arg_ne_zero {s : State} {n : Nat} (h : n < s.arg.toNat) : s.arg ≠ 0#64 := by
  intro h0
  rw [h0] at h
  exact Nat.not_lt_zero n h

theorem startUnpack_zero {s : State} (h : s.arg = 0#64) :
    startUnpack (beginCommand s) = .ok () (endCommand (unpackStart s)) := if_pos h

theorem startUnpack_overflow {s : State} (h : s.cfg.syCap.toNat < s.arg.toNat) :
    startUnpack (beginCommand s) = .raise .bufOverflow 3#32 (unpackStart s) :=
  (if_neg (arg_ne_zero h)).trans (if_pos h)

theorem startUnpack_rootMissing {s : State} (hne : s.arg ≠ 0#64) (hT : s.arg.toNat ≤ s.cfg.syCap.toNat)
    (h : s.cfg.nn.toNat ≤ s.root.toNat) :
    startUnpack (beginCommand s) = .raise .treeMalformed s.root (unpackStart s) :=
  (if_neg hne).trans ((if_neg hT.not_gt).trans (if_pos h))

/-- On a degenerate tree UNPACK emits ROOT's symbol T times and ends (R203). -/
theorem startUnpack_leaf {s : State} {r : NodeRec} (hne : s.arg ≠ 0#64) (hT : s.arg.toNat ≤ s.cfg.syCap.toNat)
    (hroot : s.root.toNat < s.cfg.nn.toNat) (hr : s.nm.read s.root.toNat = some r) (hkind : r.kind = .leaf) :
    startUnpack (beginCommand s) = (emitRoot s.arg.toNat (unpackStart s)).bind fun _ t => .ok () (endCommand t) := by
  have hread : readNm s.root.toNat (unpackStart s) = .ok r (unpackStart s) := readNm_defined hr hroot
  refine (if_neg hne).trans ((if_neg hT.not_gt).trans ((if_neg hroot.not_ge).trans ?_))
  refine (congrArg (Run.bind · _) hread).trans ?_
  simp only [Run.bind_ok, hkind]
  rfl

/-- On any other tree the walk starts at ROOT (R201). -/
theorem startUnpack_internal {s : State} {r : NodeRec} (hne : s.arg ≠ 0#64) (hT : s.arg.toNat ≤ s.cfg.syCap.toNat)
    (hroot : s.root.toNat < s.cfg.nn.toNat) (hr : s.nm.read s.root.toNat = some r) (hkind : r.kind = .internal) :
    startUnpack (beginCommand s) = .ok () (walkStart s) := by
  have hread : readNm s.root.toNat (unpackStart s) = .ok r (unpackStart s) := readNm_defined hr hroot
  refine (if_neg hne).trans ((if_neg hT.not_gt).trans ((if_neg hroot.not_ge).trans ?_))
  refine (congrArg (Run.bind · _) hread).trans ?_
  simp only [Run.bind_ok, hkind]
  rfl

/-- Settles O37: UNPACK with T = 0 ends in its start. -/
theorem unpackOfNoSymbols : Obligations.UnpackOfNoSymbols := by
  unfold Obligations.UnpackOfNoSymbols
  intro s hi h
  exact unpack_ends hi (startUnpack_zero h) hi.begun

/-- Settles O40: both faults are raised in UNPACK's start. -/
theorem unpackFaultsBeforeTheWalk : Obligations.UnpackFaultsBeforeTheWalk := by
  unfold Obligations.UnpackFaultsBeforeTheWalk
  refine ⟨fun s hi h => ?_, fun s hi hne hT h => ?_⟩
  · exact answers_faultedWith (unpack_raises hi (startUnpack_overflow h)) rfl
  · exact answers_faultedWith (unpack_raises hi (startUnpack_rootMissing hne hT h)) rfl

/-! The degenerate tree (R203). -/

/-- The root leaf's symbol comes out `n` times. -/
theorem emitRoot_emits (n : Nat) {s : State} {r : NodeRec} (hroot : s.root.toNat < s.cfg.nn.toNat)
    (hr : s.nm.read s.root.toNat = some r) (hfit : s.syLen.toNat + n ≤ s.cfg.syCap.toNat) :
    ∃ m k, emitRoot n s = .ok () { s with syb := m, syLen := k } ∧ k.toNat = s.syLen.toNat + n ∧
      holdsAt m s.syLen.toNat (List.replicate n r.sym) ∧
      sameOutside s.syb m s.syLen.toNat (s.syLen.toNat + n) := by
  induction n generalizing s with
  | zero => exact ⟨s.syb, s.syLen, rfl, rfl, holdsAt_nil _ _, sameOutside_refl _ _ _⟩
  | succ n ih =>
    have hlt : s.syLen.toNat < s.cfg.syCap.toNat := by omega
    have hlen : (s.syLen + 1#32).toNat = s.syLen.toNat + 1 := toNat_add_one hlt cap_le
    obtain ⟨m, k, hrun, hk, hnew, hout⟩ :=
      ih (s := { s with syb := s.syb.write s.syLen.toNat r.sym, syLen := s.syLen + 1#32 }) hroot hr
        (by show (s.syLen + 1#32).toNat + n ≤ s.cfg.syCap.toNat; omega)
    simp only [hlen] at hk hnew hout
    have hfirst : m.read s.syLen.toNat = some r.sym :=
      (hout _ (.inl (Nat.lt_succ_self _))).trans (Memory.read_write_same _ _ _)
    refine ⟨m, k, ?_, by omega, holdsAt_cons.mpr ⟨hfirst, hnew⟩,
      sameOutside_mono (sameOutside_trans (sameOutside_write _ _ _) hout) (by omega) (by omega)⟩
    rw [emitRoot, readNm_defined hr hroot, Run.bind_ok, emitSym_ok hlt, Run.bind_ok, hrun]

/-- UNPACK of a degenerate tree emits its symbol T times and reads no payload. -/
theorem unpack_leaf {s : State} {x : Sym} (hi : idle s) (h : (CodeTree.leaf s.root x).heldIn s = true)
    (hne : s.arg ≠ 0#64) (hT : s.arg.toNat ≤ s.cfg.syCap.toNat) :
    ∃ m k, exec .unpack s = .next { s with syb := m, syLen := k, plRpos := 0#32 } ∧ k.toNat = s.arg.toNat ∧
      holdsAt m 0 (List.replicate s.arg.toNat x) ∧ sameOutside s.syb m 0 s.arg.toNat := by
  obtain ⟨hroot, r, hr, hkind, rfl⟩ := CodeTree.heldIn_leaf.mp h
  obtain ⟨m, k, hrun, hk, hnew, hout⟩ := emitRoot_emits s.arg.toNat (s := unpackStart s) hroot hr
    ((Nat.zero_add _).trans_le hT)
  rw [show (unpackStart s).syLen.toNat = 0 from rfl] at hk hnew hout
  rw [Nat.zero_add] at hk hout
  have hstart : startUnpack (beginCommand s) = .ok () (endCommand { unpackStart s with syb := m, syLen := k }) := by
    rw [startUnpack_leaf hne hT hroot hr hkind, hrun, Run.bind_ok]
  exact ⟨m, k, unpack_ends hi hstart hi.begun, hk, hnew, hout⟩

/-- Settles O38: every one of the T symbols is the root leaf's. -/
theorem unpackOfDegenerateTree : Obligations.UnpackOfDegenerateTree := by
  unfold Obligations.UnpackOfDegenerateTree
  intro s x hi h hne hT
  obtain ⟨m, k, hrun, hk, hnew, hout⟩ := unpack_leaf hi h hne hT
  refine ⟨_, hrun, hk, rfl, fun i hlt => ?_, rfl, hout⟩
  have hread := hnew i x (by rw [List.getElem?_replicate, if_pos hlt])
  rwa [Nat.zero_add] at hread

/-! The walk over the payload (R201, R202). -/

/-- UNPACK of a tree of at least two nodes walks the whole payload. -/
theorem unpack_walks {s : State} {t : CodeTree} (hi : idle s) (h : t.heldIn s = true) (hroot : s.root = t.index)
    (h2 : 2 ≤ t.size) (hne : s.arg ≠ 0#64) (hT : s.arg.toNat ≤ s.cfg.syCap.toNat) :
    exec .unpack s = drive bitStep (8 * s.plLen.toNat) (walkStart s) := by
  cases t with
  | leaf n x => simp [CodeTree.size] at h2
  | node n l r =>
    obtain ⟨hlt, -, -, q, hq, hkind, -⟩ := CodeTree.heldIn_node.mp h
    rw [show n = s.root from hroot.symm] at hlt hq
    rw [unpack_idle hi, startUnpack_internal hne hT hlt hq hkind, Run.finish_ok, andThen_next]

theorem walkStart_walking (s : State) : Walking (walkStart s) s.arg s.root 0 :=
  ⟨0x00#8, 0, rfl, by omega, rfl, fun h => absurd rfl h⟩

/-- Nothing has come out yet. -/
theorem Emitted.refl {s : State} {T : Operand} {q : Nat} (hw : Walking s T s.root q)
    (hlt : s.syLen.toNat < T.toNat) : Emitted s T [] q s where
  frame := rfl
  len := rfl
  new := holdsAt_nil _ _
  rest := sameOutside_refl _ _ _
  rpos := hw.rpos
  ended := fun h => absurd h hlt.ne
  goes := fun _ => ⟨hw, rfl⟩

/-- SY_LEN is the number of symbols that came out since UNPACK's start. -/
theorem Emitted.syLen_walkStart {s u : State} {T : Operand} {picks : List (List Bool × Sym)} {q : Nat}
    (h : Emitted (walkStart s) T (picks.map Prod.snd) q u) : u.syLen.toNat = picks.length := by
  rw [h.len, List.length_map]
  exact Nat.zero_add _

/-- UNPACK comes to what follows the paths that the payload begins with. -/
theorem unpack_paths {s : State} {t : CodeTree} (picks : List (List Bool × Sym)) (hi : idle s)
    (h : t.heldIn s = true) (hroot : s.root = t.index) (h2 : 2 ≤ t.size) (hp : ∀ p ∈ picks, p ∈ t.paths)
    (hne : s.arg ≠ 0#64) (hle : picks.length ≤ s.arg.toNat) (hT : s.arg.toNat ≤ s.cfg.syCap.toNat)
    (hcap : s.plLen.toNat ≤ s.cfg.plCap.toNat) (hb : holdsBits s.plb 0 (picks.flatMap Prod.fst))
    (hfit : (picks.flatMap Prod.fst).length ≤ 8 * s.plLen.toNat) :
    ∃ u, exec .unpack s = drive bitStep (8 * s.plLen.toNat - (picks.flatMap Prod.fst).length) u ∧
      Emitted (walkStart s) s.arg (picks.map Prod.snd) (picks.flatMap Prod.fst).length u := by
  rw [unpack_walks hi h hroot h2 hne hT]
  by_cases hnil : picks = []
  · subst hnil
    have hpos : 0 < s.arg.toNat := Nat.pos_of_ne_zero fun h0 => hne (BitVec.eq_of_toNat_eq h0)
    exact ⟨walkStart s, rfl, Emitted.refl (walkStart_walking s) hpos⟩
  · have hw := walkStart_walking s
    rw [hroot] at hw
    obtain ⟨u, hrun, hu⟩ := drive_paths t (8 * s.plLen.toNat - (picks.flatMap Prod.fst).length) picks hw hroot
      (CodeTree.heldIn_same h rfl rfl) h2 hp hnil hb ((Nat.zero_add _).trans_le hfit) hcap
      ((Nat.zero_add _).trans_le hle) hT
    rw [Nat.sub_add_cancel hfit] at hrun
    rw [Nat.zero_add] at hu
    exact ⟨u, hrun, hu⟩

/-- Settles O39: the walk takes the bits of all the paths, and ends with the last of their symbols. -/
theorem unpackWalksPayload : Obligations.UnpackWalksPayload := by
  unfold Obligations.UnpackWalksPayload
  intro s t picks hi h hroot h2 hp harg hnil hT hcap hb hfit
  have hpos : 0 < s.arg.toNat := harg ▸ List.length_pos_iff.mpr hnil
  obtain ⟨u, hrun, hu⟩ := unpack_paths picks hi h hroot h2 hp (arg_ne_zero hpos) harg.ge
    (harg.trans_le hT) hcap hb hfit
  have hlen := hu.syLen_walkStart
  obtain ⟨hact, hstatus⟩ := hu.ended (hlen.trans harg.symm)
  have hframe := hu.frame
  rw [hact, hstatus, show statusEnded (walkStart s).status = s.status from statusEnded_begun s hi.1, ← hi.2] at hframe
  have hrest := hu.rest
  rw [List.length_map] at hrest
  refine ⟨u, ?_, hlen, hu.new, hu.rpos, hframe, sameOutside_mono hrest (Nat.zero_le _) (Nat.zero_add _).le⟩
  rw [hrun, drive_idle _ _ (by simp [State.inFlight, hact])]

/-- Settles O41: after the paths the walk takes the bits of the path that is cut, and finds the payload at its end. -/
theorem unpackOfTruncatedPayload : Obligations.UnpackOfTruncatedPayload := by
  unfold Obligations.UnpackOfTruncatedPayload
  intro s t picks cut rest x hi h hroot h2 hp hx hrest hlt hT hcap hb hall
  rw [List.length_append] at hall
  obtain ⟨hb0, hb1⟩ := holdsBits_append.mp hb
  rw [Nat.zero_add] at hb1
  obtain ⟨u, hrun, hu⟩ := unpack_paths picks hi h hroot h2 hp (arg_ne_zero hlt) hlt.le hT hcap hb0
    (by omega)
  have hlen := hu.syLen_walkStart
  obtain ⟨hw, -⟩ := hu.goes (by omega)
  have hframe := hu.frame
  have hcfg : u.cfg = s.cfg := by rw [hframe]; rfl
  have hplLen : u.plLen = s.plLen := by rw [hframe]; rfl
  have hplb : u.plb = s.plb := by rw [hframe]; rfl
  have hnm : u.nm = s.nm := by rw [hframe]; rfl
  rw [show (walkStart s).root = t.index from hroot] at hw
  obtain ⟨v, cur, hrun', hwv, hv⟩ := drive_prefix t 0 hw (CodeTree.heldIn_same h hcfg hnm) hx hrest (hplb ▸ hb1)
    (by rw [hplLen]; omega) (by rw [hplLen, hcfg]; exact hcap)
  have hsy : v.syLen = u.syLen := by rw [hv]
  have hend : bitStep v = .next (enterFault .payloadTrunc v.syLen v) := by
    refine bitStep_trunc (T := s.arg) (cur := cur) ?_
    rwa [show v.plLen = s.plLen by rw [hv]; exact hplLen, ← hall]
  rw [ofNat_of_toNat_eq (hsy ▸ hlen)]
  refine answers_faultedWith (c := .payloadTrunc) (s := v) ?_ rfl
  rw [hrun, show 8 * s.plLen.toNat - (picks.flatMap Prod.fst).length = 0 + cut.length by omega, hrun', drive,
    if_pos hwv.inFlight, hend]

/-! The round trip (R205). -/

/-- A code word is its first branch below the code word of the rest of the path (R97). -/
theorem codeNat_cons (b : Bool) (p : List Bool) : codeNat (b :: p) = Nat.bit b (codeNat p) := by
  rw [Nat.bit_val, Nat.add_comm]
  rfl

/-- The sentinel stands above as many data bits as the path has branches (R95). -/
theorem codeNat_bounds (p : List Bool) : 2 ^ p.length ≤ codeNat p ∧ codeNat p < 2 ^ (p.length + 1) := by
  induction p with
  | nil => decide
  | cons b p ih =>
    have := b.toNat_lt
    simp only [codeNat, List.length_cons, pow_succ] at ih ⊢
    omega

theorem codeNat_pos (p : List Bool) : 0 < codeNat p := (Nat.two_pow_pos _).trans_le (codeNat_bounds p).1

theorem testBit_codeNat (p : List Bool) (i : Nat) (hi : i < p.length) : (codeNat p).testBit i = p[i] := by
  induction p generalizing i with
  | nil => simp at hi
  | cons b p ih =>
    rw [codeNat_cons]
    cases i with
    | zero => exact Nat.testBit_bit_zero _ _
    | succ i => rw [Nat.testBit_bit_succ]; exact ih i (Nat.lt_of_succ_lt_succ hi)

/-- The code word of a path that fits in ARG. -/
theorem toNat_codeWord {p : List Bool} (h : p.length ≤ 63) : (BitVec.ofNat 64 (codeNat p)).toNat = codeNat p := by
  have hlt : codeNat p < 2 ^ (p.length + 1) := (codeNat_bounds p).2
  have hpow : 2 ^ (p.length + 1) ≤ 2 ^ 64 := Nat.pow_le_pow_right (by omega) (by omega)
  rw [BitVec.toNat_ofNat, Nat.mod_eq_of_lt (hlt.trans_le hpow)]

theorem codeWord_ne_zero {p : List Bool} (h : p.length ≤ 63) : BitVec.ofNat 64 (codeNat p) ≠ 0#64 := by
  intro h0
  have hpos := codeNat_pos p
  rw [← toNat_codeWord h, h0] at hpos
  exact absurd hpos (Nat.not_lt_zero _)

/-- The data bits of a path's code word are the path (R64, R97). -/
theorem dataBits_codeWord {p : List Bool} (h : p.length ≤ 63) : dataBits (BitVec.ofNat 64 (codeNat p)) = p := by
  have hlen : codeLength (BitVec.ofNat 64 (codeNat p)) = p.length := by
    have hlog : (codeNat p).log2 = p.length := (Nat.log2_eq_iff (codeNat_pos p).ne').mpr (codeNat_bounds p)
    rw [codeLength, bitLen, toNat_codeWord h, hlog, Nat.add_sub_cancel]
  refine List.ext_getElem (by rw [length_dataBits, hlen]) fun i h1 h2 => ?_
  simp only [dataBits, List.getElem_map, List.getElem_range, codeBit]
  rw [← BitVec.testBit_toNat, toNat_codeWord h]
  exact testBit_codeNat p i h2

/-- The data bits of the picked paths' code words are the paths, one after another. -/
theorem dataBits_codeWords (picks : List (List Bool × Sym)) (h : ∀ p ∈ picks, p.1.length ≤ 63) :
    (picks.map fun p => BitVec.ofNat 64 (codeNat p.1)).flatMap dataBits = picks.flatMap Prod.fst := by
  rw [List.flatMap_map]
  exact List.flatMap_congr fun p hp => dataBits_codeWord (h p hp)

/-- A payload of just the picked paths' bits is read whole, also where ROOT is a leaf or nothing is picked: a
degenerate tree's paths have no bits. -/
theorem unpack_exact {s : State} {t : CodeTree} (picks : List (List Bool × Sym)) (hi : idle s)
    (h : t.heldIn s = true) (hroot : s.root = t.index) (hp : ∀ p ∈ picks, p ∈ t.paths)
    (harg : s.arg.toNat = picks.length) (hT : picks.length ≤ s.cfg.syCap.toNat)
    (hcap : s.plLen.toNat ≤ s.cfg.plCap.toNat) (hb : holdsBits s.plb 0 (picks.flatMap Prod.fst))
    (hlen : s.plLen.toNat = bytesFor (picks.flatMap Prod.fst).length) :
    ∃ u, exec .unpack s = .next u ∧ u.syLen.toNat = picks.length ∧ holdsAt u.syb 0 (picks.map Prod.snd) ∧
      u.plRpos = u.plLen := by
  by_cases hnil : picks = []
  · subst hnil
    have hzero : s.plLen = 0#32 := BitVec.eq_of_toNat_eq hlen
    exact ⟨_, unpackOfNoSymbols s hi (BitVec.eq_of_toNat_eq harg), rfl, holdsAt_nil _ _, hzero.symm⟩
  have hpos : 0 < s.arg.toNat := harg ▸ List.length_pos_iff.mpr hnil
  cases t with
  | leaf n x =>
    obtain rfl : s.root = n := hroot
    have hall : picks = List.replicate s.arg.toNat ([], x) :=
      harg ▸ List.eq_replicate_of_mem fun p hpk => List.mem_singleton.mp (hp p hpk)
    obtain ⟨m, k, hrun, hk, hnew, -⟩ := unpack_leaf hi h (arg_ne_zero hpos) (harg.trans_le hT)
    have hbits : picks.flatMap Prod.fst = [] := List.flatMap_eq_nil_iff.mpr fun p hpk => by
      rw [List.mem_singleton.mp (hp p hpk)]
    have hzero : s.plLen = 0#32 := BitVec.eq_of_toNat_eq (by rw [hlen, hbits]; rfl)
    refine ⟨_, hrun, hk.trans harg, ?_, hzero.symm⟩
    rw [hall, List.map_replicate]
    exact hnew
  | node n l r =>
    have h2 : 2 ≤ (CodeTree.node n l r).size := Nat.succ_le_succ (Nat.le_add_right_of_le l.size_pos)
    obtain ⟨u, hrun, hsy, hnew, hrpos, hframe, -⟩ := unpackWalksPayload s _ picks hi h hroot h2 hp harg hnil hT hcap
      hb (by rw [hlen, bytesFor]; omega)
    refine ⟨u, hrun, hsy, hnew, BitVec.eq_of_toNat_eq ?_⟩
    rw [hrpos, ← hlen, hframe]

/-- Settles O42: PKINIT and the PKPUTs leave the paths' bits as the whole payload, which UNPACK reads. -/
theorem payloadRoundTrip : Obligations.PayloadRoundTrip := by
  unfold Obligations.PayloadRoundTrip
  intro s t picks hi _ h hroot hp hT hfit
  have hbits := dataBits_codeWords picks fun p hpk => (hp p hpk).2
  have hcodes : ∀ c, c ∈ picks.map (fun p => BitVec.ofNat 64 (codeNat p.1)) → c ≠ 0#64 :=
    List.forall_mem_map.mpr fun p hpk => codeWord_ne_zero (hp p hpk).2
  obtain ⟨v, hpack, hv⟩ := packText_fits _ (s := emptyPayload s) hi (emptyPayload_packable s) hcodes
    (by rw [hbits]; exact (Nat.zero_add _).trans_le hfit)
  rw [hbits] at hv
  have hframe := hv.frame
  have hcfg : v.cfg = s.cfg := by rw [hframe]; rfl
  have hnm : v.nm = s.nm := by rw [hframe]; rfl
  have hvroot : v.root = s.root := by rw [hframe]; rfl
  have harg : (BitVec.ofNat 64 picks.length).toNat = picks.length := by
    rw [BitVec.toNat_ofNat, Nat.mod_eq_of_lt]
    exact (hT.trans_lt s.cfg.syCap.isLt).trans (by decide)
  rw [exec_pkinit hi, andThen_next, hpack, andThen_next]
  exact unpack_exact (s := { v with arg := BitVec.ofNat 64 picks.length }) picks (hv.idle hi)
    (CodeTree.heldIn_same h hcfg hnm) (hvroot.trans hroot) (fun p hpk => (hp p hpk).1) harg
    (by rw [hcfg]; exact hT) hv.ok.fits (hv.new (freeBitsZero_of_free rfl)) (hv.lengths_of_empty rfl).1

end Sys2Proof.Safety

namespace Sys2Proof.Machine

/-! A memory that ignores writes at or above its capacity (R67, R237). -/

/-- The memory with the entry written below the capacity, and as it was at or above it. -/
def Memory.store {α : Type} (cap i : Nat) (v : α) (m : Memory α) : Memory α := if i < cap then m.write i v else m

theorem Memory.read_store_same {α : Type} (cap i : Nat) (v : α) (m : Memory α) :
    (m.store cap i v).read i = if i < cap then some v else m.read i := by
  unfold Memory.store
  split
  · exact Memory.read_write_same m i v
  · rfl

theorem memStore_nm (i : Nat) (r : NodeRec) (s : State) :
    memStore .nm i (fun s => { s with nm := s.nm.write i r }) s =
      { s with nm := s.nm.store s.cfg.nn.toNat i r } :=
  (apply_ite (fun m => ({ s with nm := m } : State)) (i < s.cfg.nn.toNat) (s.nm.write i r) s.nm).symm

theorem memStore_tsb (i : Nat) (b : Byte) (s : State) :
    memStore .tsb i (fun s => { s with tsb := s.tsb.write i b }) s =
      { s with tsb := s.tsb.store s.cfg.tsCap.toNat i b } :=
  (apply_ite (fun m => ({ s with tsb := m } : State)) (i < s.cfg.tsCap.toNat) (s.tsb.write i b) s.tsb).symm

theorem memStore_plb (i : Nat) (b : Byte) (s : State) :
    memStore .plb i (fun s => { s with plb := s.plb.write i b }) s =
      { s with plb := s.plb.store s.cfg.plCap.toNat i b } :=
  (apply_ite (fun m => ({ s with plb := m } : State)) (i < s.cfg.plCap.toNat) (s.plb.write i b) s.plb).symm

/-! Reads of registers (R234). -/

/-- A register whose read is specified answers its value. -/
theorem csrRead_specified {n : Nat} {s : State} {v : Operand} (h : s.faulted = false ∨ readsSpecified n = true)
    (hv : csrValue s n = v) : csrRead n s = s.reply (.csr v) := by
  subst hv
  rcases h with h | h <;> simp [csrRead, h]

/-- In the faulted state any other register answers a free value (R284, log 5). -/
theorem csrRead_unspecified {n : Nat} {s : State} (hf : s.faulted = true) (hn : readsSpecified n = false) :
    csrRead n s = s.replyFree fun v => .csr (v.setWidth 64) := by
  simp [csrRead, hf, hn]

/-- The numbers from 13 up are no registers and read 0 (R37). -/
theorem csrValue_above {n : Nat} (h : 13 ≤ n) (s : State) : csrValue s n = 0#64 := by
  obtain ⟨k, rfl⟩ := Nat.exists_eq_add_of_le' h
  rfl

/-! Writes of registers (R235). -/

theorem toNat_saturate (v cap : Idx) : (saturate v cap).toNat = min v.toNat cap.toNat := by
  unfold saturate
  split <;> omega

/-- A write of a register that the host cannot write is ignored (R37). -/
theorem csrStore_ignored {n : Nat} (h : n ∉ [4, 5, 7, 9]) (v : Operand) (s : State) : csrStore n v s = s := by
  unfold csrStore
  split
  case h_5 => rfl
  all_goals exact absurd (by decide) h

/-! Reads of memories (R236). -/

theorem memRead_above {sp : Space} {i : Nat} {s : State} (h : s.capacity sp ≤ i) :
    memRead sp i s = s.reply (zeroReply sp) := if_pos h

/-- In the faulted state an entry answers a free value (R284). -/
theorem memRead_faulted {sp : Space} {i : Nat} {s : State} (hf : s.faulted = true) (h : i < s.capacity sp) :
    memRead sp i s = s.replyFree (freeReply sp) := by
  rw [memRead, if_neg h.not_ge, if_pos hf]

theorem memRead_defined {sp : Space} {i : Nat} {s : State} {r : HostReply} (hf : s.faulted = false)
    (h : i < s.capacity sp) (hr : s.entry sp i = some r) : memRead sp i s = s.reply r := by
  simp [memRead, h.not_ge, hf, hr]

theorem memRead_undefined {sp : Space} {i : Nat} {s : State} (hf : s.faulted = false) (h : i < s.capacity sp)
    (hr : s.entry sp i = none) : memRead sp i s = s.replyFree (freeReply sp) := by
  simp [memRead, h.not_ge, hf, hr]

end Sys2Proof.Machine

namespace Sys2Proof.Safety

open Sys2Proof.Machine

/-! NOP and RESET. -/

/-- Settles O14: on an idle block NOP is a command with nothing between BUSY set and `done`. -/
theorem nopChangesNothing : Obligations.NopChangesNothing := by
  unfold Obligations.NopChangesNothing
  rintro s (hi | hf)
  · exact runCommand_done (body := fun t => .ok () t) (t := beginCommand s) hi rfl hi.begun
  · exact exec_faulted hf rfl Instr.noConfusion

/-- RESET is accepted on an idle block and in the faulted state (R231, R233). -/
theorem exec_reset {s : State} (h : s.busy = false ∨ s.faulted = true) : exec .reset s = .next (resetBlock s) := by
  show execReset s = _
  rcases h with h | h <;> simp [execReset, h]

/-- Settles O2: RESET answers the state that reset leaves. -/
theorem resetCommandRestoresResetState : Obligations.ResetCommandRestoresResetState := by
  unfold Obligations.ResetCommandRestoresResetState
  exact fun s h => ⟨resetBlock s, exec_reset h, atReset_resetBlock s, rfl⟩

/-! The host's reads and writes of a block between commands. -/

/-- An idle block and a faulted one let the host read anything (R234, R236, R284). -/
theorem hostRead_between {s : State} (h : s.busy = false ∨ s.faulted = true) (allowed : Bool)
    (read : State → State) : hostRead allowed read s = .next (read s) :=
  h.elim (hostRead_idle · allowed read) (hostRead_faulted · allowed read)

theorem step_csrRead {s t : State} {n : Nat} {rest : List HostAction} (ha : s.act = .idle)
    (h : s.busy = false ∨ s.faulted = true) (hh : s.host = .csrRead n :: rest)
    (ht : csrRead n { s with host := rest } = t) : step s = .next t := by
  subst ht
  exact (step_host ha hh).trans (hostRead_between (s := { s with host := rest }) h _ _)

theorem step_memRead {s t : State} {sp : Space} {i : Nat} {rest : List HostAction} (ha : s.act = .idle)
    (h : s.busy = false ∨ s.faulted = true) (hh : s.host = .memRead sp i :: rest)
    (ht : memRead sp i { s with host := rest } = t) : step s = .next t := by
  subst ht
  exact (step_host ha hh).trans (hostRead_between (s := { s with host := rest }) h _ _)

/-- A write of a register other than CMD starts no command. -/
theorem hostMove_csrWrite {n : Nat} (h : n ≠ 0) (v : Operand) (s : State) :
    hostMove (.csrWrite n v) s = hostWrite (csrStore n v) s := by
  obtain ⟨k, rfl⟩ := Nat.exists_eq_succ_of_ne_zero h
  rfl

/-- On an idle block a write of the host is its store. -/
theorem idle.step_write {s : State} {a : HostAction} {store : State → State} {rest : List HostAction} (hi : idle s)
    (hh : s.host = a :: rest) (hmove : ∀ t, hostMove a t = hostWrite store t) :
    step s = .next (store { s with host := rest }) := by
  rw [step_host hi.2 hh, hmove]
  exact hostWrite_idle (s := { s with host := rest }) hi.faulted hi.busy store

/-! The faulted state. -/

/-- In the faulted state a write of the host other than `CsrWrite(CMD, 0x01)` is ignored (R233, R284). -/
theorem hostMove_ignored {s : State} {a : HostAction} (hf : s.faulted = true) (h : isOtherWrite a) :
    hostMove a s = .next s := by
  cases a with
  | csrWrite n v =>
    by_cases hn : n = 0
    · subst hn
      exact writeCmd_ignored hf fun hv => h ⟨rfl, hv⟩
    · rw [hostMove_csrWrite hn, hostWrite_faulted hf]
  | writeNode | writeTsb | writePlb | writeSyb => exact hostWrite_faulted hf _
  | csrRead | memRead | hwReset => exact h.elim

/-- Settles O10: the step is the host's write. -/
theorem faultedIgnoresOtherWrites : Obligations.FaultedIgnoresOtherWrites := by
  unfold Obligations.FaultedIgnoresOtherWrites
  exact fun s a rest hf ha hh hw => (step_host ha hh).trans (hostMove_ignored (s := { s with host := rest }) hf hw)

/-- The three registers whose values fault entry writes (R47, R234). -/
theorem csrValue_of_fault {s : State} {n : Nat} {v : Operand}
    (h : (n, v) ∈ [(1, s.status.setWidth 64), (2, s.cause.setWidth 64), (3, s.info.setWidth 64)]) :
    readsSpecified n = true ∧ csrValue s n = v := by
  simp only [List.mem_cons, Prod.mk.injEq, List.not_mem_nil, or_false] at h
  rcases h with ⟨rfl, rfl⟩ | ⟨rfl, rfl⟩ | ⟨rfl, rfl⟩ <;> exact ⟨rfl, rfl⟩

/-- Settles O11: a read by whether the spec gives its value in the faulted state. -/
theorem faultedReadsOfTheHost : Obligations.FaultedReadsOfTheHost := by
  unfold Obligations.FaultedReadsOfTheHost
  refine ⟨fun s n v rest hf ha hh hv => ?_, fun s n rest hf ha hh hn => ?_, fun s n rest hf ha hh hn hlt => ?_,
    fun s sp i rest hf ha hh hi => ?_, fun s sp i rest hf ha hh hi => ?_⟩
  · obtain ⟨hspec, hval⟩ := csrValue_of_fault hv
    exact step_csrRead ha (.inr hf) hh (csrRead_specified (.inr hspec) hval)
  · have hspec : readsSpecified n = true := by simp [readsSpecified, hn]
    exact step_csrRead ha (.inr hf) hh (csrRead_specified (.inr hspec) (csrValue_above hn _))
  · have hspec : readsSpecified n = false := by
      simp only [List.mem_cons, List.not_mem_nil, or_false, not_or] at hn
      simp [readsSpecified, hn, hlt]
    exact ⟨_, step_csrRead ha (.inr hf) hh (csrRead_unspecified hf hspec)⟩
  · exact step_memRead ha (.inr hf) hh (memRead_above hi)
  · exact ⟨_, step_memRead ha (.inr hf) hh (memRead_faulted hf hi)⟩

/-! The host interface of an idle block. -/

/-- A register read answers the row of the register table; past its end, 0 (R23, R37). -/
theorem csrValue_eq_registerTable (s : State) (n : Nat) : csrValue s n = (registerTable s)[n]?.getD 0#64 := by
  by_cases h : n < 13
  · interval_cases n <;> rfl
  · rw [csrValue_above (by omega), List.getElem?_eq_none (Nat.le_of_not_lt h), Option.getD_none]

/-- Settles O46: every register's read is specified on an idle block. -/
theorem hostReadsRegisters : Obligations.HostReadsRegisters := by
  unfold Obligations.HostReadsRegisters
  intro s n rest hi hh
  exact step_csrRead hi.2 (.inl hi.busy) hh (csrRead_specified (.inl hi.faulted) (csrValue_eq_registerTable _ n))

/-- Settles O47: the step is the store of the register, by its number. -/
theorem hostWritesRegisters : Obligations.HostWritesRegisters := by
  unfold Obligations.HostWritesRegisters
  intro s n v rest hi hn hh
  refine ⟨csrStore n v { s with host := rest }, hi.step_write hh (hostMove_csrWrite hn v), ?_, ?_, ?_, ?_,
    fun h => csrStore_ignored h v _⟩
  · rintro rfl
    rfl
  · rintro rfl
    rfl
  · rintro rfl
    exact ⟨rfl, toNat_saturate _ _⟩
  · rintro rfl
    exact ⟨rfl, toNat_saturate _ _⟩

theorem sameOutside_store {α : Type} (cap i : Nat) (v : α) (m : Memory α) :
    sameOutside m (m.store cap i v) i (i + 1) := by
  unfold Memory.store
  split
  · exact sameOutside_write m i v
  · exact sameOutside_refl m i (i + 1)

/-- Settles O48: the step stores the entry in its own memory, as far as the capacity allows. -/
theorem hostWritesMemory : Obligations.HostWritesMemory := by
  unfold Obligations.HostWritesMemory
  refine ⟨fun s i r rest hi hh => ?_, fun s i b rest hi hh => ?_, fun s i b rest hi hh => ?_,
    fun s i x rest hi hh => hi.step_write hh fun _ => rfl⟩
  · rw [hi.step_write hh fun _ => rfl, memStore_nm]
    exact ⟨_, rfl, rfl, sameOutside_store _ _ _ _, Memory.read_store_same _ _ _ _⟩
  · rw [hi.step_write hh fun _ => rfl, memStore_tsb]
    exact ⟨_, rfl, rfl, sameOutside_store _ _ _ _, Memory.read_store_same _ _ _ _⟩
  · rw [hi.step_write hh fun _ => rfl, memStore_plb]
    exact ⟨_, rfl, rfl, sameOutside_store _ _ _ _, Memory.read_store_same _ _ _ _⟩

/-- Settles O49: a memory read by the capacity and by whether the entry is defined. -/
theorem hostReadsMemory : Obligations.HostReadsMemory := by
  unfold Obligations.HostReadsMemory
  refine ⟨fun s sp i r rest hi hh hlt hr => ?_, fun s sp i rest hi hh hle => ?_, fun s sp i rest hi hh hlt hr => ?_⟩
  · exact step_memRead hi.2 (.inl hi.busy) hh (memRead_defined hi.faulted hlt hr)
  · exact step_memRead hi.2 (.inl hi.busy) hh (memRead_above hle)
  · exact ⟨_, step_memRead hi.2 (.inl hi.busy) hh (memRead_undefined hi.faulted hlt hr)⟩

end Sys2Proof.Safety

namespace Sys2Proof.Safety

open Sys2Proof.Machine

/-! Fault entry. -/

/-- Settles O9: fault entry's writes, and the codes in R281's order. -/
theorem faultEntryWritesCauseAndInfo : Obligations.FaultEntryWritesCauseAndInfo := by
  unfold Obligations.FaultEntryWritesCauseAndInfo
  exact ⟨fun c info s => ⟨enterFault_status s c info, enterFault_cause s c info, enterFault_info s c info,
    fun _ => ⟨rfl, rfl, rfl, rfl⟩, enterFault_act s c info, enterFault_cfg s c info, enterFault_host s c info,
    enterFault_seen s c info⟩, rfl⟩

/-! The faulted state until reset. -/

/-- No command is in flight in the faulted state: BUSY is clear there (R283). -/
theorem Inv.idleAct_of_faulted {s : State} (h : Inv s) (hf : s.faulted = true) : s.act = .idle := by
  obtain ⟨hbusy, hclear, -⟩ := h.flags
  have hfl : s.inFlight = false := hbusy.symm.trans (hclear hf)
  simpa [State.inFlight] using hfl

/-- In the faulted state an access of the host that is no reset draws free values and answers at most (R284). -/
theorem hostMove_faulted_frame {s : State} {a : HostAction} (hf : s.faulted = true) (ha : ¬ isReset a) :
    Nexts (fun t => t = { s with draws := t.draws, seen := t.seen }) (hostMove a s) := by
  by_cases hw : isOtherWrite a
  · rw [hostMove_ignored hf hw]; exact rfl
  cases a with
  | csrRead n =>
    show Nexts _ (hostRead _ _ s)
    rw [hostRead_faulted hf]
    exact csrRead_frame n s
  | memRead sp i =>
    show Nexts _ (hostRead _ _ s)
    rw [hostRead_faulted hf]
    exact memRead_frame sp i s
  | csrWrite n v => exact absurd ha hw
  | writeNode | writeTsb | writePlb | writeSyb => exact absurd trivial hw
  | hwReset => exact absurd trivial ha

/-- A step from the faulted state whose next host access is no reset leaves the block's registers and memories as they
were (R284, R285). -/
theorem step_faulted_frame {s : State} (h : Inv s) (hf : s.faulted = true)
    (ha : ∀ a, s.host.head? = some a → ¬ isReset a) :
    Nexts (fun t => t = { s with host := t.host, draws := t.draws, seen := t.seen }) (step s) := by
  have hidle : s.act = .idle := h.idleAct_of_faulted hf
  cases hh : s.host with
  | nil => rw [step_waits hidle hh]; exact rfl
  | cons a rest =>
    rw [step_host hidle hh]
    refine (hostMove_faulted_frame (s := { s with host := rest }) hf (ha a (by simp [hh]))).mono fun t ht => ?_
    rw [ht]

/-- Settles O12: such a step does not touch STATUS, CAUSE or INFO. -/
theorem faultedUntilReset : Obligations.FaultedUntilReset := by
  unfold Obligations.FaultedUntilReset
  intro s t h hf ha ht
  have hframe := step_faulted_frame h hf ha
  rw [ht] at hframe
  rw [nexts_next] at hframe
  rw [hframe]
  exact ⟨hf, rfl, rfl⟩

/-! The causes of each command (R282). -/

/-- The causes a command can raise (R282); `causeCodes` has their codes. -/
def commandCauses : Instr → List Cause
  | .tend => [.bufOverflow]
  | .pkput => packerCauses
  | .tser => serializerCauses
  | .tdes => deserializerCauses
  | .unpack => unpackerCauses
  | .nop | .reset | .pkinit => []
  | .tokEnd | .tokInternal | .tokLeaf1 _ | .tokLeaf2 _ | .tokLeaf3 _ | .tokLeaf4 _ | .bitLeft | .bitRight => []

theorem causeCodes_eq_map_code (i : Instr) : causeCodes i = (commandCauses i).map Cause.code := by
  cases i <;> rfl

/-- A command begun on an idle block answers a next state, whose fault, if it holds one, is of the command's causes:
each by the causes of its own pseudocode. -/
theorem exec_command_causes {s : State} {i : Instr} (h : Inv s) (hs : idle s) (hi : isCommand i = true) :
    Nexts (CauseIn (commandCauses i)) (exec i s) := by
  have hfl : s.inFlight = false := by simp [State.inFlight, hs.2]
  have raised : ∀ {cs : List Cause} {o : Answer},
      Nexts (fun t => Inv t ∧ t.inFlight = false ∧ (s.faulted = false → CauseIn cs t)) o → Nexts (CauseIn cs) o :=
    fun ho => ho.mono fun _ ⟨_, _, hc⟩ => hc hs.faulted
  cases i with
  | nop => exact raised (runCommand_inv (body := fun s => .ok () s) (fun _ hr => hr) h hfl)
  | reset =>
    rw [exec_reset (.inl hs.busy)]
    exact fun hf => absurd hf (by simp)
  | pkinit => exact raised (runCommand_inv (fun _ hr => packInit_running hr) h hfl)
  | pkput => exact raised (runCommand_inv (fun _ hr => packCode_running hr) h hfl)
  | unpack => exact raised (execUnpack_inv h hfl)
  | tser => exact raised (runCommand_inv (fun _ hr => serializeTree_running hr) h hfl)
  | tend =>
    refine raised (runCommand_inv (fun _ hr => ?_) h hfl)
    exact (emitToken_running (List.mem_singleton_self _) _ hr).mono (fun _ _ ht => ht.1) fun _ _ _ he => he
  | tdes => exact raised (execTdes_inv h hfl)
  | tokEnd | tokInternal | tokLeaf1 | tokLeaf2 | tokLeaf3 | tokLeaf4 | bitLeft | bitRight => cases hi

/-- Settles O13: a command by the causes of its pseudocode, an undefined opcode by the write of CMD that raises
CmdIllegal. -/
theorem commandsRaiseListedCauses : Obligations.CommandsRaiseListedCauses := by
  unfold Obligations.CommandsRaiseListedCauses
  refine ⟨fun s t i h hs hi ht hf => ?_, fun s t v rest hs hh hv ht => ?_⟩
  · have hcauses := exec_command_causes h hs hi
    rw [ht] at hcauses
    obtain ⟨c, hc, hcode⟩ := hcauses hf
    rw [causeCodes_eq_map_code, hcode]
    exact List.mem_map_of_mem hc
  · obtain ⟨u, hu, hstatus, hcause, -⟩ := illegalOpcodeRaisesCmdIllegal s v rest hs hh hv
    obtain rfl : u = t := Host.Outcome.next.inj (hu.symm.trans ht)
    exact ⟨by simp [State.faulted, hstatus], hcause⟩

end Sys2Proof.Safety

namespace Sys2Proof.Safety

open Sys2Proof.Machine

/-! The hardware reset, and the end of every command. -/

/-- Settles O3: the hardware reset may interrupt a command, so at the head of the host's list it is the step's move,
before the next token or bit (log 17). -/
theorem hardwareResetAtAnyTime : Obligations.HardwareResetAtAnyTime := by
  unfold Obligations.HardwareResetAtAnyTime
  intro s rest hh
  exact ⟨resetBlock { s with host := rest }, step_interrupt (a := .hwReset) rfl hh, atReset_resetBlock _, rfl⟩

/-- Settles O58: every command ends in the invariant with nothing in flight, and BUSY is clear in such a state. -/
theorem everyCommandEnds : Obligations.EveryCommandEnds := by
  unfold Obligations.EveryCommandEnds
  intro s i h hs hi
  obtain ⟨t, ht, hinv, hidle⟩ := (exec_command_ends h hs hi).out
  exact ⟨t, ht, hidle, hinv.notBusy hidle, hinv⟩

end Sys2Proof.Safety
